-- ==== Sys2Proof/Word.lean ====
section
/-! DEFINITION. The two word types of the block (R8): bytes of the microprogram stream and of system
memory, and 32-bit words, which are bus addresses, DMAC register contents and immediates. Their
arithmetic is `BitVec` arithmetic, that is, modulo 2^8 and 2^32 (R8's `+32` and `-32` are `+` and `-`
of `Word`). The bit-field helpers stand in Decode.lean. -/

namespace Sys2Proof

/-- `u8` of R8. -/
abbrev Byte := BitVec 8

/-- `u32` of R8. -/
abbrev Word := BitVec 32

end Sys2Proof
end

