-- ==== Sys2Proof/Config.lean ====
section
/-! DEFINITION. What an implementation fixes (R7): the parameters the spec leaves OPEN are the fields of
`Config.Params`, which State carries unchanged; the parameters it decides are constants. The values
that belong to the environment (what the DMAC presents at a read that no listed answer covers, what its
registers hold at launch or where a transfer reaches into them, what has been injected by launch, and how long its debug interface may stay busy) are opaque. -/

namespace Sys2Proof.Config

/-- The parameters R7 leaves OPEN. Each field's type admits exactly the range R7 and D40 give, so an
illegal configuration cannot be written: `numChannelsLess1` is NUM_CHANNELS − 1 (1..8 channels),
`maxBurstExp` is MAX_BURST_EXP (0..4), the two bases are the upper 30 bits of SEC_REG_BASE and
NS_REG_BASE (a base is a multiple of 4, R64), the two limits are less 1 (each limit is at least 1). -/
structure Params where
  numChannelsLess1 : Fin 8
  maxBurstExp : Fin 5
  secRegBaseHi : BitVec 30
  nsRegBaseHi : BitVec 30
  dbgPollLimitLess1 : Nat
  killWaitLimitLess1 : Nat
  envProtocol : Bool
deriving DecidableEq, Repr, Inhabited

/-- The parameters of the machine that `State.reset` describes: uninterpreted, so that nothing depends on
them (R7: "OPEN means the model takes the value as an argument"). -/
opaque platform : Params

/-- FREE VALUE. What the DMAC presents at a read for which State lists no answer, by the read's number
(R301: a draw of the environment). -/
opaque freeDraw : Nat → Word

/-- FREE VALUE. What the DMAC register at an offset holds when the block first runs (R45, R362: the launch
premise; "A model must not assume one"). -/
opaque launchReg : Nat → Word

/-- FREE VALUE. What a DMAC register holds where a transfer reaches into it (R371, U14), by the number of the change and
the register's offset. -/
opaque freeReg : Nat → Nat → Word

/-- FREE VALUE. How many consecutive DBGSTATUS reads may answer busy in one busy run, by the run's number (R302:
"some finite number of consecutive reads, which may be DBG_POLL_LIMIT or more"). -/
opaque busyRun : Nat → Nat

/-- FREE VALUE. Whether a GO for a channel, injected before the block's first command, is still open then, by the
channel's number (R45, R362: any DMAC state at the first command). -/
opaque launchGo : Nat → Bool

/-- FREE VALUE. The same for a KILL. -/
opaque launchKill : Nat → Bool

/-- SIZE_MAX (R7, D3). -/
def sizeMax : Nat := 4294967295
/-- LOOP_MAX (R7): the largest iteration count of one hardware loop. -/
def loopMax : Nat := 256
/-- BJUMP_MAX (R7, R85). -/
def bjumpMax : Nat := 255
/-- PERIPH_MAX (R7). -/
def periphMax : Nat := 31
/-- The largest event number of SEV (R148). -/
def eventMax : Nat := 31
/-- The largest channel number the 3-bit field of GO holds (R86). -/
def chanFieldMax : Nat := 7
/-- BURST_LEN_MAX (R7). -/
def burstLenMax : Nat := 16
/-- The size of the 32-bit address space (ADDR_WIDTH, R7; R61). -/
def addrSpace : Nat := 4294967296
/-- The bytes of a DMAC register frame, up to and with its highest register, WD at 0xE80 (R32). -/
def frameBytes : Nat := 0xE84
/-- CCR_PRIV (R7, D13). -/
def ccrPriv : Nat := 0
/-- CC_BASE_SRC (R7, D14). -/
def ccBaseSrc : Nat := 1
/-- CC_BASE_DST (R7, D14). -/
def ccBaseDst : Nat := 1
/-- CC_WB_SRC (R7, D14). -/
def ccWbSrc : Nat := 7
/-- CC_WB_DST (R7, D14). -/
def ccWbDst : Nat := 7
/-- ZF_BURST_LEN (R7, D16). -/
def zfBurstLen : Nat := 16
/-- ZF_SINGLE_EXP (R7, D16). -/
def zfSingleExp : Nat := 0
/-- ZF_NONSECURE (R7, D16). -/
def zfNonsecure : Bool := false

/-- NUM_CHANNELS (R7, D40). -/
def Params.numChannels (p : Params) : Nat := p.numChannelsLess1.val + 1
/-- MAX_BURST_EXP (R7, D40) as a number. -/
def Params.maxExp (p : Params) : Nat := p.maxBurstExp.val
/-- ZF_BURST_EXP = MAX_BURST_EXP (R7, D16). -/
def Params.zfBurstExp (p : Params) : Nat := p.maxExp
/-- SEC_REG_BASE (R7). -/
def Params.secRegBase (p : Params) : Word := p.secRegBaseHi ++ (0 : BitVec 2)
/-- NS_REG_BASE (R7). -/
def Params.nsRegBase (p : Params) : Word := p.nsRegBaseHi ++ (0 : BitVec 2)
/-- DBG_POLL_LIMIT (R7, D19). -/
def Params.dbgPollLimit (p : Params) : Nat := p.dbgPollLimitLess1 + 1
/-- KILL_WAIT_LIMIT (R7, D22). -/
def Params.killWaitLimit (p : Params) : Nat := p.killWaitLimitLess1 + 1

end Sys2Proof.Config
end

