-- ==== Sys2Proof/Syntax.lean ====
section
/-! DEFINITION. Syntax: the records that cross the block's interface (R21, R22) and `Instr`, one constructor
per row of spec/opcode_table.json: 28 microinstruction rows (R87) and 6 command rows (R92). Numeric
operands are `Nat`, as the spec types them (R8: every count is a `Nat`); WellFormed.lean gives the operand
domains of R86. -/

namespace Sys2Proof

/-- The security domain of a request and the security instance of a context (R21, R27). -/
inductive Security where
  | secure
  | nonsecure
deriving DecidableEq, Repr, Inhabited

/-- The transfer kind of a request (R21). -/
inductive Kind where
  | mem2mem
  | mem2periph
  | periph2mem
deriving DecidableEq, Repr, Inhabited

/-- A TransferRequest (R21), field by field. -/
structure TransferRequest where
  src : Word
  dst : Word
  size : Nat
  bsz : Nat
  blen : Nat
  ssz : Nat
  periph : Nat
  kind : Kind
  cache : Bool
  security : Security
deriving DecidableEq, Repr, Inhabited

/-- A Microprogram record (R22). -/
structure Microprogram where
  base : Word
  capacity : Nat
  length : Nat
  residual : Nat
deriving DecidableEq, Repr, Inhabited

/-- One constructor per row of the opcode table. The condition of LD, ST, STP and WFP, the register of MOV,
the counter of LP and LPEND and the security of GO select the row, so they are no operands here. `ctx` names an
ExecutionContext by its position in the order the host created them. -/
inductive Instr where
  | movSar (imm : Word)
  | movCcr (imm : Word)
  | movDar (imm : Word)
  | ld
  | lds
  | ldb
  | st
  | sts
  | stb
  | stz
  | stps (periph : Nat)
  | stpb (periph : Nat)
  | flushp (periph : Nat)
  | wfpSingle (periph : Nat)
  | wfpBurst (periph : Nat)
  | wfpPeriph (periph : Nat)
  | lpLc0 (count : Nat)
  | lpLc1 (count : Nat)
  | lpendLc0 (bjump : Nat)
  | lpendLc1 (bjump : Nat)
  | endp
  | nop
  | kill
  | goSecure (chan : Nat) (addr : Word)
  | goNs (chan : Nat) (addr : Word)
  | rmb
  | wmb
  | sev (event : Nat)
  | build (req : TransferRequest) (bufBase : Word) (cap : Nat)
  | buildZf (dst : Word) (size : Nat) (bufBase : Word) (cap : Nat)
  | start (ctx : Nat) (program : Microprogram)
  | poll (ctx : Nat)
  | finish (ctx : Nat) (timeout : Option Nat)
  | killCommand (ctx : Nat)
deriving DecidableEq, Repr

/-- One transaction on the command port (R92): the 8-bit command code "taken together with its operands in
one transaction". R92 gives the operands no bit layout, so the operand fields stand beside the code; a
command reads those R92 lists for it and no other. DESIGN CHOICE, log 7. -/
structure Transaction where
  code : Byte
  req : TransferRequest
  dst : Word
  size : Nat
  bufBase : Word
  cap : Nat
  ctx : Nat
  program : Microprogram
  timeout : Option Nat
deriving DecidableEq, Repr, Inhabited

/-- How an instruction is carried: a microinstruction as its bytes, byte 0 first (R87); a command as a
transaction on the command port (R92). -/
inductive Wire where
  | bytes (bs : List Byte)
  | port (tx : Transaction)
deriving DecidableEq, Repr

end Sys2Proof
end

