-- ==== Sys2Proof/WellFormed.lean ====
section
/-! DEFINITION. The operand domains of R86 (with R84 for the LP count and R85 for bjump). A command's operands
have no domain of their own: any value is taken and the planner or the context check answers for it (R171,
R255). -/

namespace Sys2Proof

/-- `periph ∈ [0, 31]` (R86). -/
def periphOk (p : Nat) : Bool := p ≤ Config.periphMax

/-- `count ∈ [1, 256]` (R84). -/
def countOk (n : Nat) : Bool := 1 ≤ n && n ≤ Config.loopMax

/-- `bjump ∈ [0, 255]` (R85). -/
def bjumpOk (d : Nat) : Bool := d ≤ Config.bjumpMax

/-- The 3-bit channel field of GO (R86). -/
def chanOk (n : Nat) : Bool := n ≤ Config.chanFieldMax

/-- `event ∈ [0, 31]` (R86, R148). -/
def eventOk (e : Nat) : Bool := e ≤ Config.eventMax

/-- An instruction whose operands lie in the domains of R86. -/
def Instr.wf : Instr → Bool
  | .movSar _ => true
  | .movCcr _ => true
  | .movDar _ => true
  | .ld => true
  | .lds => true
  | .ldb => true
  | .st => true
  | .sts => true
  | .stb => true
  | .stz => true
  | .stps p => periphOk p
  | .stpb p => periphOk p
  | .flushp p => periphOk p
  | .wfpSingle p => periphOk p
  | .wfpBurst p => periphOk p
  | .wfpPeriph p => periphOk p
  | .lpLc0 n => countOk n
  | .lpLc1 n => countOk n
  | .lpendLc0 d => bjumpOk d
  | .lpendLc1 d => bjumpOk d
  | .endp => true
  | .nop => true
  | .kill => true
  | .goSecure c _ => chanOk c
  | .goNs c _ => chanOk c
  | .rmb => true
  | .wmb => true
  | .sev e => eventOk e
  | .build _ _ _ => true
  | .buildZf _ _ _ _ => true
  | .start _ _ => true
  | .poll _ => true
  | .finish _ _ => true
  | .killCommand _ => true

end Sys2Proof
end

