-- ==== Sys2Proof/Decode.lean ====
section
/-! DEFINITION. The decoder of R88, total on any byte sequence and answering Unknown or Truncated by name; the
decoder of command codes (R92); then the encoder, written from the same tables (R82 to R87); and
`decodeTableWord`, the host's question about one row of the opcode table. The bit-field and byte-order helpers
stand here. -/

namespace Sys2Proof

/-- Byte `k` of a word, byte 0 the least significant. -/
def wordByte (w : Word) (k : Nat) : Byte := w.extractLsb' (8 * k) 8

/-- `imm32 = byte2 | byte3 << 8 | byte4 << 16 | byte5 << 24` (R83), from the four bytes in address order. -/
def leWord (b0 b1 b2 b3 : Byte) : Word := b3 ++ b2 ++ b1 ++ b0

/-- The four bytes of an immediate in address order (R62, R83). -/
def wordBytes (w : Word) : List Byte := [wordByte w 0, wordByte w 1, wordByte w 2, wordByte w 3]

/-- A 5-bit peripheral or event number in bits [7:3] of byte 1, bits [2:0] zero (R81, R82). -/
def fieldHi5 (n : Nat) : Byte := BitVec.ofNat 8 n <<< 3

/-- What the decoder answers (R88). `unknown2` is the spec's `Unknown(byte0, byte1)`. -/
inductive Decoded where
  | instr (i : Instr) (size : Nat)
  | unknown (b0 : Byte)
  | unknown2 (b0 b1 : Byte)
  | truncated
deriving DecidableEq, Repr

/-- Format F2P (R81): the number stands in byte1[7:3]; bits [2:0] must be 0. -/
def decodeF2P (b0 : Byte) (mk : Nat → Instr) : List Byte → Decoded
  | b1 :: _ => if b1.extractLsb' 0 3 = 0 then .instr (mk (b1 >>> 3).toNat) 2 else .unknown2 b0 b1
  | [] => .truncated

/-- Format F2I (R81): byte 1 is an 8-bit immediate. -/
def decodeF2I (mk : Nat → Instr) : List Byte → Decoded
  | b1 :: _ => .instr (mk b1.toNat) 2
  | [] => .truncated

/-- MOV (format F6): byte 1 selects the register (R86), bytes 2 to 5 are the immediate (R83). -/
def decodeMov (b0 : Byte) : List Byte → Decoded
  | b1 :: b2 :: b3 :: b4 :: b5 :: _ =>
    if b1 = 0x00 then .instr (.movSar (leWord b2 b3 b4 b5)) 6
    else if b1 = 0x01 then .instr (.movCcr (leWord b2 b3 b4 b5)) 6
    else if b1 = 0x02 then .instr (.movDar (leWord b2 b3 b4 b5)) 6
    else .unknown2 b0 b1
  | _ => .truncated

/-- GO (format F6): byte1[2:0] is the channel, byte1[7:3] must be 0 (R86, R88). -/
def decodeGo (b0 : Byte) (mk : Nat → Word → Instr) : List Byte → Decoded
  | b1 :: b2 :: b3 :: b4 :: b5 :: _ =>
    if b1.extractLsb' 3 5 = 0 then .instr (mk b1.toNat (leWord b2 b3 b4 b5)) 6 else .unknown2 b0 b1
  | _ => .truncated

/-- The decoder of R88. Byte 0 is matched against R87; the length check comes before the check of byte 1. R88 is total and
does not say what no bytes at all give: Truncated (DESIGN CHOICE, log 33). -/
def decode : List Byte → Decoded
  | [] => .truncated
  | b0 :: rest =>
    match b0.toNat with
    | 0x00 => .instr .endp 1
    | 0x01 => .instr .kill 1
    | 0x04 => .instr .ld 1
    | 0x05 => .instr .lds 1
    | 0x07 => .instr .ldb 1
    | 0x08 => .instr .st 1
    | 0x09 => .instr .sts 1
    | 0x0B => .instr .stb 1
    | 0x0C => .instr .stz 1
    | 0x12 => .instr .rmb 1
    | 0x13 => .instr .wmb 1
    | 0x18 => .instr .nop 1
    | 0x20 => decodeF2I (fun n => .lpLc0 (n + 1)) rest
    | 0x22 => decodeF2I (fun n => .lpLc1 (n + 1)) rest
    | 0x29 => decodeF2P b0 .stps rest
    | 0x2B => decodeF2P b0 .stpb rest
    | 0x30 => decodeF2P b0 .wfpSingle rest
    | 0x31 => decodeF2P b0 .wfpPeriph rest
    | 0x32 => decodeF2P b0 .wfpBurst rest
    | 0x34 => decodeF2P b0 .sev rest
    | 0x35 => decodeF2P b0 .flushp rest
    | 0x38 => decodeF2I .lpendLc0 rest
    | 0x3C => decodeF2I .lpendLc1 rest
    | 0xA0 => decodeGo b0 .goSecure rest
    | 0xA2 => decodeGo b0 .goNs rest
    | 0xBC => decodeMov b0 rest
    | _ => .unknown b0

/-- The command a transaction asks for, `none` for a reserved code (R92). -/
def decodeCommand (tx : Transaction) : Option Instr :=
  match tx.code.toNat with
  | 0x01 => some (.build tx.req tx.bufBase tx.cap)
  | 0x02 => some (.buildZf tx.dst tx.size tx.bufBase tx.cap)
  | 0x03 => some (.start tx.ctx tx.program)
  | 0x04 => some (.poll tx.ctx)
  | 0x05 => some (.finish tx.ctx tx.timeout)
  | 0x06 => some (.killCommand tx.ctx)
  | _ => none

/-- Decoding of either carrier. A command occupies one transaction and no bytes, so its size is 0. -/
def decodeWire : Wire → Decoded
  | .bytes bs => decode bs
  | .port tx =>
    match decodeCommand tx with
    | some i => .instr i 0
    | none => .unknown tx.code

/-- A program walked from offset 0 by adding each length (R88); `none` where some instruction does not decode.
`fuel` bounds the number of instructions; the number of bytes is enough. -/
def decodeProgram : Nat → List Byte → Option (List Instr)
  | _, [] => some []
  | 0, _ :: _ => none
  | fuel + 1, b :: bs =>
    match decode (b :: bs) with
    | .instr i n => (decodeProgram fuel ((b :: bs).drop n)).map (fun is => i :: is)
    | _ => none

/-- `size(i)` (R80); 0 for a command, which is no byte sequence. -/
def Instr.size : Instr → Nat
  | .movSar _ => 6
  | .movCcr _ => 6
  | .movDar _ => 6
  | .goSecure _ _ => 6
  | .goNs _ _ => 6
  | .lpLc0 _ => 2
  | .lpLc1 _ => 2
  | .lpendLc0 _ => 2
  | .lpendLc1 _ => 2
  | .wfpSingle _ => 2
  | .wfpBurst _ => 2
  | .wfpPeriph _ => 2
  | .flushp _ => 2
  | .stps _ => 2
  | .stpb _ => 2
  | .sev _ => 2
  | .ld => 1
  | .lds => 1
  | .ldb => 1
  | .st => 1
  | .sts => 1
  | .stb => 1
  | .stz => 1
  | .endp => 1
  | .nop => 1
  | .kill => 1
  | .rmb => 1
  | .wmb => 1
  | .build _ _ _ => 0
  | .buildZf _ _ _ _ => 0
  | .start _ _ => 0
  | .poll _ => 0
  | .finish _ _ => 0
  | .killCommand _ => 0

/-- The condition of LD and ST (R86, R112, R113). -/
inductive LdStCond where
  | always
  | single
  | burst
deriving DecidableEq, Repr

/-- The condition of WFP (R86, R117). -/
inductive WfpCond where
  | single
  | burst
  | periph
deriving DecidableEq, Repr

/-- The condition of STP (R86, R115), which is also the peripheral condition of a phase (R212). -/
inductive BurstCond where
  | single
  | burst
deriving DecidableEq, Repr

/-- The loop counter operand of LP and LPEND (R86). -/
inductive Counter where
  | lc0
  | lc1
deriving DecidableEq, Repr

/-- `bits(cond)` of LD and ST, the pair (bs, x) of byte0[1:0] (R82, R86, R112). -/
def ldStBits : LdStCond → Byte
  | .always => 0b00
  | .single => 0b01
  | .burst => 0b11

/-- `wbits(cond)` of WFP, the pair (bs, p) of byte0[1:0] (R82, R86, R117). -/
def wfpBits : WfpCond → Byte
  | .single => 0b00
  | .burst => 0b10
  | .periph => 0b01

/-- The bs bit of STP, byte0[1] (R82, R115). -/
def stpBits : BurstCond → Byte
  | .single => 0b00
  | .burst => 0b10

/-- The lc bit of LP, byte0[1] (R82, R140). -/
def lpBits : Counter → Byte
  | .lc0 => 0b000
  | .lc1 => 0b010

/-- The lc bit of LPEND, byte0[2] (R82, R141). -/
def lpendBits : Counter → Byte
  | .lc0 => 0b000
  | .lc1 => 0b100

/-- The ns bit of GO, byte0[1] (R82, R145). -/
def nsBits : Security → Byte
  | .secure => 0b00
  | .nonsecure => 0b10

/-- MOV: `[0xBC, sel(rd), imm LE]` (R111). -/
def encMov (sel : Byte) (imm : Word) : List Byte := 0xBC :: sel :: wordBytes imm

/-- GO: `[0xA0 | ns, chan, addr LE]` (R145). -/
def encGo (sec : Security) (chan : Nat) (addr : Word) : List Byte :=
  (0xA0 ||| nsBits sec) :: BitVec.ofNat 8 chan :: wordBytes addr

/-- LP: `[0x20 | lc, count − 1]` (R84, R140). -/
def encLp (c : Counter) (count : Nat) : List Byte := [0x20 ||| lpBits c, BitVec.ofNat 8 (count - 1)]

/-- LPEND: `[0x38 | lc, bjump]` (R85, R141). -/
def encLpend (c : Counter) (bjump : Nat) : List Byte := [0x38 ||| lpendBits c, BitVec.ofNat 8 bjump]

/-- `enc(i)` (R110): the bytes of a microinstruction, byte 0 first, put together from the fields of R82 and R86 as
the instruction's own rule does (R111 to R117, R140 to R148); none for a command. -/
def enc : Instr → List Byte
  | .movSar imm => encMov 0x00 imm
  | .movCcr imm => encMov 0x01 imm
  | .movDar imm => encMov 0x02 imm
  | .ld => [0x04 ||| ldStBits .always]
  | .lds => [0x04 ||| ldStBits .single]
  | .ldb => [0x04 ||| ldStBits .burst]
  | .st => [0x08 ||| ldStBits .always]
  | .sts => [0x08 ||| ldStBits .single]
  | .stb => [0x08 ||| ldStBits .burst]
  | .stz => [0x0C]
  | .stps p => [0x29 ||| stpBits .single, fieldHi5 p]
  | .stpb p => [0x29 ||| stpBits .burst, fieldHi5 p]
  | .flushp p => [0x35, fieldHi5 p]
  | .wfpSingle p => [0x30 ||| wfpBits .single, fieldHi5 p]
  | .wfpBurst p => [0x30 ||| wfpBits .burst, fieldHi5 p]
  | .wfpPeriph p => [0x30 ||| wfpBits .periph, fieldHi5 p]
  | .lpLc0 n => encLp .lc0 n
  | .lpLc1 n => encLp .lc1 n
  | .lpendLc0 d => encLpend .lc0 d
  | .lpendLc1 d => encLpend .lc1 d
  | .endp => [0x00]
  | .nop => [0x18]
  | .kill => [0x01]
  | .goSecure c a => encGo .secure c a
  | .goNs c a => encGo .nonsecure c a
  | .rmb => [0x12]
  | .wmb => [0x13]
  | .sev e => [0x34, fieldHi5 e]
  | .build _ _ _ => []
  | .buildZf _ _ _ _ => []
  | .start _ _ => []
  | .poll _ => []
  | .finish _ _ => []
  | .killCommand _ => []

/-- A transaction with a code and every operand field zero. -/
def blankTransaction (code : Byte) : Transaction := { (default : Transaction) with code := code }

/-- The encoder: microinstructions as bytes (R87), commands as transactions whose unused operand fields are
zero (R92). -/
def encode : Instr → Wire
  | .build req bufBase cap =>
    .port { blankTransaction 0x01 with req := req, bufBase := bufBase, cap := cap }
  | .buildZf dst size bufBase cap =>
    .port { blankTransaction 0x02 with dst := dst, size := size, bufBase := bufBase, cap := cap }
  | .start ctx program => .port { blankTransaction 0x03 with ctx := ctx, program := program }
  | .poll ctx => .port { blankTransaction 0x04 with ctx := ctx }
  | .finish ctx timeout => .port { blankTransaction 0x05 with ctx := ctx, timeout := timeout }
  | .killCommand ctx => .port { blankTransaction 0x06 with ctx := ctx }
  | i => .bytes (enc i)

/-- The longest microinstruction, in bytes (R80). -/
def longestInstr : Nat := 6

/-- The bytes of an opcode-table word of `nbits` bits: byte 0 is bits [7:0], byte 1 bits [15:8] and so on; every
byte the table gives no bits is 0. -/
def tableBytes (nbits w : Nat) : List Byte :=
  (List.range longestInstr).map (fun k => if 8 * k < nbits then BitVec.ofNat 8 (w / 2 ^ (8 * k)) else 0)

/-- What an opcode-table word stands for. Microinstruction bytes and command codes are two spaces (R87, R92)
that the table lists together: a word that is microinstruction bytes of R87 is that microinstruction; an
8-bit word that is not, and is a command code, is that command with zero operands. DESIGN CHOICE, log 22. -/
def decodeTableWire (nbits w : Nat) : Wire :=
  match decode (tableBytes nbits w) with
  | .instr _ _ => .bytes (tableBytes nbits w)
  | _ => if nbits ≤ 8 then .port (blankTransaction (BitVec.ofNat 8 w)) else .bytes (tableBytes nbits w)

/-- The instruction the decoder reads from an opcode-table word. -/
def decodeTableWord (nbits w : Nat) : Option Instr :=
  match decodeWire (decodeTableWire nbits w) with
  | .instr i _ => some i
  | _ => none

end Sys2Proof
end

