-- ==== Sys2Proof/Machine/State.lean ====
section
/-! DEFINITION. The state of the block as plain data: its own registers (R20, R23, R27), the caller's memory
(R60), the DMAC registers it touches with the rest of the DMAC's register map (R32 to R41), what the model
keeps about the DMAC as environment (R301, R302), the command port and its result (R92, R93), and the record
of the primitive accesses the block has made (R9). Below it: the closed reasons a step can stop, and the state
after reset (R44, R45, R360). -/

namespace Sys2Proof.Machine

/-- The thirteen channel states (R29). -/
inductive ChannelState where
  | stopped
  | executing
  | cachemiss
  | updtpc
  | wfe
  | atbarrier
  | queuebusy
  | wfp
  | killing
  | completing
  | faulting
  | faultCompleting
  | invalid
deriving DecidableEq, Repr, Inhabited

/-- The names of the FTR bits (R298); `reserved` for every other bit that reads 1. -/
inductive FaultName where
  | undefInstr
  | operandInvalid
  | chEvntErr
  | chPeriphErr
  | chRdwrErr
  | mfifoErr
  | stDataUnavailable
  | instrFetchErr
  | dataWriteErr
  | dataReadErr
  | dbgInstr
  | lockupErr
  | reserved (bit : Nat)
deriving DecidableEq, Repr

/-- The names of the FTRD bits (R299). The block never reads FTRD. -/
inductive MgrFaultName where
  | undefInstr
  | operandInvalid
  | dmagoErr
  | mgrEvntErr
  | instrFetchErr
  | dbgInstr
  | reserved (bit : Nat)
deriving DecidableEq, Repr

/-- The causes of a ValidationError (R331). -/
inductive Cause where
  | badBurstSize
  | badSingleSize
  | badBurstLen
  | badPeriph
  | misalignedSrc
  | misalignedDst
  | badSize
  | badBuffer
  | badContext
deriving DecidableEq, Repr

/-- The bounded wait a Timeout names (R330, R337). -/
inductive TimeoutWhere where
  | debug
  | killWait
  | finish
deriving DecidableEq, Repr

/-- The result of a command (R330). The three `ok` forms are the payloads of code 0. -/
inductive Result where
  | okUnit
  | okState (st : ChannelState)
  | okProgram (p : Microprogram)
  | validationError (cause : Cause)
  | bufferOverflow (needed cap cursor : Nat)
  | busyError (st : Option ChannelState)
  | faultError (offset ftr cpc : Word) (faults : List FaultName)
  | timeout (wait : TimeoutWhere) (polls : Nat)
  | refused
deriving DecidableEq, Repr

/-- The DMAC's registers by name (R32); `n` is a channel number. -/
inductive DmacReg where
  | ds
  | dpc
  | inten
  | intEventRis
  | intmis
  | intclr
  | fsrd
  | fsrc
  | ftrd
  | ftr (n : Nat)
  | csr (n : Nat)
  | cpc (n : Nat)
  | sar (n : Nat)
  | dar (n : Nat)
  | ccr (n : Nat)
  | lc0 (n : Nat)
  | lc1 (n : Nat)
  | dbgStatus
  | dbgCmd
  | dbgInst0
  | dbgInst1
  | cr (n : Nat)
  | crd
  | wd
deriving DecidableEq, Repr

/-- One primitive access of the block (R9), in the order the block makes them (R67). -/
inductive BusEvent where
  | memWrite8 (addr : Word) (v : Byte)
  | read32 (addr : Word) (v : Word)
  | write32 (addr : Word) (v : Word)
  | delay
deriving DecidableEq, Repr

/-- The contents of the DMAC's registers (R32): for a register the block reads, the value it presented last;
for one the block writes, the value written last; before that, and for all the others, the launch value. The
block's rules never read a value held here, because each Read32 is a fresh draw (R301): DBGINST0 and DBGINST1
are used when DBGCMD starts what they hold (R66). LC0 and LC1 are 8-bit counters (R41): DEDUCED, log 30. Every channel
bank has eight entries, whatever NUM_CHANNELS is (R6): DESIGN CHOICE, log 38. -/
structure DmacRegs where
  ds : Word
  dpc : Word
  inten : Word
  intEventRis : Word
  intmis : Word
  intclr : Word
  fsrd : Word
  fsrc : Word
  ftrd : Word
  ftr : Vector Word 8
  csr : Vector Word 8
  cpc : Vector Word 8
  sar : Vector Word 8
  dar : Vector Word 8
  ccr : Vector Word 8
  lc0 : Vector Byte 8
  lc1 : Vector Byte 8
  dbgStatus : Word
  dbgCmd : Word
  dbgInst0 : Word
  dbgInst1 : Word
  cr : Vector Word 5
  crd : Word
  wd : Word
deriving DecidableEq, Repr

/-- What is known of one channel. For ENV_PROTOCOL (R302): the state its last CSR read showed (`none`: not read
since launch), and whether a GO, a KILL, for it has been injected, or may have been (logs 31, 34). `ran`: a read since
the last GO showed a state other than STOPPED, so that the DMAC has acted on that GO (R368). `lifted`: another agent
wrote a register of the channel while it was active, so that ENV_PROTOCOL no longer binds it (U3). DEDUCED, logs 16,
32. -/
structure ChannelEnv where
  last : Option ChannelState
  goSeen : Bool
  killSeen : Bool
  ran : Bool
  lifted : Bool
deriving DecidableEq, Repr, Inhabited

/-- What is known of the debug interface. For ENV_PROTOCOL (R302): how many more DBGSTATUS reads may answer busy before
one answers idle, and the number of the next busy run (the model's own; DESIGN CHOICE, log 17). `pending`: an injected
instruction may still be pending (R369), because no read has shown idle since one was started (log 31). -/
structure DebugEnv where
  left : Nat
  run : Nat
  pending : Bool
deriving DecidableEq, Repr, Inhabited

/-- An ExecutionContext (R27, R28). -/
structure ExecutionContext where
  chan : Nat
  isManager : Bool
  security : Security
  regBase : Word
  progBase : Word
  inflight : Bool
deriving DecidableEq, Repr

/-- The status of a build (R23). -/
inductive BuildStatus where
  | building
  | done
  | failed
deriving DecidableEq, Repr

/-- The build state (R23). `needed` is the model's own field: the `required_size` of the request being built
(R221), which a BufferOverflow reports (R334). DESIGN CHOICE, log 27. -/
structure BuildState where
  bufBase : Word
  cap : Nat
  off : Nat
  frame0 : Option Nat
  frame1 : Option Nat
  rem : Nat
  status : BuildStatus
  needed : Nat
deriving DecidableEq, Repr

/-- The data ranges of a transfer (R371): the destination `[dst, dst + size)`, and the source `[src, src + size)`,
which a zero fill does not have. -/
structure DataRanges where
  src : Option Word
  dst : Word
  size : Nat
deriving DecidableEq, Repr

/-- A Microprogram record a build has returned (R22), with the data ranges of the request it was built from (the
model's own, for R365, R367 and R371). -/
structure ProgramEntry where
  record : Microprogram
  data : DataRanges
deriving DecidableEq, Repr

/-- A transfer that a start() has issued, or may have issued: which context and channel, which record, which data ranges
(the model's own, for R69, R365, R367, R369, R371; log 25). `ctx`: `none` once a block reset has taken the context away
(log 18). `isOpen`: the start() returned Ok, and no finish() or kill() has closed the transfer yet (R365). `disturbed`: its
program was mutated or its channel's registers were written while it ran, or it was or may have been killed (U1 to U3).
`overlaps`: its ranges overlap so that its effect is undefined (R371, U14). -/
structure Issue where
  ctx : Option Nat
  chan : Nat
  record : Microprogram
  data : DataRanges
  isOpen : Bool
  disturbed : Bool
  overlaps : Bool
deriving DecidableEq, Repr

/-- What the outside world does between commands. `create` and `command` are the host's (R6, R44, R92, R360);
`hostWrite` is the host writing memory it owns (R69); `agentWrite` is another agent writing a DMAC register
(R366); `dmacReset` is a reset of the DMAC outside the block's knowledge (R362); `blockReset` is a block reset,
taken between commands (R360, R361). DESIGN CHOICE, log 18. -/
inductive HostEvent where
  | create (chan : Nat) (isManager : Bool) (security : Security)
  | command (tx : Transaction)
  | hostWrite (addr : Word) (v : Byte)
  | agentWrite (r : DmacReg) (v : Word)
  | dmacReset
  | blockReset
deriving DecidableEq, Repr

/-- The whole state. -/
structure State where
  /-- The configuration (R7, R20); no step changes it (DESIGN CHOICE, log 2). -/
  cfg : Config.Params
  /-- System memory (R60): the bytes whose value is known; an unlisted byte has no known value (DESIGN CHOICE, log 6). -/
  mem : List Host.Cell
  /-- The DMAC's registers (R32). One set for both frames: PRESUMED, log 5. -/
  dmac : DmacRegs
  /-- What is known of the channels, and what ENV_PROTOCOL looks at (R302). -/
  chans : Vector ChannelEnv 8
  /-- What is known of the debug interface (R302, R369; logs 17, 31). -/
  dbgEnv : DebugEnv
  /-- The values the DMAC will present at the next reads (R301): an input. DESIGN CHOICE, log 3. -/
  draws : List Word
  /-- How many reads found `draws` empty: the argument of the free value `Config.freeDraw` (the model's
  own; log 3). -/
  drawCount : Nat
  /-- How often registers that a transfer reaches into have taken any value (R371, U14): the argument of the free value
  `Config.freeReg` (the model's own; log 40). -/
  regFrees : Nat
  /-- A running program has been mutated or overwritten: every later read is any value, under ENV_PROTOCOL too (U1,
  U14). DEDUCED, log 16. -/
  wild : Bool
  /-- The execution contexts, in the order the host created them (R27). -/
  ctxs : List ExecutionContext
  /-- The Microprogram records the builds have returned, newest first (R22, R44). -/
  programs : List ProgramEntry
  /-- The transfers start() has issued that are open or may still be executing, newest first (the model's own; DESIGN
  CHOICE, log 25). -/
  issues : List Issue
  /-- The build state, present only while a build runs (R20, R23). -/
  build : Option BuildState
  /-- A command that has not ended: finish() without a bound, still polling (R295). DESIGN CHOICE, log 14. -/
  active : Option Instr
  /-- Microinstruction bytes handed to the Opcode Emitter, byte 0 first (the model's own port; DESIGN CHOICE, log 8). -/
  emitPort : List Byte
  /-- What the outside world does next, oldest first (DESIGN CHOICE, logs 8, 18). -/
  inbox : List HostEvent
  /-- The result port: the result of the command that ended last (R31, R93; DESIGN CHOICE, log 26). -/
  result : Option Result
  /-- The primitive accesses made so far, oldest first (R9, R67; the model's record, log 26). -/
  bus : List BusEvent
deriving DecidableEq, Repr

/-- Why a step stops the machine. The block itself never halts (R338): both reasons are about bytes at the
emitter's port that are no instruction. -/
inductive Fault where
  /-- Raised by the fetch of a microinstruction whose bytes the decoder answers Unknown for (R88, R89, U8). Safe:
  the model stops where there is no instruction to run (DESIGN CHOICE, log 20). -/
  | unknownEncoding (b0 : Byte) (b1 : Option Byte)
  /-- Raised by the fetch when fewer bytes are at the port than byte 0 asks for (R88). Safe, as above. -/
  | truncated
deriving DecidableEq, Repr

/-- Why the model does not accept an input. -/
inductive Refusal where
  /-- Raised by `exec` for an instruction without a meaning; no arm does. Safe. -/
  | notModelled (mnemonic : String)
  /-- Raised by a microinstruction whose operand is outside the domains of R86: "A model refuses such a call as
  a builder fault rather than masking the operand" (R110, U7). Safe. -/
  | operandOutOfDomain
  /-- Raised by a microinstruction when no build is in progress: there is no cursor to emit at (R23, R110: only
  the builder calls the emitter). Safe (DESIGN CHOICE, log 9). -/
  | noBuildInProgress
  /-- Raised by START for a record no build has returned: "A model types the operand so that nothing else can be
  passed" (R255). Safe. -/
  | foreignProgram
deriving DecidableEq, Repr

/-- The DMAC's registers when the block first runs: the launch premise (R45, R362; DESIGN CHOICE, log 4). -/
def launchRegs : DmacRegs where
  ds := Config.launchReg 0x000
  dpc := Config.launchReg 0x004
  inten := Config.launchReg 0x020
  intEventRis := Config.launchReg 0x024
  intmis := Config.launchReg 0x028
  intclr := Config.launchReg 0x02C
  fsrd := Config.launchReg 0x030
  fsrc := Config.launchReg 0x034
  ftrd := Config.launchReg 0x038
  ftr := Vector.ofFn fun n => Config.launchReg (0x040 + 4 * n.val)
  csr := Vector.ofFn fun n => Config.launchReg (0x100 + 8 * n.val)
  cpc := Vector.ofFn fun n => Config.launchReg (0x104 + 8 * n.val)
  sar := Vector.ofFn fun n => Config.launchReg (0x400 + 0x20 * n.val)
  dar := Vector.ofFn fun n => Config.launchReg (0x404 + 0x20 * n.val)
  ccr := Vector.ofFn fun n => Config.launchReg (0x408 + 0x20 * n.val)
  lc0 := Vector.ofFn fun n => (Config.launchReg (0x40C + 0x20 * n.val)).setWidth 8
  lc1 := Vector.ofFn fun n => (Config.launchReg (0x410 + 0x20 * n.val)).setWidth 8
  dbgStatus := Config.launchReg 0xD00
  dbgCmd := Config.launchReg 0xD04
  dbgInst0 := Config.launchReg 0xD08
  dbgInst1 := Config.launchReg 0xD0C
  cr := Vector.ofFn fun n => Config.launchReg (0xE00 + 4 * n.val)
  crd := Config.launchReg 0xE14
  wd := Config.launchReg 0xE80

/-- A channel at launch, by its number: no read has shown its state, and whether a GO or a KILL injected before is still
open is free (R302, R362; DESIGN CHOICE, log 34). -/
def launchEnv (n : Nat) : ChannelEnv :=
  { last := none, goSeen := Config.launchGo n, killSeen := Config.launchKill n, ran := false, lifted := false }

/-- The debug interface before its first read: any busy run may be ahead, and an instruction injected before may be
pending (R302, R362; logs 17, 31). -/
def launchDebug : DebugEnv := { left := Config.busyRun 0, run := 1, pending := true }

/-- The state after block reset (R44, R45, R360): no build, no record, no context; the DMAC and memory as the
launch premise leaves them. -/
def State.reset : State where
  cfg := Config.platform
  mem := []
  dmac := launchRegs
  chans := Vector.ofFn fun n => launchEnv n.val
  dbgEnv := launchDebug
  draws := []
  drawCount := 0
  regFrees := 0
  wild := false
  ctxs := []
  programs := []
  issues := []
  build := none
  active := none
  emitPort := []
  inbox := []
  result := none
  bus := []

end Sys2Proof.Machine
end

