-- ==== Sys2Proof/Machine/Operands.lean ====
section
/-! DEFINITION. Operand forms: the DMAC register map (R32), the register window a
security instance selects (R27), the channel control value and its fields (R42, R173 to R178), and the packing of
a debug instruction into DBGINST0 and DBGINST1 (R39, R40, R251, R252). -/

namespace Sys2Proof.Machine

/-- The offset of a register (R32). -/
def regOffset : DmacReg → Nat
  | .ds => 0x000
  | .dpc => 0x004
  | .inten => 0x020
  | .intEventRis => 0x024
  | .intmis => 0x028
  | .intclr => 0x02C
  | .fsrd => 0x030
  | .fsrc => 0x034
  | .ftrd => 0x038
  | .ftr n => 0x040 + 4 * n
  | .csr n => 0x100 + 8 * n
  | .cpc n => 0x104 + 8 * n
  | .sar n => 0x400 + 0x20 * n
  | .dar n => 0x404 + 0x20 * n
  | .ccr n => 0x408 + 0x20 * n
  | .lc0 n => 0x40C + 0x20 * n
  | .lc1 n => 0x410 + 0x20 * n
  | .dbgStatus => 0xD00
  | .dbgCmd => 0xD04
  | .dbgInst0 => 0xD08
  | .dbgInst1 => 0xD0C
  | .cr n => 0xE00 + 4 * n
  | .crd => 0xE14
  | .wd => 0xE80

/-- The registers of the DMAC that the model holds (R32), with the eight entries of each channel bank (log 38). -/
def dmacRegs : List DmacReg :=
  [.ds, .dpc, .inten, .intEventRis, .intmis, .intclr, .fsrd, .fsrc, .ftrd, .dbgStatus, .dbgCmd, .dbgInst0, .dbgInst1,
    .crd, .wd]
  ++ (List.range 5).map .cr
  ++ (List.range 8).flatMap fun n => [.ftr n, .csr n, .cpc n, .sar n, .dar n, .ccr n, .lc0 n, .lc1 n]

/-- `reg_base +32 offset` (R32). -/
def regAddr (base : Word) (r : DmacReg) : Word := base + BitVec.ofNat 32 (regOffset r)

/-- The register base of a security instance (R27, D26). -/
def regBaseOf (cfg : Config.Params) : Security → Word
  | .secure => cfg.secRegBase
  | .nonsecure => cfg.nsRegBase

/-- A context as the host creates it (R44): not in flight, program base 0. -/
def newContext (cfg : Config.Params) (chan : Nat) (isManager : Bool) (security : Security) :
    ExecutionContext :=
  { chan := chan
    isManager := isManager
    security := security
    regBase := regBaseOf cfg security
    progBase := 0
    inflight := false }

/-- The status register the oracle reads for a context (R290). -/
def statusReg (ctx : ExecutionContext) : DmacReg := if ctx.isManager then .ds else .csr ctx.chan

/-- `ccr(e, L, SI, DI, SC, DC, P)` (R177), the fields of R42 in place. -/
def ccrValue (e len si di sc dc prot : Nat) : Word :=
  BitVec.ofNat 32 si ||| (BitVec.ofNat 32 e <<< 1) ||| (BitVec.ofNat 32 (len - 1) <<< 4)
    ||| (BitVec.ofNat 32 prot <<< 8) ||| (BitVec.ofNat 32 sc <<< 11)
    ||| (BitVec.ofNat 32 di <<< 14) ||| (BitVec.ofNat 32 e <<< 15) ||| (BitVec.ofNat 32 (len - 1) <<< 18)
    ||| (BitVec.ofNat 32 prot <<< 22) ||| (BitVec.ofNat 32 dc <<< 25) ||| (BitVec.ofNat 32 0 <<< 28)

/-- CCR[0], SI (R42). -/
def ccrSI (v : Word) : BitVec 1 := v.extractLsb' 0 1
/-- CCR[3:1], SB (R42). -/
def ccrSB (v : Word) : BitVec 3 := v.extractLsb' 1 3
/-- CCR[7:4], SL (R42). -/
def ccrSL (v : Word) : BitVec 4 := v.extractLsb' 4 4
/-- CCR[10:8], SP (R42). -/
def ccrSP (v : Word) : BitVec 3 := v.extractLsb' 8 3
/-- CCR[13:11], SC (R42). -/
def ccrSC (v : Word) : BitVec 3 := v.extractLsb' 11 3
/-- CCR[14], DI (R42). -/
def ccrDI (v : Word) : BitVec 1 := v.extractLsb' 14 1
/-- CCR[17:15], DB (R42). -/
def ccrDB (v : Word) : BitVec 3 := v.extractLsb' 15 3
/-- CCR[21:18], DL (R42). -/
def ccrDL (v : Word) : BitVec 4 := v.extractLsb' 18 4
/-- CCR[24:22], DP (R42). -/
def ccrDP (v : Word) : BitVec 3 := v.extractLsb' 22 3
/-- CCR[27:25], DC (R42). -/
def ccrDC (v : Word) : BitVec 3 := v.extractLsb' 25 3
/-- CCR[31:28], ES (R42). -/
def ccrES (v : Word) : BitVec 4 := v.extractLsb' 28 4

/-- SI by kind (R174). -/
def srcIncr : Kind → Nat
  | .mem2mem => 1
  | .mem2periph => 1
  | .periph2mem => 0

/-- DI by kind (R174). -/
def dstIncr : Kind → Nat
  | .mem2mem => 1
  | .mem2periph => 0
  | .periph2mem => 1

/-- SC (R175): write-back on the memory side when caching is asked for, the baseline otherwise. -/
def srcCache (cache : Bool) : Kind → Nat
  | .mem2mem => if cache then Config.ccWbSrc else Config.ccBaseSrc
  | .mem2periph => if cache then Config.ccWbSrc else Config.ccBaseSrc
  | .periph2mem => Config.ccBaseSrc

/-- DC (R175). -/
def dstCache (cache : Bool) : Kind → Nat
  | .mem2mem => if cache then Config.ccWbDst else Config.ccBaseDst
  | .mem2periph => Config.ccBaseDst
  | .periph2mem => if cache then Config.ccWbDst else Config.ccBaseDst

/-- Both protection fields (R176). -/
def protField (nonsecure : Bool) : Nat := Config.ccrPriv ||| (if nonsecure then 0b010 else 0b000)

/-- Byte `k` of a debug instruction; a shorter instruction is padded with zero bytes to six (R144, R263). -/
def insnByte (insn : List Byte) (k : Nat) : Byte := insn.getD k 0

/-- `dbginst0(ctx, to_manager, insn)` (R251, layout R39). -/
def dbgInst0Word (chan : Nat) (toManager : Bool) (insn : List Byte) : Word :=
  ((insnByte insn 0).setWidth 32 <<< 16) ||| ((insnByte insn 1).setWidth 32 <<< 24)
    ||| (if toManager then (0 : Word) else (1 : Word) ||| (BitVec.ofNat 32 chan <<< 8))

/-- `dbginst1(insn)` (R252, layout R40). -/
def dbgInst1Word (insn : List Byte) : Word :=
  (insnByte insn 2).setWidth 32 ||| ((insnByte insn 3).setWidth 32 <<< 8)
    ||| ((insnByte insn 4).setWidth 32 <<< 16) ||| ((insnByte insn 5).setWidth 32 <<< 24)

/-- The GO start() injects (R258, D20): the context's channel and security instance, the program's base. -/
def goBytes (ctx : ExecutionContext) (base : Word) : List Byte := encGo ctx.security ctx.chan base

/-- The KILL kill() injects: `enc(KILL)` padded to six bytes (R144, R263). -/
def killBytes : List Byte := enc .kill ++ [0, 0, 0, 0, 0]

/-- DBGINST0[0]: 0 the manager thread, 1 a channel thread (R39). -/
def dbgThread (v : Word) : BitVec 1 := v.extractLsb' 0 1
/-- DBGINST0[10:8], the channel number (R39). -/
def dbgChan (v : Word) : Nat := (v.extractLsb' 8 3).toNat
/-- DBGINST0[23:16], instruction byte 0 (R39). -/
def dbgByte0 (v : Word) : Byte := v.extractLsb' 16 8
/-- DBGINST0[31:24], instruction byte 1 (R39). -/
def dbgByte1 (v : Word) : Byte := v.extractLsb' 24 8
/-- DBGCMD[1:0] (R38). -/
def dbgCmdField (v : Word) : BitVec 2 := v.extractLsb' 0 2

end Sys2Proof.Machine
end

