-- ==== Sys2Proof/Machine/Flags.lean ====
section
/-! DEFINITION. The block has no condition flags (R46). What it has in their place stands here whole: the status
fields it reads from the DMAC's registers (R33, R34, R37), the state oracle's map (R291, R292), the protocol graph
of channel states (R302), the decoding of fault types (R298, R299), and the numbers of results and causes (R330,
R331). -/

namespace Sys2Proof.Machine

/-- DS[3:0] and CSR[3:0], the status code (R33, R34). -/
def statusCode (v : Word) : BitVec 4 := v.extractLsb' 0 4
/-- DS[8:4] and CSR[8:4], the wakeup number (R33, R34); the block ignores it. -/
def wakeupNumber (v : Word) : BitVec 5 := v.extractLsb' 4 5
/-- DS[9], DNS (R33); the block ignores it. -/
def dsDns (v : Word) : BitVec 1 := v.extractLsb' 9 1
/-- CSR[14], dmawfp_b_ns (R34); the block ignores it. -/
def csrWfpBns (v : Word) : BitVec 1 := v.extractLsb' 14 1
/-- CSR[15], dmawfp_periph (R34); the block ignores it. -/
def csrWfpPeriph (v : Word) : BitVec 1 := v.extractLsb' 15 1
/-- CSR[21], CNS (R34); the block ignores it. -/
def csrCns (v : Word) : BitVec 1 := v.extractLsb' 21 1
/-- DBGSTATUS[0], busy (R37). -/
def dbgBusy (v : Word) : Bool := v.getLsbD 0

/-- `map(code, false)` (R291): the states of a channel thread. -/
def channelMap (code : BitVec 4) : ChannelState :=
  match code.toNat with
  | 0 => .stopped
  | 1 => .executing
  | 2 => .cachemiss
  | 3 => .updtpc
  | 4 => .wfe
  | 5 => .atbarrier
  | 6 => .queuebusy
  | 7 => .wfp
  | 8 => .killing
  | 9 => .completing
  | 14 => .faultCompleting
  | 15 => .faulting
  | _ => .invalid

/-- `map(code, true)` (R292): the six channel-only codes report INVALID on the manager. -/
def managerMap (code : BitVec 4) : ChannelState :=
  match code.toNat with
  | 0 => .stopped
  | 1 => .executing
  | 2 => .cachemiss
  | 3 => .updtpc
  | 4 => .wfe
  | 15 => .faulting
  | _ => .invalid

/-- `map(code, is_manager)` (R290 to R292). -/
def mapState (code : BitVec 4) (isManager : Bool) : ChannelState :=
  if isManager then managerMap code else channelMap code

/-- The code of a channel state (R291); 10, a reserved code, for INVALID. -/
def channelCode : ChannelState → BitVec 4
  | .stopped => 0
  | .executing => 1
  | .cachemiss => 2
  | .updtpc => 3
  | .wfe => 4
  | .atbarrier => 5
  | .queuebusy => 6
  | .wfp => 7
  | .killing => 8
  | .completing => 9
  | .invalid => 10
  | .faultCompleting => 14
  | .faulting => 15

/-- Every channel state (R29). -/
def allStates : List ChannelState :=
  [.stopped, .executing, .cachemiss, .updtpc, .wfe, .atbarrier, .queuebusy, .wfp, .killing, .completing,
   .faulting, .faultCompleting, .invalid]

/-- The active set of R302. -/
def isActive : ChannelState → Bool
  | .executing => true
  | .cachemiss => true
  | .updtpc => true
  | .wfe => true
  | .atbarrier => true
  | .queuebusy => true
  | .wfp => true
  | _ => false

/-- One move of the graph of R302, given whether a GO and a KILL for the channel have been injected. -/
def protocolMove (goSeen killSeen : Bool) (a b : ChannelState) : Bool :=
  (a == .stopped && b == .executing && goSeen)
    || (isActive a && isActive b)
    || (isActive a && b == .completing)
    || (a == .completing && b == .stopped)
    || (isActive a && (b == .faulting || b == .faultCompleting))
    || (a == .faultCompleting && (b == .faulting || b == .killing))
    || ((isActive a || a == .faulting) && b == .killing && killSeen)
    || (a == .killing && b == .stopped)

/-- The states one move, or none, away from a set. -/
def protocolExpand (goSeen killSeen : Bool) (xs : List ChannelState) : List ChannelState :=
  allStates.filter fun c => xs.any fun x => x == c || protocolMove goSeen killSeen x c

/-- `k` rounds of expansion. -/
def protocolReach (goSeen killSeen : Bool) : Nat → List ChannelState → List ChannelState
  | 0, xs => xs
  | k + 1, xs => protocolReach goSeen killSeen k (protocolExpand goSeen killSeen xs)

/-- What the next read may show after `a`: `a` again, or any state along a path (R302: "each read may also repeat
the previous state or skip along any path"). Six rounds close every path of the graph. -/
def protocolAllows (goSeen killSeen : Bool) (a b : ChannelState) : Bool :=
  (protocolReach goSeen killSeen 6 [a]).contains b

/-- The name of an FTR bit (R298). -/
def ftrBitName (bit : Nat) : FaultName :=
  match bit with
  | 0 => .undefInstr
  | 1 => .operandInvalid
  | 5 => .chEvntErr
  | 6 => .chPeriphErr
  | 7 => .chRdwrErr
  | 12 => .mfifoErr
  | 13 => .stDataUnavailable
  | 16 => .instrFetchErr
  | 17 => .dataWriteErr
  | 18 => .dataReadErr
  | 30 => .dbgInstr
  | 31 => .lockupErr
  | _ => .reserved bit

/-- `decode_ftr` (R298): the set of names, listed in ascending bit order. -/
def decodeFtr (v : Word) : List FaultName := ((List.range 32).filter fun k => v.getLsbD k).map ftrBitName

/-- The name of an FTRD bit (R299). -/
def ftrdBitName (bit : Nat) : MgrFaultName :=
  match bit with
  | 0 => .undefInstr
  | 1 => .operandInvalid
  | 4 => .dmagoErr
  | 5 => .mgrEvntErr
  | 16 => .instrFetchErr
  | 30 => .dbgInstr
  | _ => .reserved bit

/-- The names of the bits set in FTRD (R299); no rule of the block uses it. -/
def decodeFtrd (v : Word) : List MgrFaultName := ((List.range 32).filter fun k => v.getLsbD k).map ftrdBitName

/-- The number of a result (R330). -/
def resultCode : Result → Byte
  | .okUnit => 0
  | .okState _ => 0
  | .okProgram _ => 0
  | .validationError _ => 1
  | .bufferOverflow _ _ _ => 2
  | .busyError _ => 3
  | .faultError _ _ _ _ => 4
  | .timeout _ _ => 5
  | .refused => 0xFF

/-- The number of a cause (R331). -/
def causeCode : Cause → Byte
  | .badBurstSize => 1
  | .badSingleSize => 2
  | .badBurstLen => 3
  | .badPeriph => 4
  | .misalignedSrc => 5
  | .misalignedDst => 6
  | .badSize => 7
  | .badBuffer => 8
  | .badContext => 9

end Sys2Proof.Machine
end

