-- ==== Sys2Proof/Machine/Ops.lean ====
section
/-! DEFINITION. The named operations: memory (R9, R60), the DMAC's registers and its draws (R301, R302), the
emitter's primitive and the builder's checked form of it (R110, R210), the state oracle (R290), the debug
injection (R250 to R254), and `raise`, which is all that taking an exception is on this block: "There is no trap
entry"; an error ends the command and is returned as its result (R338, R341, R342). -/

namespace Sys2Proof.Machine

/-! ### System memory -/

/-- The canonical form: addresses strictly rising and inside the 32-bit space (R60). An unlisted address reads as
no known value, which no listed byte equals. -/
def Memory.wf : List Host.Cell → Bool
  | [] => true
  | [c] => c.1 < Config.addrSpace
  | c :: d :: rest => c.1 < d.1 && Memory.wf (d :: rest)

/-- One byte of memory: `none` where no value is known (R45: "buffer bytes: unspecified (caller memory)"). -/
def Memory.read (m : List Host.Cell) (a : Nat) : Option Byte :=
  match m with
  | [] => none
  | c :: rest => if c.1 = a then some c.2 else Memory.read rest a

/-- Store one byte, keeping the canonical form. -/
def Memory.write (a : Nat) (v : Byte) : List Host.Cell → List Host.Cell
  | [] => [(a, v)]
  | c :: rest =>
    if a < c.1 then (a, v) :: c :: rest
    else if a = c.1 then (a, v) :: rest
    else c :: Memory.write a v rest

/-- Is `a` in the range of `len` bytes from `base`, addresses modulo 2^32 (R8)? -/
def inRange (base : Word) (len : Nat) (a : Word) : Bool := (a - base).toNat < len

/-- Every byte a test picks takes any value: none of them stays known (U1, U2, U14). -/
def Memory.forget (q : Word → Bool) (m : List Host.Cell) : List Host.Cell :=
  m.filter fun c => !q (BitVec.ofNat 32 c.1)

/-- One byte of the machine's memory. -/
def byteAt (s : State) (a : Word) : Option Byte := Memory.read s.mem a.toNat

/-- `MemRead(a, n)` (R9): what a buffer holds. The block never calls it. -/
def memRead (s : State) (a : Word) (n : Nat) : List (Option Byte) :=
  (List.range n).map fun k => byteAt s (a + BitVec.ofNat 32 k)

/-! ### Results -/

/-- Deliver a command's result (R93, R330). An error is raised the same way: nothing is saved, no mode changes
and control goes nowhere (R341). -/
def deliver (r : Result) (s : State) : State := { s with result := some r }

/-! ### Contexts and transfers -/

/-- Replace a context. -/
def setContext (c : Nat) (ctx : ExecutionContext) (s : State) : State :=
  { s with ctxs := s.ctxs.set c ctx }

/-- What is known of a channel. -/
def chanEnv (s : State) (n : Nat) : ChannelEnv := s.chans.getD n (launchEnv n)

/-- Has a channel come to rest, as far as its reads tell: the last one showed STOPPED, and not because the DMAC has
still to act on a GO (R368). DEDUCED, log 32. -/
def channelIdle (e : ChannelEnv) : Bool := e.last == some .stopped && (e.ran || !e.goSeen)

/-- May the DMAC still be executing this transfer: it is open, or its channel has not come to rest (R366, R368)?
DEDUCED, logs 12, 32. -/
def mayRun (s : State) (i : Issue) : Bool := i.isOpen || !channelIdle (chanEnv s i.chan)

/-- Is `a` a byte of this transfer's program, between its start() and the finish() or kill() that closes it (R69,
R365)? -/
def mutates (a : Word) (i : Issue) : Bool := i.isOpen && inRange i.record.base i.record.length a

/-- Do two ranges, addresses modulo 2^32, have a byte in common? -/
def rangesMeet (a : Word) (n : Nat) (b : Word) (m : Nat) : Bool :=
  n != 0 && m != 0 && (inRange a n b || inRange b m a)

/-- Does a range reach into a DMAC register frame (R32, R371)? -/
def meetsRegisters (cfg : Config.Params) (a : Word) (n : Nat) : Bool :=
  rangesMeet a n cfg.secRegBase Config.frameBytes || rangesMeet a n cfg.nsRegBase Config.frameBytes

/-- Does `a + n` go beyond 2^32 (R371)? -/
def rangeWraps (a : Word) (n : Nat) : Bool := Config.addrSpace < a.toNat + n

/-- The source range; empty for a zero fill. -/
def DataRanges.srcRange (d : DataRanges) : Word × Nat :=
  match d.src with
  | some a => (a, d.size)
  | none => (0, 0)

/-- The ranges R371 names, for one transfer: program, source, destination. -/
def transferRanges (i : Issue) : List (Word × Nat) :=
  [(i.record.base, i.record.length), i.data.srcRange, (i.data.dst, i.data.size)]

/-- A transfer whose ranges overlap each other or a register frame, or whose source or destination wraps: its effect
is undefined (R371, U14). -/
def overlapHazard (cfg : Config.Params) (i : Issue) : Bool :=
  let src := i.data.srcRange
  rangesMeet i.record.base i.record.length src.1 src.2
    || rangesMeet i.record.base i.record.length i.data.dst i.data.size
    || rangesMeet src.1 src.2 i.data.dst i.data.size
    || (transferRanges i).any (fun r => meetsRegisters cfg r.1 r.2)
    || rangeWraps src.1 src.2 || rangeWraps i.data.dst i.data.size

/-- Does the destination of the first transfer overlap the running program of the second (R371)? -/
def overProgram (s : State) (i j : Issue) : Bool :=
  mayRun s i && mayRun s j && rangesMeet i.data.dst i.data.size j.record.base j.record.length

/-- Does a range of a transfer that may be executing, program, source or destination, reach into a register frame
(R371)? -/
def registersHit (s : State) : Bool :=
  s.issues.any fun i => mayRun s i && (transferRanges i).any fun g => meetsRegisters s.cfg g.1 g.2

/-- Does one reach into this register, in either frame? Then its bytes are any value as long as that lasts (R371, U14).
DEDUCED, log 40. -/
def regMay (s : State) (r : DmacReg) : Bool :=
  s.issues.any fun i => mayRun s i && (transferRanges i).any fun g =>
    rangesMeet g.1 g.2 (regAddr s.cfg.secRegBase r) 4 || rangesMeet g.1 g.2 (regAddr s.cfg.nsRegBase r) 4

/-- Is the effect of this transfer undefined (R371, U14): by its own ranges, or because it writes into a running
program, or its program is written into? -/
def hazardNow (s : State) (i : Issue) : Bool :=
  overlapHazard s.cfg i || s.issues.any fun j => overProgram s i j || overProgram s j i

/-- Does some transfer write into a running program, or reach into a register frame (R371)? -/
def transfersDisturb (s : State) : Bool :=
  registersHit s || s.issues.any fun i => s.issues.any fun j => overProgram s i j

/-- What R371 makes of a transfer: its effect is undefined, or a transfer that reaches into a register frame disturbs it
(U3, U14; DEDUCED, log 13). -/
def markHazards (s : State) (i : Issue) : Issue :=
  { i with
    overlaps := i.overlaps || hazardNow s i
    disturbed := i.disturbed || (registersHit s && mayRun s i) }

/-- The bytes a transfer may change: `len` bytes of its destination, or, where R371 leaves its effect undefined,
every byte of its ranges (U14). DEDUCED, logs 12, 13. -/
def mayWrite (len : Issue → Nat) (i : Issue) (a : Word) : Bool :=
  if i.overlaps then (transferRanges i).any fun r => inRange r.1 r.2 a
  else inRange i.data.dst (len i) a

/-- Every byte of a transfer's destination (R367, U1 to U3). -/
def wholeLength (i : Issue) : Nat := i.data.size

/-- The bytes of its destination a transfer may write: the residual is not transferred (R182, U21), unless it has been
disturbed (U1 to U3). -/
def movedLength (i : Issue) : Nat := if i.disturbed then i.data.size else i.data.size - i.record.residual

/-- Is `a` a byte that a transfer which may be executing may write? Its value is any value as long as that lasts.
DEDUCED, log 12. -/
def dmaMay (s : State) (a : Word) : Bool := s.issues.any fun i => mayRun s i && mayWrite movedLength i a

/-- The bytes that the issued transfers a test picks may change take any value. `len` says how much of a
destination is meant. -/
def forgetTransfers (p : Issue → Bool) (len : Issue → Nat) (s : State) : State :=
  { s with mem := Memory.forget (fun a => s.issues.any fun i => p i && mayWrite len i a) s.mem }

/-- A transfer a test picks is disturbed (U1 to U3). -/
def markDisturbed (p : Issue → Bool) (i : Issue) : Issue := { i with disturbed := i.disturbed || p i }

/-- The transfers a test picks are disturbed: every byte of their destination ranges takes any value, now and as long
as they may be executing (U1 to U3). -/
def disturb (p : Issue → Bool) (s : State) : State :=
  { forgetTransfers p wholeLength s with issues := s.issues.map (markDisturbed p) }

/-! ### Memory accesses of the block -/

/-- A byte takes a value in memory, unless a transfer that may be executing may write it: then it is any value. -/
def settleByte (a : Word) (v : Byte) (s : State) : State :=
  { s with mem := if dmaMay s a then Memory.forget (fun b => b == a) s.mem else Memory.write a.toNat v s.mem }

/-- A byte is stored, by the block or by the host. Into the program of an open transfer it makes every later read any
value, and every byte of that transfer's destination (R69, R365, U1; logs 12, 16). -/
def storeByte (a : Word) (v : Byte) (s : State) : State :=
  settleByte a v { disturb (mutates a) s with wild := s.wild || s.issues.any (mutates a) }

/-- `MemWrite8(a, v)` (R9). -/
def memWrite8 (a : Word) (v : Byte) (s : State) : State :=
  let t := storeByte a v s
  { t with bus := t.bus ++ [.memWrite8 a v] }

/-- Bytes at rising addresses, one `MemWrite8` each (R9, R61). -/
def memWriteBytes (a : Word) : List Byte → State → State
  | [], s => s
  | b :: rest, s => memWriteBytes (a + 1) rest (memWrite8 a b s)

/-- `MemWrite(a, n, v)` (R9): the `n` low bytes of `v`, little-endian (R62). -/
def memWrite (a : Word) (n : Nat) (v : Word) (s : State) : State :=
  memWriteBytes a ((List.range n).map (wordByte v)) s

/-! ### The DMAC's registers -/

/-- The contents of a register as a word: the upper bits of the 8-bit LC0 and LC1 (R41) read as 0 (DEDUCED, log 30). A
number outside a bank reads as 0. -/
def getReg (r : DmacReg) (d : DmacRegs) : Word :=
  match r with
  | .ds => d.ds
  | .dpc => d.dpc
  | .inten => d.inten
  | .intEventRis => d.intEventRis
  | .intmis => d.intmis
  | .intclr => d.intclr
  | .fsrd => d.fsrd
  | .fsrc => d.fsrc
  | .ftrd => d.ftrd
  | .ftr n => d.ftr.getD n 0
  | .csr n => d.csr.getD n 0
  | .cpc n => d.cpc.getD n 0
  | .sar n => d.sar.getD n 0
  | .dar n => d.dar.getD n 0
  | .ccr n => d.ccr.getD n 0
  | .lc0 n => (d.lc0.getD n 0).setWidth 32
  | .lc1 n => (d.lc1.getD n 0).setWidth 32
  | .dbgStatus => d.dbgStatus
  | .dbgCmd => d.dbgCmd
  | .dbgInst0 => d.dbgInst0
  | .dbgInst1 => d.dbgInst1
  | .cr n => d.cr.getD n 0
  | .crd => d.crd
  | .wd => d.wd

/-- The registers after one of them takes a value, LC0 and LC1 its 8 low bits (R41; log 30). A number outside a bank
changes nothing; one of a channel the DMAC does not have takes the value (R6; DESIGN CHOICE, log 38). -/
def putReg (r : DmacReg) (v : Word) (d : DmacRegs) : DmacRegs :=
  match r with
  | .ds => { d with ds := v }
  | .dpc => { d with dpc := v }
  | .inten => { d with inten := v }
  | .intEventRis => { d with intEventRis := v }
  | .intmis => { d with intmis := v }
  | .intclr => { d with intclr := v }
  | .fsrd => { d with fsrd := v }
  | .fsrc => { d with fsrc := v }
  | .ftrd => { d with ftrd := v }
  | .ftr n => { d with ftr := d.ftr.setIfInBounds n v }
  | .csr n => { d with csr := d.csr.setIfInBounds n v }
  | .cpc n => { d with cpc := d.cpc.setIfInBounds n v }
  | .sar n => { d with sar := d.sar.setIfInBounds n v }
  | .dar n => { d with dar := d.dar.setIfInBounds n v }
  | .ccr n => { d with ccr := d.ccr.setIfInBounds n v }
  | .lc0 n => { d with lc0 := d.lc0.setIfInBounds n (v.setWidth 8) }
  | .lc1 n => { d with lc1 := d.lc1.setIfInBounds n (v.setWidth 8) }
  | .dbgStatus => { d with dbgStatus := v }
  | .dbgCmd => { d with dbgCmd := v }
  | .dbgInst0 => { d with dbgInst0 := v }
  | .dbgInst1 => { d with dbgInst1 := v }
  | .cr n => { d with cr := d.cr.setIfInBounds n v }
  | .crd => { d with crd := v }
  | .wd => { d with wd := v }

/-- These registers take any value: the free values of change number `k`. -/
def freeRegs (p : DmacReg → Bool) (k : Nat) (d : DmacRegs) : DmacRegs :=
  dmacRegs.foldl (fun d r => if p r then putReg r (Config.freeReg k (regOffset r)) d else d) d

/-- The registers that a transfer which may be executing reaches into take any value (R371, U14; log 40). -/
def settleRegs (s : State) : State :=
  if registersHit s then { s with dmac := freeRegs (regMay s) s.regFrees s.dmac, regFrees := s.regFrees + 1 } else s

/-- The DMAC's next answer (R301): the next listed draw, else the free value of this read's number. -/
def nextDraw (s : State) : Word :=
  match s.draws with
  | v :: _ => v
  | [] => Config.freeDraw s.drawCount

/-- The answer is used up. -/
def takeDraw (s : State) : State :=
  match s.draws with
  | _ :: rest => { s with draws := rest }
  | [] => { s with drawCount := s.drawCount + 1 }

/-- Does ENV_PROTOCOL hold (R302), no running program mutated or overwritten (U1, U14; log 16)? -/
def protocolOn (s : State) : Bool := s.cfg.envProtocol && !s.wild

/-- Does it hold for the CSR reads of this channel, no other agent having disturbed it (U3; log 16)? -/
def chanProtocol (s : State) (n : Nat) : Bool := protocolOn s && !(chanEnv s n).lifted

/-- May a channel show this state now (R302)? After launch, or after a state the graph does not hold, any state
but INVALID: "Codes 10 to 13 do not occur". -/
def chanMayShow (e : ChannelEnv) (st : ChannelState) : Bool :=
  st != .invalid &&
    match e.last with
    | none => true
    | some .invalid => true
    | some l => protocolAllows e.goSeen e.killSeen l st

/-- The word a channel shows where it may not show the drawn one: its last state again (R302: "each read may also
repeat the previous state"), or, where there is none, the drawn code with bit 3 cleared. -/
def protocolWord (e : ChannelEnv) (v : Word) : Word :=
  match e.last with
  | none => v &&& 0xFFFFFFF7
  | some .invalid => v &&& 0xFFFFFFF7
  | some l => (v &&& 0xFFFFFFF0) ||| (channelCode l).setWidth 32

/-- The value a read of CSR(n) presents under ENV_PROTOCOL. DESIGN CHOICE, log 15. -/
def protocolFilter (e : ChannelEnv) (v : Word) : Word :=
  if chanMayShow e (channelMap (statusCode v)) then v else protocolWord e v

/-- The value a read of DBGSTATUS presents under ENV_PROTOCOL: idle when the busy run is over (R302; DESIGN CHOICE, log
17). -/
def debugFilter (d : DebugEnv) (v : Word) : Word := if d.left = 0 then v &&& 0xFFFFFFFE else v

/-- The value the DMAC presents at the next read of a register (R301, R302). -/
def presented (r : DmacReg) (s : State) : Word :=
  match r with
  | .csr n => if chanProtocol s n then protocolFilter (chanEnv s n) (nextDraw s) else nextDraw s
  | .dbgStatus => if protocolOn s then debugFilter s.dbgEnv (nextDraw s) else nextDraw s
  | _ => nextDraw s

/-- What a CSR read that shows a state makes known of the channel (R302). -/
def ChannelEnv.shown (e : ChannelEnv) (st : ChannelState) : ChannelEnv :=
  { e with last := some st, ran := e.ran || st != .stopped }

/-- What a GO for the channel makes known of it (R302, R368). -/
def ChannelEnv.gone (e : ChannelEnv) : ChannelEnv := { e with goSeen := true, ran := false }

/-- What a KILL for the channel makes known of it (R302). -/
def ChannelEnv.killed (e : ChannelEnv) : ChannelEnv := { e with killSeen := true }

/-- Something becomes known of one channel. -/
def noteChan (n : Nat) (f : ChannelEnv → ChannelEnv) (s : State) : State :=
  { s with chans := s.chans.setIfInBounds n (f (chanEnv s n)) }

/-- A DBGSTATUS read answers busy, which leaves one busy read less and says that an instruction is pending (R37, R369),
or idle, after which any busy run may follow (R302; log 17). -/
def DebugEnv.shown (d : DebugEnv) (busy : Bool) : DebugEnv :=
  if busy then { d with left := d.left - 1, pending := true }
  else { left := Config.busyRun d.run, run := d.run + 1, pending := false }

/-- What is known of the DMAC after a read. -/
def noteRead (r : DmacReg) (v : Word) (s : State) : State :=
  match r with
  | .csr n => noteChan n (fun e => e.shown (channelMap (statusCode v))) s
  | .dbgStatus => { s with dbgEnv := s.dbgEnv.shown (dbgBusy v) }
  | _ => s

/-- `Read32` of a register in the frame at `base` (R9, R63): the value and the state after. -/
def read32 (base : Word) (r : DmacReg) (s : State) : Word × State :=
  let v := presented r s
  let t := noteRead r v (takeDraw s)
  (v, { t with dmac := putReg r v t.dmac, bus := t.bus ++ [.read32 (regAddr base r) v] })

/-- The channel that the instruction in DBGINST0 is a GO for: bits [2:0] of its byte 1, on the manager thread (R39, R86,
R145). Bits [7:3] are not looked at: where another agent sets them it counts as that channel's GO all the same (DESIGN
CHOICE, log 35). -/
def goChannel (i0 : Word) : Option Nat :=
  if dbgThread i0 = 0 ∧ (dbgByte0 i0 = 0xA0 ∨ dbgByte0 i0 = 0xA2) then some ((dbgByte1 i0).extractLsb' 0 3).toNat
  else none

/-- The channel that the instruction in DBGINST0 is a KILL of: the channel thread it runs on (R39, R144). -/
def killChannel (i0 : Word) : Option Nat :=
  if dbgThread i0 ≠ 0 ∧ dbgByte0 i0 = 0x01 then some (dbgChan i0) else none

/-- The instruction that DBGINST0 and DBGINST1 hold runs, or may run: what becomes known of it (R302). It may have started
(R66), or have taken the place of one that was pending (R369, U5; log 31). -/
def noteInjection (s : State) : State :=
  match goChannel s.dmac.dbgInst0 with
  | some n => noteChan n ChannelEnv.gone s
  | none =>
    match killChannel s.dmac.dbgInst0 with
    | some n => noteChan n ChannelEnv.killed s
    | none => s

/-- A register takes a written value, unless a transfer that may be executing reaches into it: then it is any value
(U14, log 40). A write of DBGCMD with command 0 starts the debug instruction, which is pending from then on (R38, R66). The
reserved commands 1, 2 and 3, which only another agent can write, start nothing (DESIGN CHOICE, log 31). -/
def storeReg (r : DmacReg) (v : Word) (s : State) : State :=
  let t := settleRegs { s with dmac := putReg r v s.dmac }
  match r with
  | .dbgCmd =>
    if dbgCmdField v = 0 then noteInjection { t with dbgEnv := { t.dbgEnv with pending := true } } else t
  | _ => t

/-- `Write32` to a register in the frame at `base` (R9, R63). -/
def write32 (base : Word) (r : DmacReg) (v : Word) (s : State) : State :=
  let t := storeReg r v s
  { t with bus := t.bus ++ [.write32 (regAddr base r) v] }

/-- `Delay(1)` (R9, R373): no effect but its place in the order. -/
def delay (s : State) : State := { s with bus := s.bus ++ [.delay] }

/-! ### State oracle -/

/-- `state(ctx)` (R290): one read, mapped, never stored. -/
def readState (ctx : ExecutionContext) (s : State) : ChannelState × State :=
  let r := read32 ctx.regBase (statusReg ctx) s
  (mapState (statusCode r.1) ctx.isManager, r.2)

/-! ### Debug-instruction injection -/

/-- How a bounded wait ends: with what it waited for, or out of polls. -/
inductive Waited where
  | ready (s : State)
  | timedOut (polls : Nat) (s : State)
deriving DecidableEq, Repr

/-- `wait_debug_idle` (R253) with `left + 1` reads still allowed and `n` made. -/
def waitDebugIdle (base : Word) : Nat → Nat → State → Waited
  | left, n, s =>
    let r := read32 base .dbgStatus s
    if dbgBusy r.1 then
      match left with
      | 0 => .timedOut (n + 1) r.2
      | left' + 1 => waitDebugIdle base left' (n + 1) (delay r.2)
    else .ready r.2

/-- `DebugExec(ctx, to_manager, insn)` (R250 to R254). When it runs out of polls the interface is busy with an earlier
instruction, which may run with the bytes just written (R369, U5; log 31). -/
def debugExec (ctx : ExecutionContext) (toManager : Bool) (insn : List Byte) (s : State) : Waited :=
  let s1 := write32 ctx.regBase .dbgInst0 (dbgInst0Word ctx.chan toManager insn) s
  let s2 := write32 ctx.regBase .dbgInst1 (dbgInst1Word insn) s1
  match waitDebugIdle ctx.regBase s.cfg.dbgPollLimitLess1 0 s2 with
  | .ready s3 => .ready (write32 ctx.regBase .dbgCmd 0 s3)
  | .timedOut n s3 => .timedOut n (noteInjection s3)

/-! ### The emitter's primitive -/

/-- `emit(i)` (R110): the encoding at the cursor, the cursor past it, and the number of bytes. It makes no
capacity check. -/
def emit (i : Instr) (s : State) : Nat × State :=
  match s.build with
  | none => (0, s)
  | some b =>
    let t := memWriteBytes (b.bufBase + BitVec.ofNat 32 b.off) (enc i) s
    ((enc i).length, { t with build := some { b with off := b.off + (enc i).length } })

/-- Is a build in progress (R23)? -/
def buildRunning (s : State) : Bool :=
  match s.build with
  | some b => b.status == .building
  | none => false

/-- `cemit(i)` (R210): the check comes before the bytes; BufferOverflow fails the build. After a failure nothing
more is emitted (R220). -/
def cemit (i : Instr) (s : State) : State :=
  match s.build with
  | none => s
  | some b =>
    if b.status = .building then
      if b.cap < b.off + i.size then
        deliver (.bufferOverflow b.needed b.cap b.off) { s with build := some { b with status := .failed } }
      else (emit i s).2
    else s

/-- Put a cursor position in a loop frame, or clear the frame (R25, R26). -/
def setFrame (c : Counter) (f : Option Nat) (b : BuildState) : BuildState :=
  match c with
  | .lc0 => { b with frame0 := f }
  | .lc1 => { b with frame1 := f }

/-- The loop frame of a counter (R25). -/
def getFrame (c : Counter) (b : BuildState) : Option Nat :=
  match c with
  | .lc0 => b.frame0
  | .lc1 => b.frame1

/-- `frame <- off`, after the LP of a running build (R140, R212). -/
def markFrame (c : Counter) (s : State) : State :=
  match s.build with
  | some b => if b.status = .building then { s with build := some (setFrame c (some b.off) b) } else s
  | none => s

/-- `frame <- none`, after the LPEND of a running build (R26, R212). -/
def clearFrame (c : Counter) (s : State) : State :=
  match s.build with
  | some b => if b.status = .building then { s with build := some (setFrame c none b) } else s
  | none => s

/-- A failed build is over (R220): its state is no longer present (R20), and what was still at the emitter's port is
not emitted. -/
def settleBuild (s : State) : State :=
  match s.build with
  | some b => if b.status = .failed then { s with build := none, emitPort := [] } else s
  | none => s

/-- The meaning every microinstruction shares: the builder hands it to the emitter (R110, R210). `post` is what the
builder does after the emit. DESIGN CHOICE, log 19. -/
def emitMeaning (i : Instr) (post : State → State) (s : State) : Host.Outcome State Fault Refusal :=
  if i.wf then
    if buildRunning s then .next (settleBuild (post (cemit i s))) else .refused .noBuildInProgress
  else .refused .operandOutOfDomain

end Sys2Proof.Machine
end

