-- ==== Sys2Proof/Machine/Planner.lean ====
section
/-! DEFINITION. The Transfer Planner (R170 to R185): validation in its fixed order, the two channel control
values, and the split of the burst phase and the tail phase into loop plans. It touches no state. -/

namespace Sys2Proof.Machine

/-- One loop plan `(c0, c1)` (R170, R183): an inner count and an optional outer count. -/
structure LoopPlan where
  inner : Nat
  outer : Option Nat
deriving DecidableEq, Repr

/-- What the planner hands to the builder (R170). `copies` holds the request's kind and peripheral, which a zero fill
does not have (R185). `burstUnit` and `singleUnit` are B and S1 of R173, which the builder's remaining count goes down
by (R23). -/
structure Plan where
  ccrBurst : Word
  ccrTail : Word
  burstPlans : List LoopPlan
  tailPlans : List LoopPlan
  residual : Nat
  copies : Option (Kind × Nat)
  burstUnit : Nat
  singleUnit : Nat
deriving DecidableEq, Repr

/-- How often a plan runs its body: `c0 × (c1 or 1)` (R184, C10). -/
def LoopPlan.runs (p : LoopPlan) : Nat := p.inner * p.outer.getD 1

/-- `split(n)` (R179): the plan and the number of units it moves. -/
def split (n : Nat) : LoopPlan × Nat :=
  if n ≤ 256 then (⟨n, none⟩, n)
  else if n < 65536 then (⟨256, some (n / 256)⟩, 256 * (n / 256))
  else (⟨256, some 256⟩, 65536)

/-- The loop of R180 with at most `fuel` passes. -/
def phaseLoop : Nat → Nat → Nat → List LoopPlan × Nat
  | 0, rem, _ => ([], rem)
  | fuel + 1, rem, unit =>
    if rem < unit then ([], rem)
    else
      let sp := split (rem / unit)
      let r := phaseLoop fuel (rem - sp.2 * unit) unit
      (sp.1 :: r.1, r.2)

/-- `phase(rem, unit)` (R180): the plans and what remains. Each pass moves at least one unit, so `rem / unit`
passes are enough. -/
def phase (rem unit : Nat) : List LoopPlan × Nat := phaseLoop (rem / unit) rem unit

/-- The burst unit B (R173). -/
def burstBytes (bsz blen : Nat) : Nat := 2 ^ bsz * blen

/-- The single unit S1 (R173). -/
def singleBytes (ssz : Nat) : Nat := 2 ^ ssz

/-- The buffer must not wrap (R61, R171 check 8). -/
def bufferFits (bufBase : Word) (cap : Nat) : Bool := bufBase.toNat + cap ≤ Config.addrSpace

/-- The checks of R171 in order; the first that fails gives the cause. -/
def validate (cfg : Config.Params) (req : TransferRequest) (bufBase : Word) (cap : Nat) : Option Cause :=
  if cfg.maxExp < req.bsz then some .badBurstSize
  else if cfg.maxExp < req.ssz then some .badSingleSize
  else if req.bsz < req.ssz then some .badSingleSize
  else if req.blen < 1 ∨ Config.burstLenMax < req.blen then some .badBurstLen
  else if req.kind ≠ .mem2mem ∧ Config.periphMax < req.periph then some .badPeriph
  else if req.src.toNat % 2 ^ req.bsz ≠ 0 then some .misalignedSrc
  else if req.dst.toNat % 2 ^ req.bsz ≠ 0 then some .misalignedDst
  else if Config.sizeMax < req.size then some .badSize
  else if !bufferFits bufBase cap then some .badBuffer
  else none

/-- The two phases and the two CCR values of a geometry (R177 to R182). -/
def planGeometry (bsz blen ssz size si di sc dc prot : Nat) : Plan :=
  let unitB := burstBytes bsz blen
  let unitS := singleBytes ssz
  let burst := phase size unitB
  let tail := phase burst.2 unitS
  { ccrBurst := ccrValue bsz blen si di sc dc prot
    ccrTail := ccrValue ssz 1 si di sc dc prot
    burstPlans := burst.1
    tailPlans := tail.1
    residual := tail.2
    copies := none
    burstUnit := unitB
    singleUnit := unitS }

/-- The plan of a valid request (R170, R174 to R182). -/
def planRequest (req : TransferRequest) : Plan :=
  { planGeometry req.bsz req.blen req.ssz req.size (srcIncr req.kind) (dstIncr req.kind)
      (srcCache req.cache req.kind) (dstCache req.cache req.kind) (protField (req.security == .nonsecure)) with
    copies := some (req.kind, req.periph) }

/-- `plan(req, buf_base, cap)` (R170). -/
def plan (cfg : Config.Params) (req : TransferRequest) (bufBase : Word) (cap : Nat) : Except Cause Plan :=
  match validate cfg req bufBase cap with
  | some cause => .error cause
  | none => .ok (planRequest req)

/-- The checks of the zero fill (R185), in order. -/
def validateZf (cfg : Config.Params) (dst : Word) (size : Nat) (bufBase : Word) (cap : Nat) : Option Cause :=
  if dst.toNat % 2 ^ cfg.zfBurstExp ≠ 0 then some .misalignedDst
  else if Config.sizeMax < size then some .badSize
  else if !bufferFits bufBase cap then some .badBuffer
  else none

/-- The plan of a zero fill (R185): destination-only increment, baseline cache fields. -/
def planZfGeometry (cfg : Config.Params) (size : Nat) : Plan :=
  planGeometry cfg.zfBurstExp Config.zfBurstLen Config.zfSingleExp size 0 1 Config.ccBaseSrc Config.ccBaseDst
    (protField Config.zfNonsecure)

/-- `plan_zf(dst, size, buf_base, cap)` (R185). -/
def planZf (cfg : Config.Params) (dst : Word) (size : Nat) (bufBase : Word) (cap : Nat) : Except Cause Plan :=
  match validateZf cfg dst size bufBase cap with
  | some cause => .error cause
  | none => .ok (planZfGeometry cfg size)

end Sys2Proof.Machine
end

