-- ==== Sys2Proof/Machine/Builder.lean ====
section
/-! DEFINITION. The Program Builder and the commands BUILD and BUILD_ZF (R210 to R225). A build is a list of
builder operations, one per line of the pseudocode of R211, R212 and R223, run in order over the shared `cemit`. -/

namespace Sys2Proof.Machine

/-- One line of the builder's pseudocode (R211, R212): a checked emit, `frame <- off`, the LPEND of a counter with
its computed backward jump and `frame <- none`, and the remaining count going down (R23). -/
inductive BuildOp where
  | put (i : Instr)
  | mark (c : Counter)
  | close (c : Counter)
  | moved (bytes : Nat)
deriving DecidableEq, Repr

/-- What a loop body moves (R213, R214, R224). -/
inductive BodyKind where
  | copy
  | periph (p : Nat)
  | zeroFill
deriving DecidableEq, Repr

/-- The WFP of a phase (R214). -/
def wfpFor (g : BurstCond) (p : Nat) : Instr :=
  match g with
  | .burst => .wfpBurst p
  | .single => .wfpSingle p

/-- The STP of a phase (R214). -/
def stpFor (g : BurstCond) (p : Nat) : Instr :=
  match g with
  | .burst => .stpb p
  | .single => .stps p

/-- The loop body (R213, R214, R224). -/
def bodyInstrs (k : BodyKind) (g : BurstCond) : List Instr :=
  match k with
  | .copy => [.ld, .rmb, .st, .wmb]
  | .periph p => [wfpFor g p, .ld, .rmb, stpFor g p, .wmb]
  | .zeroFill => [.rmb, .stz, .wmb]

/-- `size(body)`: 4, 7 or 3 (R213, R214, R224). -/
def bodySize : BodyKind → Nat
  | .copy => 4
  | .periph _ => 7
  | .zeroFill => 3

/-- The LP of a counter. -/
def lpInstr (c : Counter) (count : Nat) : Instr :=
  match c with
  | .lc0 => .lpLc0 count
  | .lc1 => .lpLc1 count

/-- The LPEND of a counter. -/
def lpendInstr (c : Counter) (bjump : Nat) : Instr :=
  match c with
  | .lc0 => .lpendLc0 bjump
  | .lc1 => .lpendLc1 bjump

/-- `loop(c0, c1, g, req)` (R212) line by line; `unit` is the phase's unit. -/
def loopOps (k : BodyKind) (g : BurstCond) (unit : Nat) (p : LoopPlan) : List BuildOp :=
  (match p.outer with
    | some m => [.put (lpInstr .lc1 m), .mark .lc1]
    | none => [])
  ++ [.put (lpInstr .lc0 p.inner), .mark .lc0]
  ++ (bodyInstrs k g).map .put
  ++ [.close .lc0]
  ++ (match p.outer with
    | some _ => [.close .lc1]
    | none => [])
  ++ [.moved (p.runs * unit)]

/-- The layout of a program after its header (R211, R223): MOV CCR and the burst loops, MOV CCR and the tail
loops, END. -/
def phaseOps (k : BodyKind) (P : Plan) : List BuildOp :=
  [.put (.movCcr P.ccrBurst)] ++ P.burstPlans.flatMap (loopOps k .burst P.burstUnit)
  ++ [.put (.movCcr P.ccrTail)] ++ P.tailPlans.flatMap (loopOps k .single P.singleUnit)
  ++ [.put .endp]

/-- The body of a request (R213, R214). -/
def requestBody (req : TransferRequest) : BodyKind :=
  match req.kind with
  | .mem2mem => .copy
  | .mem2periph => .periph req.periph
  | .periph2mem => .periph req.periph

/-- The header of a request (R211): MOV SAR, MOV DAR, and FLUSHP for a peripheral transfer. -/
def requestHeader (req : TransferRequest) : List BuildOp :=
  [.put (.movSar req.src), .put (.movDar req.dst)]
  ++ (if req.kind = .mem2mem then [] else [.put (.flushp req.periph)])

/-- The layout of BUILD (R211). -/
def buildOps (req : TransferRequest) (P : Plan) : List BuildOp :=
  requestHeader req ++ phaseOps (requestBody req) P

/-- The layout of BUILD_ZF (R223): MOV DAR only, the zero-fill body. -/
def buildZfOps (dst : Word) (P : Plan) : List BuildOp :=
  [.put (.movDar dst)] ++ phaseOps .zeroFill P

/-- `L(p)` of R221. -/
def loopLength (k : BodyKind) (p : LoopPlan) : Nat :=
  (match p.outer with
    | some _ => 8
    | none => 4) + bodySize k

/-- The formula of R221 for a header of `h` bytes, the first MOV CCR counted in it. -/
def requiredLength (h : Nat) (k : BodyKind) (P : Plan) : Nat :=
  h + ((P.burstPlans ++ P.tailPlans).map (loopLength k)).sum + 6 + 1

/-- `H` of R221: 18 for MEM2MEM, 20 for peripheral kinds. -/
def headerLength (req : TransferRequest) : Nat := if req.kind = .mem2mem then 18 else 20

/-- `required_size(req)` (R221). -/
def requiredSize (req : TransferRequest) : Nat :=
  requiredLength (headerLength req) (requestBody req) (planRequest req)

/-- `required_size` of a zero fill (R221: `H` is 12). -/
def requiredSizeZf (cfg : Config.Params) (size : Nat) : Nat :=
  requiredLength 12 .zeroFill (planZfGeometry cfg size)

/-- The LPEND of a counter: `cemit(LPEND, off − frame); frame <- none` (R212, R215, R216). None is emitted for a
frame that is `none` (R26). -/
def closeLoop (c : Counter) (s : State) : State :=
  match s.build with
  | none => s
  | some b =>
    match getFrame c b with
    | none => s
    | some f => clearFrame c (cemit (lpendInstr c (b.off - f)) s)

/-- The remaining count of the running build goes down (R23, R180; DESIGN CHOICE, log 27). -/
def countMoved (bytes : Nat) (s : State) : State :=
  match s.build with
  | some b => if b.status = .building then { s with build := some { b with rem := b.rem - bytes } } else s
  | none => s

/-- One builder operation. -/
def runOp (op : BuildOp) (s : State) : State :=
  match op with
  | .put i => cemit i s
  | .mark c => markFrame c s
  | .close c => closeLoop c s
  | .moved n => countMoved n s

/-- The builder operations in order; after a BufferOverflow none has an effect (R220). -/
def runOps : List BuildOp → State → State
  | [], s => s
  | op :: rest, s => runOps rest (runOp op s)

/-- The build registers at the start of a build (R23). -/
def openBuild (bufBase : Word) (cap size needed : Nat) (s : State) : State :=
  let b : BuildState :=
    { bufBase := bufBase, cap := cap, off := 0, frame0 := none, frame1 := none, rem := size,
      status := .building, needed := needed }
  { s with build := some b }

/-- `status <- DONE` and the record (R211, R219). -/
def finishBuild (b : BuildState) (residual : Nat) (data : DataRanges) (s : State) : State :=
  let record : Microprogram := ⟨b.bufBase, b.cap, b.off, residual⟩
  deliver (.okProgram record)
    { s with build := some { b with status := .done }, programs := ⟨record, data⟩ :: s.programs }

/-- The end of a build command: a build that reached END returns its record, a failed one has already returned its
BufferOverflow (R219, R220); the build state is then gone (R20, R23). -/
def endBuild (residual : Nat) (data : DataRanges) (s : State) : State :=
  match s.build with
  | none => s
  | some b =>
    if b.status = .building then { finishBuild b residual data s with build := none }
    else { s with build := none }

/-- A planned build from its first byte to its result. -/
def runBuild (ops : List BuildOp) (residual : Nat) (data : DataRanges) (needed : Nat) (bufBase : Word) (cap : Nat)
    (s : State) : State :=
  endBuild residual data (runOps ops (openBuild bufBase cap data.size needed s))

/-- The data ranges of a request (R371). -/
def requestRanges (req : TransferRequest) : DataRanges := ⟨some req.src, req.dst, req.size⟩

/-- BUILD (R211): plan, then lay out. A ValidationError writes nothing (R172, R333). -/
def execBuild (req : TransferRequest) (bufBase : Word) (cap : Nat) (s : State) :
    Host.Outcome State Fault Refusal :=
  match plan s.cfg req bufBase cap with
  | .error cause => .next (deliver (.validationError cause) s)
  | .ok P =>
    .next (runBuild (buildOps req P) P.residual (requestRanges req) (requiredSize req) bufBase cap s)

/-- BUILD_ZF (R223). -/
def execBuildZf (dst : Word) (size : Nat) (bufBase : Word) (cap : Nat) (s : State) :
    Host.Outcome State Fault Refusal :=
  match planZf s.cfg dst size bufBase cap with
  | .error cause => .next (deliver (.validationError cause) s)
  | .ok P =>
    .next (runBuild (buildZfOps dst P) P.residual ⟨none, dst, size⟩ (requiredSizeZf s.cfg size) bufBase cap s)

end Sys2Proof.Machine
end

