-- ==== Sys2Proof/Machine/Controller.lean ====
section
/-! DEFINITION. The Execution Controller: the commands START, KILL and POLL (R255 to R268). -/

namespace Sys2Proof.Machine

/-- A channel context whose channel the DMAC does not have (R255, R261, R268). -/
def badChannel (cfg : Config.Params) (ctx : ExecutionContext) : Bool :=
  !ctx.isManager && cfg.numChannels ≤ ctx.chan

/-- A context START and FINISH cannot use (R255, R294): a manager context, or a channel out of range. -/
def notChannelContext (cfg : Config.Params) (ctx : ExecutionContext) : Bool :=
  ctx.isManager || cfg.numChannels ≤ ctx.chan

/-- Has a build returned this record (R22, R255)? -/
def programKnown (s : State) (p : Microprogram) : Bool := s.programs.any fun e => e.record == p

/-- The transfers a GO with this record starts: the record with the data ranges of each request it was returned
for (R305), also where its buffer has been overwritten since (DESIGN CHOICE, log 36), and where the request's security is
not the context's (U18; DESIGN CHOICE, log 37). They are open when start() returns Ok (R365). -/
def newIssues (s : State) (isOpen : Bool) (c chan : Nat) (p : Microprogram) : List Issue :=
  (s.programs.filter fun e => e.record == p).map fun e =>
    { ctx := some c, chan := chan, record := p, data := e.data, isOpen := isOpen, disturbed := false, overlaps := false }

/-- The transfers still remembered when a channel that has read STOPPED gets its GO: of its own earlier ones, those that
are still open or may still be executing. -/
def openIssues (s : State) (chan : Nat) : List Issue := s.issues.filter fun i => i.chan != chan || mayRun s i

/-- These are the transfers from here on. What R371 says of their ranges is marked, and the registers they reach into take
any value (U14; log 40); the DMAC may write, so every byte a transfer may write takes any value (R368, U16, U19; which bytes
those are: logs 12, 13, 36, 37). -/
def transfersBegin (is : List Issue) (s : State) : State :=
  let t := { s with issues := is }
  let u := { t with issues := is.map (markHazards t), wild := t.wild || transfersDisturb t }
  settleRegs { u with mem := Memory.forget (dmaMay u) u.mem }

/-- After the GO: `ctx.prog_base <- program.base; ctx.inflight <- true` (R259), with the transfers `kept` from before
it. -/
def goIssued (c : Nat) (ctx : ExecutionContext) (p : Microprogram) (kept : List Issue) (s : State) : State :=
  transfersBegin (newIssues s true c ctx.chan p ++ kept)
    (setContext c { ctx with progBase := p.base, inflight := true } s)

/-- After a GO that was written but not started: the instruction then pending may run as that GO, and the program with it
(R369, U5; log 31). The context does not change (R260). -/
def goOverwrote (c : Nat) (ctx : ExecutionContext) (p : Microprogram) (kept : List Issue) (s : State) : State :=
  transfersBegin (newIssues s false c ctx.chan p ++ kept) s

/-- START with a usable context (R256 to R260). -/
def startChannel (c : Nat) (ctx : ExecutionContext) (p : Microprogram) (s : State) : State :=
  if ctx.inflight then deliver (.busyError none) s
  else
    let r := readState ctx s
    if r.1 = .stopped then
      match debugExec ctx true (goBytes ctx p.base) r.2 with
      | .ready s1 => deliver .okUnit (goIssued c ctx p (openIssues r.2 ctx.chan) s1)
      | .timedOut n s1 => deliver (.timeout .debug n) (goOverwrote c ctx p (openIssues r.2 ctx.chan) s1)
    else deliver (.busyError (some r.1)) r.2

/-- START (R255). A handle without a context: DESIGN CHOICE, log 10. A record no build returned: log 21. -/
def execStart (c : Nat) (p : Microprogram) (s : State) : Host.Outcome State Fault Refusal :=
  match s.ctxs[c]? with
  | none => .next (deliver (.validationError .badContext) s)
  | some ctx =>
    if notChannelContext s.cfg ctx then .next (deliver (.validationError .badContext) s)
    else if programKnown s p then .next (startChannel c ctx p s)
    else .refused .foreignProgram

/-- POLL (R268): one read, no other change. -/
def execPoll (c : Nat) (s : State) : Host.Outcome State Fault Refusal :=
  match s.ctxs[c]? with
  | none => .next (deliver (.validationError .badContext) s)
  | some ctx =>
    if badChannel s.cfg ctx then .next (deliver (.validationError .badContext) s)
    else .next (deliver (.okState (readState ctx s).1) (readState ctx s).2)

/-- How the wait for FAULT_COMPLETING ends (R261). -/
inductive KillWait where
  | settled (st : ChannelState) (s : State)
  | timedOut (polls : Nat) (s : State)
deriving DecidableEq, Repr

/-- The loop of R261 with `left` further passes allowed after this one and counter `w`. -/
def killWaitLoop (ctx : ExecutionContext) : Nat → Nat → State → KillWait
  | left, w, s =>
    let r := readState ctx s
    if r.1 = .faulting ∨ r.1 = .killing then .settled r.1 r.2
    else
      match left with
      | 0 => .timedOut w r.2
      | left' + 1 => killWaitLoop ctx left' (w + 1) (delay r.2)

/-- The first read of kill(), and the wait (R261). -/
def killWait (ctx : ExecutionContext) (s : State) : KillWait :=
  let r := readState ctx s
  if r.1 = .faultCompleting then killWaitLoop ctx s.cfg.killWaitLimitLess1 1 r.2 else .settled r.1 r.2

/-- The states in which kill() does nothing to the DMAC (R262). -/
def killIsNoOp (st : ChannelState) : Bool := st == .completing || st == .killing || st == .stopped

/-- Does a finish() or kill() with this context close the transfer (R365): it is the context's own, or a block reset has
taken its context away and it is on the same channel (log 18)? -/
def closes (c : Nat) (ctx : ExecutionContext) (i : Issue) : Bool :=
  !ctx.isManager && i.chan == ctx.chan && (i.ctx == some c || i.ctx == none)

/-- `ctx.inflight <- false` (R262, R263, R296, R297): the transfer is closed. -/
def clearInflight (c : Nat) (ctx : ExecutionContext) (s : State) : State :=
  { setContext c { ctx with inflight := false } s with
    issues := s.issues.map fun i => { i with isOpen := i.isOpen && !closes c ctx i } }

/-- The transfers a kill of this context's thread meets: those of its channel; the manager thread has none. -/
def killedIssue (ctx : ExecutionContext) (i : Issue) : Bool := !ctx.isManager && i.chan == ctx.chan

/-- After a kill of a channel that was not STOPPED, or a KILL that may run (U5), every byte of its transfers' destination
ranges is any value (R367, U2). -/
def forgetKilled (ctx : ExecutionContext) (s : State) : State := disturb (killedIssue ctx) s

/-- kill() after its wait (R262 to R264). Where it runs out of polls the instruction then pending may run as the KILL that
was written (R369, U5; log 31). -/
def killSettled (c : Nat) (ctx : ExecutionContext) (st : ChannelState) (s : State) : State :=
  if killIsNoOp st then
    deliver .okUnit (clearInflight c ctx (if st = .stopped then s else forgetKilled ctx s))
  else
    match debugExec ctx ctx.isManager killBytes s with
    | .ready s1 => deliver .okUnit (clearInflight c ctx (forgetKilled ctx s1))
    | .timedOut n s1 => deliver (.timeout .debug n) (forgetKilled ctx s1)

/-- KILL with a usable context (R261 to R264). -/
def killThread (c : Nat) (ctx : ExecutionContext) (s : State) : State :=
  match killWait ctx s with
  | .settled st s1 => killSettled c ctx st s1
  | .timedOut w s1 => deliver (.timeout .killWait w) s1

/-- The command KILL (R261). -/
def execKillCommand (c : Nat) (s : State) : Host.Outcome State Fault Refusal :=
  match s.ctxs[c]? with
  | none => .next (deliver (.validationError .badContext) s)
  | some ctx =>
    if badChannel s.cfg ctx then .next (deliver (.validationError .badContext) s)
    else .next (killThread c ctx s)

end Sys2Proof.Machine
end

