-- ==== Sys2Proof/Machine/EmitControl.lean ====
section
/-! DEFINITION. The loop, control, barrier and event microinstructions (41_emit_control.md, R140 to R148). The
block's effect of each is its checked emit; LP also sets its counter's loop frame and LPEND consumes it (R26,
R140, R212). GO and KILL reach the DMAC through the debug interface instead (Controller.lean); emitted into a
buffer they are their bytes (R144, R145). -/

namespace Sys2Proof.Machine

/-- LP LC0, count (R140). -/
def execLpLc0 (count : Nat) (s : State) : Host.Outcome State Fault Refusal :=
  emitMeaning (.lpLc0 count) (markFrame .lc0) s

/-- LP LC1, count (R140). -/
def execLpLc1 (count : Nat) (s : State) : Host.Outcome State Fault Refusal :=
  emitMeaning (.lpLc1 count) (markFrame .lc1) s

/-- LPEND LC0, bjump (R141). -/
def execLpendLc0 (bjump : Nat) (s : State) : Host.Outcome State Fault Refusal :=
  emitMeaning (.lpendLc0 bjump) (clearFrame .lc0) s

/-- LPEND LC1, bjump (R141). -/
def execLpendLc1 (bjump : Nat) (s : State) : Host.Outcome State Fault Refusal :=
  emitMeaning (.lpendLc1 bjump) (clearFrame .lc1) s

/-- END (R142). -/
def execEndp (s : State) : Host.Outcome State Fault Refusal := emitMeaning .endp id s

/-- NOP (R143). -/
def execNop (s : State) : Host.Outcome State Fault Refusal := emitMeaning .nop id s

/-- KILL, emitted into a buffer (R144). -/
def execKill (s : State) : Host.Outcome State Fault Refusal := emitMeaning .kill id s

/-- GO chan, addr, secure, emitted into a buffer (R145). -/
def execGoSecure (chan : Nat) (addr : Word) (s : State) : Host.Outcome State Fault Refusal :=
  emitMeaning (.goSecure chan addr) id s

/-- GO chan, addr, ns, emitted into a buffer (R145). -/
def execGoNs (chan : Nat) (addr : Word) (s : State) : Host.Outcome State Fault Refusal :=
  emitMeaning (.goNs chan addr) id s

/-- RMB (R146). -/
def execRmb (s : State) : Host.Outcome State Fault Refusal := emitMeaning .rmb id s

/-- WMB (R147). -/
def execWmb (s : State) : Host.Outcome State Fault Refusal := emitMeaning .wmb id s

/-- SEV event (R148). -/
def execSev (event : Nat) (s : State) : Host.Outcome State Fault Refusal := emitMeaning (.sev event) id s

end Sys2Proof.Machine
end

