-- ==== Sys2Proof/Machine/EmitTransfer.lean ====
section
/-! DEFINITION. The data-transfer and peripheral microinstructions (40_emit_transfer.md, R111 to R117). The block's
effect of each is its checked emit; what the DMAC does when it runs the bytes is outside the block (R5). -/

namespace Sys2Proof.Machine

/-- MOV SAR, imm (R111). -/
def execMovSar (imm : Word) (s : State) : Host.Outcome State Fault Refusal := emitMeaning (.movSar imm) id s

/-- MOV CCR, imm (R111). -/
def execMovCcr (imm : Word) (s : State) : Host.Outcome State Fault Refusal := emitMeaning (.movCcr imm) id s

/-- MOV DAR, imm (R111). -/
def execMovDar (imm : Word) (s : State) : Host.Outcome State Fault Refusal := emitMeaning (.movDar imm) id s

/-- LD, condition ALWAYS (R112). -/
def execLd (s : State) : Host.Outcome State Fault Refusal := emitMeaning .ld id s

/-- LDS, condition SINGLE (R112). -/
def execLds (s : State) : Host.Outcome State Fault Refusal := emitMeaning .lds id s

/-- LDB, condition BURST (R112). -/
def execLdb (s : State) : Host.Outcome State Fault Refusal := emitMeaning .ldb id s

/-- ST, condition ALWAYS (R113). -/
def execSt (s : State) : Host.Outcome State Fault Refusal := emitMeaning .st id s

/-- STS, condition SINGLE (R113). -/
def execSts (s : State) : Host.Outcome State Fault Refusal := emitMeaning .sts id s

/-- STB, condition BURST (R113). -/
def execStb (s : State) : Host.Outcome State Fault Refusal := emitMeaning .stb id s

/-- STZ (R114). -/
def execStz (s : State) : Host.Outcome State Fault Refusal := emitMeaning .stz id s

/-- STPS periph (R115). -/
def execStps (periph : Nat) (s : State) : Host.Outcome State Fault Refusal := emitMeaning (.stps periph) id s

/-- STPB periph (R115). -/
def execStpb (periph : Nat) (s : State) : Host.Outcome State Fault Refusal := emitMeaning (.stpb periph) id s

/-- FLUSHP periph (R116). -/
def execFlushp (periph : Nat) (s : State) : Host.Outcome State Fault Refusal := emitMeaning (.flushp periph) id s

/-- WFP periph, single (R117). -/
def execWfpSingle (periph : Nat) (s : State) : Host.Outcome State Fault Refusal :=
  emitMeaning (.wfpSingle periph) id s

/-- WFP periph, burst (R117). -/
def execWfpBurst (periph : Nat) (s : State) : Host.Outcome State Fault Refusal :=
  emitMeaning (.wfpBurst periph) id s

/-- WFP periph, periph (R117). -/
def execWfpPeriph (periph : Nat) (s : State) : Host.Outcome State Fault Refusal :=
  emitMeaning (.wfpPeriph periph) id s

end Sys2Proof.Machine
end

