-- ==== Sys2Proof/Machine/FaultReporter.lean ====
section
/-! DEFINITION. The Fault Reporter: the command FINISH (R294 to R300). With a bound, all its polls are one
command; without one, a poll that reads neither STOPPED nor FAULTING leaves the command active, and each later
step of the machine makes one more poll (R295, U15). -/

namespace Sys2Proof.Machine

/-- The transfer is closed: `ctx.inflight <- false` (R296, R297). What the DMAC wrote while it was in flight is any
value (R305). -/
def closeTransfer (c : Nat) (ctx : ExecutionContext) (s : State) : State :=
  clearInflight c ctx
    (forgetTransfers (fun i => i.isOpen && closes c ctx i) movedLength s)

/-- `report_fault` (R297): FTR, then CPC, then the error; the channel is left FAULTING. -/
def reportFault (c : Nat) (ctx : ExecutionContext) (s : State) : State :=
  let f := read32 ctx.regBase (.ftr ctx.chan) s
  let p := read32 ctx.regBase (.cpc ctx.chan) f.2
  deliver (.faultError (p.1 - ctx.progBase) f.1 p.1 (decodeFtr f.1)) (closeTransfer c ctx p.2)

/-- One poll of finish() (R295): the command's end, or the state in which the polling goes on. -/
def finishPoll (c : Nat) (ctx : ExecutionContext) (s : State) : Bool × State :=
  let r := readState ctx s
  if r.1 = .stopped then (true, deliver .okUnit (closeTransfer c ctx r.2))
  else if r.1 = .faulting then (true, reportFault c ctx r.2)
  else (false, r.2)

/-- The loop of R295 with `left + 1` polls still allowed and `n` made. -/
def finishLoop (c : Nat) (ctx : ExecutionContext) : Nat → Nat → State → State
  | left, n, s =>
    let r := finishPoll c ctx s
    if r.1 then r.2
    else
      match left with
      | 0 => deliver (.timeout .finish (n + 1)) r.2
      | left' + 1 => finishLoop c ctx left' (n + 1) (delay r.2)

/-- finish() with no bound: one poll; the command stays active until a poll ends it (R295; DESIGN CHOICE, log 14). -/
def finishUnbounded (c : Nat) (ctx : ExecutionContext) (s : State) : State :=
  let r := finishPoll c ctx s
  if r.1 then r.2 else { delay r.2 with active := some (.finish c none), result := none }

/-- FINISH (R294). A bound `t` allows `max(t, 1)` polls (R295). -/
def execFinish (c : Nat) (timeout : Option Nat) (s : State) : Host.Outcome State Fault Refusal :=
  match s.ctxs[c]? with
  | none => .next (deliver (.validationError .badContext) s)
  | some ctx =>
    if notChannelContext s.cfg ctx then .next (deliver (.validationError .badContext) s)
    else
      match timeout with
      | some t => .next (finishLoop c ctx (max t 1 - 1) 0 s)
      | none => .next (finishUnbounded c ctx s)

end Sys2Proof.Machine
end

