-- ==== Sys2Proof/Machine/Dispatch.lean ====
section
/-! DEFINITION. One arm per row of spec/opcode_table.json, each one call of the instruction's own meaning. -/

namespace Sys2Proof.Machine

/-- The meaning of an instruction. -/
def exec (i : Instr) (s : State) : Host.Outcome State Fault Refusal :=
  match i with
  | .movSar imm => Sys2Proof.Machine.execMovSar imm s
  | .movCcr imm => Sys2Proof.Machine.execMovCcr imm s
  | .movDar imm => Sys2Proof.Machine.execMovDar imm s
  | .ld => Sys2Proof.Machine.execLd s
  | .lds => Sys2Proof.Machine.execLds s
  | .ldb => Sys2Proof.Machine.execLdb s
  | .st => Sys2Proof.Machine.execSt s
  | .sts => Sys2Proof.Machine.execSts s
  | .stb => Sys2Proof.Machine.execStb s
  | .stz => Sys2Proof.Machine.execStz s
  | .stps p => Sys2Proof.Machine.execStps p s
  | .stpb p => Sys2Proof.Machine.execStpb p s
  | .flushp p => Sys2Proof.Machine.execFlushp p s
  | .wfpSingle p => Sys2Proof.Machine.execWfpSingle p s
  | .wfpBurst p => Sys2Proof.Machine.execWfpBurst p s
  | .wfpPeriph p => Sys2Proof.Machine.execWfpPeriph p s
  | .lpLc0 n => Sys2Proof.Machine.execLpLc0 n s
  | .lpLc1 n => Sys2Proof.Machine.execLpLc1 n s
  | .lpendLc0 d => Sys2Proof.Machine.execLpendLc0 d s
  | .lpendLc1 d => Sys2Proof.Machine.execLpendLc1 d s
  | .endp => Sys2Proof.Machine.execEndp s
  | .nop => Sys2Proof.Machine.execNop s
  | .kill => Sys2Proof.Machine.execKill s
  | .goSecure c a => Sys2Proof.Machine.execGoSecure c a s
  | .goNs c a => Sys2Proof.Machine.execGoNs c a s
  | .rmb => Sys2Proof.Machine.execRmb s
  | .wmb => Sys2Proof.Machine.execWmb s
  | .sev e => Sys2Proof.Machine.execSev e s
  | .build req bufBase cap => Sys2Proof.Machine.execBuild req bufBase cap s
  | .buildZf dst size bufBase cap => Sys2Proof.Machine.execBuildZf dst size bufBase cap s
  | .start c p => Sys2Proof.Machine.execStart c p s
  | .poll c => Sys2Proof.Machine.execPoll c s
  | .finish c timeout => Sys2Proof.Machine.execFinish c timeout s
  | .killCommand c => Sys2Proof.Machine.execKillCommand c s

end Sys2Proof.Machine
end

