-- ==== Sys2Proof/Machine/Fetch.lean ====
section
/-! DEFINITION. What the block does next: the command still active, else the microinstruction at the emitter's
port, else the next thing the outside world does; and how the host's question about one opcode-table word is laid
where the fetch finds it. -/

namespace Sys2Proof.Machine

/-- What a step finds to do. -/
inductive Fetched where
  /-- An instruction, and the state with it taken from where it stood. -/
  | run (i : Instr) (s : State)
  /-- Something that is over in this step without an instruction. -/
  | done (s : State)
  /-- Bytes that are no instruction. -/
  | bad (f : Fault)
deriving DecidableEq, Repr

/-- The channel a DMAC register belongs to (R41), and so which writes of another agent are U3's: DESIGN CHOICE, log 39. -/
def regChannel : DmacReg → Option Nat
  | .ftr n => some n
  | .csr n => some n
  | .cpc n => some n
  | .sar n => some n
  | .dar n => some n
  | .ccr n => some n
  | .lc0 n => some n
  | .lc1 n => some n
  | _ => none

/-- May this channel of the DMAC be active (R366): a transfer on it is open, or it has not come to rest (log 32)? -/
def chanActive (s : State) (n : Nat) : Bool :=
  n < s.cfg.numChannels && (!channelIdle (chanEnv s n) || s.issues.any fun i => i.chan == n && i.isOpen)

/-- Does this write overwrite a debug instruction that may be pending (R369)? -/
def overwritesPending (r : DmacReg) (s : State) : Bool := (r == .dbgInst0 || r == .dbgInst1) && s.dbgEnv.pending

/-- May the instruction DBGINST0 and DBGINST1 hold after this write run because of it: the write starts it (R66), or
overwrites one that may be pending (R369, U5)? -/
def mayInject (r : DmacReg) (v : Word) (s : State) : Bool :=
  (r == .dbgCmd && dbgCmdField v == 0) || overwritesPending r s

/-- Another agent's write of a register, with what it injects or may inject (R66, R302; U5, log 31). -/
def agentStores (r : DmacReg) (v : Word) (s : State) : State :=
  if overwritesPending r s then noteInjection (storeReg r v s) else storeReg r v s

/-- Is this a transfer of a channel that may be active, and does the write belong to that channel (U3) or kill it, or
perhaps kill it (U2, U5)? -/
def agentDisturbs (r : DmacReg) (v : Word) (s : State) (i : Issue) : Bool :=
  chanActive s i.chan
    && (regChannel r == some i.chan
      || mayInject r v s && killChannel (storeReg r v s).dmac.dbgInst0 == some i.chan)

/-- The later status reads of a channel whose registers have been written while it may be active are any value (U3). -/
def liftChannel (r : DmacReg) (s t : State) : State :=
  match regChannel r with
  | some n => if chanActive s n then noteChan n (fun e => { e with lifted := true }) t else t
  | none => t

/-- `agentWrite` (R366): another agent writes a DMAC register. The register takes the value; where it belongs to a
channel that may be active, or kills one, that channel's transfers are disturbed (U2, U3). -/
def agentWrites (r : DmacReg) (v : Word) (s : State) : State :=
  disturb (agentDisturbs r v s) (liftChannel r s (agentStores r v s))

/-- `hostWrite` (R69, R365): the host's own store, no access of the block. -/
def hostWrites (a : Word) (v : Byte) (s : State) : State := storeByte a v s

/-- A channel after a reset of the DMAC: as at launch, but a disturbance still lifts ENV_PROTOCOL (R362, U3; log 16). -/
def resetEnv (n : Nat) (e : ChannelEnv) : ChannelEnv := { launchEnv n with lifted := e.lifted }

/-- `dmacReset` (R362): the DMAC is as at launch again; the block's own state does not change. -/
def dmacResets (s : State) : State :=
  { s with
    dmac := launchRegs
    chans := Vector.ofFn fun n => resetEnv n.val (chanEnv s n.val)
    dbgEnv := launchDebug }

/-- `blockReset` (R44, R360): no build, no record, no context; memory, the DMAC and the outside world go on. A transfer
that no finish() or kill() has closed stays open, without a context (R365; log 18). -/
def blockResets (s : State) : State :=
  { s with
    ctxs := []
    programs := []
    issues := s.issues.map fun i => { i with ctx := none }
    build := none
    active := none
    emitPort := []
    result := none }

/-- `create` (R44). -/
def createContext (chan : Nat) (isManager : Bool) (security : Security) (s : State) : State :=
  { s with ctxs := s.ctxs ++ [newContext s.cfg chan isManager security] }

/-- The next thing at the emitter's port (R88). -/
def fetchEmit (s : State) : Fetched :=
  match decode s.emitPort with
  | .instr i n => .run i { s with emitPort := s.emitPort.drop n }
  | .unknown b0 => .bad (.unknownEncoding b0 none)
  | .unknown2 b0 b1 => .bad (.unknownEncoding b0 (some b1))
  | .truncated => .bad .truncated

/-- The next thing the outside world does. A reserved command code returns Refused and changes nothing else (R92,
R330; DEDUCED, log 11); with nothing to do the block waits. -/
def fetchEvent (s : State) : Fetched :=
  match s.inbox with
  | [] => .done s
  | e :: rest =>
    let t := { s with inbox := rest }
    match e with
    | .create chan isManager security => .done (createContext chan isManager security t)
    | .command tx =>
      match decodeCommand tx with
      | some i => .run i t
      | none => .done (deliver .refused t)
    | .hostWrite a v => .done (hostWrites a v t)
    | .agentWrite r v => .done (agentWrites r v t)
    | .dmacReset => .done (dmacResets t)
    | .blockReset => .done (blockResets t)

/-- What a step does: a command that has not ended goes on before anything else (R10, R93; DESIGN CHOICE, log 8). -/
def fetch (s : State) : Fetched :=
  match s.active with
  | some i => .run i { s with active := none }
  | none =>
    match s.emitPort with
    | [] => fetchEvent s
    | _ :: _ => fetchEmit s

/-- A build with room for one microinstruction: what an emit needs when no build is in progress. -/
def scratchBuild : BuildState :=
  { bufBase := 0, cap := longestInstr, off := 0, frame0 := none, frame1 := none, rem := 0,
    status := .building, needed := longestInstr }

/-- Lay a carrier where the next fetch finds it. A microinstruction goes to the emitter's port, with a build in
progress; a command goes to the head of the inbox. DESIGN CHOICE, log 23. -/
def placeWire (w : Wire) (s : State) : State :=
  match w with
  | .bytes bs =>
    { s with
      active := none
      emitPort := bs
      build := if buildRunning s then s.build else some scratchBuild }
  | .port tx => { s with active := none, emitPort := [], inbox := .command tx :: s.inbox }

end Sys2Proof.Machine
end

