-- ==== Sys2Proof/Machine/Step.lean ====
section
/-! DEFINITION. One step of the machine: what the fetch finds, run by `exec`; and the host's placing of an
opcode-table word. -/

namespace Sys2Proof.Machine

/-- One step. -/
def step (s : State) : Host.Outcome State Fault Refusal :=
  match fetch s with
  | .run i t => exec i t
  | .done t => .next t
  | .bad f => .fault f

/-- The opcode-table word `w` of `nbits` bits laid where the next step fetches. -/
def State.withFetchWord (s : State) (nbits w : Nat) : State := placeWire (decodeTableWire nbits w) s

end Sys2Proof.Machine
end

