-- ==== Sys2Proof/Safety.lean ====
section
/-! DEFINITION. The terms the claims are stated in: the environment's answers as one stream, the listing a build
must lay out, what a buffer holds, and the invariant of the machine. -/

namespace Sys2Proof.Machine

/-- The 28 microinstruction rows (R87), as against the six commands (R92). -/
def isMicro : Instr → Bool
  | .build _ _ _ => false
  | .buildZf _ _ _ _ => false
  | .start _ _ => false
  | .poll _ => false
  | .finish _ _ => false
  | .killCommand _ => false
  | _ => true

/-- The DMAC's answers to the reads still to come (R301), the next one first: the listed draws, then the free
values. -/
def drawStream (s : State) (k : Nat) : Word :=
  match s.draws[k]? with
  | some v => v
  | none => Config.freeDraw (s.drawCount + (k - s.draws.length))

/-- What the oracle shows for a context if it is asked now (R290). -/
def oracleShows (ctx : ExecutionContext) (s : State) : ChannelState :=
  mapState (statusCode (presented (statusReg ctx) s)) ctx.isManager

/-! ### Accesses -/

/-- The access of one status read of a context, made now (R290). -/
def statusEvent (ctx : ExecutionContext) (s : State) : BusEvent :=
  .read32 (regAddr ctx.regBase (statusReg ctx)) (presented (statusReg ctx) s)

/-- The state after `k` polls of a context's status, each followed by a delay (R261, R295). -/
def afterPolls (ctx : ExecutionContext) : Nat → State → State
  | 0, s => s
  | k + 1, s => afterPolls ctx k (delay (readState ctx s).2)

/-- What the poll after `k` others shows. -/
def polled (ctx : ExecutionContext) (k : Nat) (s : State) : ChannelState := oracleShows ctx (afterPolls ctx k s)

/-- The accesses of `k` polls, each followed by a delay. -/
def pollEvents (ctx : ExecutionContext) (k : Nat) (s : State) : List BusEvent :=
  (List.range k).flatMap fun j => [statusEvent ctx (afterPolls ctx j s), .delay]

/-- The two writes that begin a debug injection (R250). -/
def debugWrites (ctx : ExecutionContext) (toManager : Bool) (insn : List Byte) : List BusEvent :=
  [.write32 (regAddr ctx.regBase .dbgInst0) (dbgInst0Word ctx.chan toManager insn),
   .write32 (regAddr ctx.regBase .dbgInst1) (dbgInst1Word insn)]

/-- The access of a DBGSTATUS read that answers `v`. -/
def debugRead (ctx : ExecutionContext) (v : Word) : BusEvent := .read32 (regAddr ctx.regBase .dbgStatus) v

/-- A whole debug injection whose DBGSTATUS reads answer `busy` and then `idle` (R250 to R254). -/
def injectEvents (ctx : ExecutionContext) (toManager : Bool) (insn : List Byte) (busy : List Word) (idle : Word) :
    List BusEvent :=
  debugWrites ctx toManager insn ++ busy.flatMap (fun v => [debugRead ctx v, .delay])
    ++ [debugRead ctx idle, .write32 (regAddr ctx.regBase .dbgCmd) 0]

/-- A debug injection that runs out of polls: every read answers busy, the last one `last` (R253). -/
def timeoutEvents (ctx : ExecutionContext) (toManager : Bool) (insn : List Byte) (busy : List Word) (last : Word) :
    List BusEvent :=
  debugWrites ctx toManager insn ++ busy.flatMap (fun v => [debugRead ctx v, .delay]) ++ [debugRead ctx last]

/-- What DBGSTATUS shows at the read after `j` busy ones, the DMAC's `m`th answer being the first of them: the answer
as it is, or, under ENV_PROTOCOL, idle once the busy run is over (R302; log 17). -/
def dbgShown (s : State) (m j : Nat) : Word :=
  if protocolOn s = true ∧ s.dbgEnv.left ≤ j then drawStream s (m + j) &&& 0xFFFFFFFE else drawStream s (m + j)

/-- What `n` DBGSTATUS reads show, from the `m`th answer on. -/
def dbgAnswers (s : State) (m n : Nat) : List Word := (List.range n).map (dbgShown s m)

/-- `k` DBGSTATUS reads show busy and the next one idle, from the DMAC's `m`th answer on. -/
def idleAfter (s : State) (m k : Nat) : Prop :=
  (∀ j, j < k → dbgBusy (dbgShown s m j) = true) ∧ dbgBusy (dbgShown s m k) = false

/-- The next `n` DBGSTATUS reads show busy, from the DMAC's `m`th answer on. -/
def busyFor (s : State) (m n : Nat) : Prop := ∀ j, j < n → dbgBusy (dbgShown s m j) = true

/-- What is known of the debug interface after an idle answer: the next busy run may be of any length (R302; log 17), and
no instruction is pending. -/
def afterIdle (d : DebugEnv) : DebugEnv := ⟨Config.busyRun d.run, d.run + 1, false⟩

/-- What is known after `n` busy answers: one of them says that an instruction is pending (R369; log 31). -/
def afterBusy (d : DebugEnv) (n : Nat) : DebugEnv := ⟨d.left - n, d.run, d.pending || n != 0⟩

/-- `n` answers have been used. -/
def answersUsed (s t : State) (n : Nat) : Prop := ∀ k, drawStream t k = drawStream s (n + k)

/-- What `n` polls of a context show, each followed by a delay. -/
def polledStates (ctx : ExecutionContext) (n : Nat) (s : State) : List ChannelState :=
  (List.range n).map fun j => polled ctx j s

/-- A channel's entry after CSR reads that showed these states, oldest first (R302, R368). -/
def shownTo (sts : List ChannelState) (e : ChannelEnv) : ChannelEnv :=
  match sts.getLast? with
  | none => e
  | some st => { e with last := some st, ran := e.ran || sts.any (fun x => x != .stopped) }

/-- Of what is known of the channels only the entry of this context's channel has changed, as `f` says; nothing for a
manager context, which has no channel. -/
def chansBecome (ctx : ExecutionContext) (f : ChannelEnv → ChannelEnv) (s t : State) : Prop :=
  ∀ n, chanEnv t n = if ctx.isManager = false ∧ n = ctx.chan then f (chanEnv s n) else chanEnv s n

/-- The registers a debug injection may change. -/
def debugReg : DmacReg → Bool
  | .dbgStatus => true
  | .dbgCmd => true
  | .dbgInst0 => true
  | .dbgInst1 => true
  | _ => false

/-- Only this status register and the debug registers have changed, but for the registers that a transfer reaches into in
state `m` (log 40). -/
def otherRegsKept (ctx : ExecutionContext) (m s t : State) : Prop :=
  ∀ r, r ≠ statusReg ctx → debugReg r = false → regMay m r = false → getReg r t.dmac = getReg r s.dmac

/-- A register the DMAC has: its number is inside its bank (R32). -/
def inBank : DmacReg → Bool
  | .cr n => n < 5
  | r => match regChannel r with
    | some n => n < 8
    | none => true

/-- What a register holds of a word written to it: LC0 and LC1 have 8 bits (R41; log 30). -/
def regField (r : DmacReg) (v : Word) : Word :=
  match r with
  | .lc0 _ => v &&& 0xFF
  | .lc1 _ => v &&& 0xFF
  | _ => v

/-- The registers that a transfer reaches into in state `m` hold any value (R371, U14; log 40): each a free value. DBGSTATUS
is left out, because what it holds is an answer of the DMAC in any case. -/
def regsFree (m t : State) : Prop :=
  ∀ r, inBank r = true → r ≠ .dbgStatus → regMay m r = true →
    ∃ k, getReg r t.dmac = regField r (Config.freeReg k (regOffset r))

/-- Is this word of DBGINST0 a GO for channel `n` (R39, R145): for the manager thread, a GO whose byte 1 names the channel in
its bits [2:0] (log 35)? -/
def wordGo (w : Word) (n : Nat) : Bool :=
  w.extractLsb' 0 1 == 0 && (w.extractLsb' 16 8 == 0xA0 || w.extractLsb' 16 8 == 0xA2)
    && (w.extractLsb' 24 3).toNat == n

/-- Is it a KILL on the thread of channel `n` (R39, R144)? -/
def wordKill (w : Word) (n : Nat) : Bool :=
  w.extractLsb' 0 1 == 1 && w.extractLsb' 16 8 == 0x01 && (w.extractLsb' 8 3).toNat == n

/-- A channel's entry after the instruction in this word was injected. -/
def wordNoted (w : Word) (n : Nat) (e : ChannelEnv) : ChannelEnv :=
  { e with goSeen := e.goSeen || wordGo w n, killSeen := e.killSeen || wordKill w n, ran := e.ran && !wordGo w n }

/-- The instruction in some one word has been noted, and nothing else has become known of the channels. -/
def oneNoted (s t : State) : Prop := ∃ w, ∀ n, n < 8 → chanEnv t n = wordNoted w n (chanEnv s n)

/-- Does this write start the instruction in DBGINST0 and DBGINST1 (R38, R66), or may it make a pending one run with the
bytes they hold now (R369, U5; log 31)? -/
def mayStart (s : State) (r : DmacReg) (v : Word) : Bool :=
  match r with
  | .dbgCmd => v.extractLsb' 0 2 == 0
  | .dbgInst0 => s.dbgEnv.pending
  | .dbgInst1 => s.dbgEnv.pending
  | _ => false

/-- Does this write start, or perhaps start, a GO for channel `n`, `w` being what DBGINST0 holds after it? -/
def startsGo (s : State) (r : DmacReg) (v w : Word) (n : Nat) : Bool := mayStart s r v && wordGo w n

/-- Does it start, or perhaps start, a KILL on the thread of channel `n`? -/
def startsKill (s : State) (r : DmacReg) (v w : Word) (n : Nat) : Bool := mayStart s r v && wordKill w n

/-! ### Programs -/

/-- One loop as it must stand in the buffer (R212 to R216): the inner LPEND jumps back over the body, the outer one
over the inner loop. -/
def expectedLoop (k : BodyKind) (g : BurstCond) (p : LoopPlan) : List Instr :=
  match p.outer with
  | none => [.lpLc0 p.inner] ++ bodyInstrs k g ++ [.lpendLc0 (bodySize k)]
  | some m =>
    [.lpLc1 m, .lpLc0 p.inner] ++ bodyInstrs k g
      ++ [.lpendLc0 (bodySize k), .lpendLc1 (bodySize k + 4)]

/-- A program after its header (R211, R217, R218). -/
def expectedPhases (k : BodyKind) (P : Plan) : List Instr :=
  [.movCcr P.ccrBurst] ++ P.burstPlans.flatMap (expectedLoop k .burst)
    ++ [.movCcr P.ccrTail] ++ P.tailPlans.flatMap (expectedLoop k .single) ++ [.endp]

/-- The program of a request (R211). -/
def expectedProgram (req : TransferRequest) : List Instr :=
  [.movSar req.src, .movDar req.dst]
    ++ (if req.kind = .mem2mem then [] else [.flushp req.periph])
    ++ expectedPhases (requestBody req) (planRequest req)

/-- The program of a zero fill (R223). -/
def expectedZeroFill (cfg : Config.Params) (dst : Word) (size : Nat) : List Instr :=
  [.movDar dst] ++ expectedPhases .zeroFill (planZfGeometry cfg size)

/-- FLUSHP, whatever its peripheral (R116). -/
def isFlushp : Instr → Bool
  | .flushp _ => true
  | _ => false

/-- The bytes of a program (R90). -/
def programBytes (is : List Instr) : List Byte := is.flatMap enc

/-- Do `n` bytes from `base` reach into this transfer's program while the transfer is open (R69, R365)? -/
def hitBy (base : Word) (n : Nat) (i : Issue) : Bool :=
  i.isOpen &&
    (List.range n).any fun k => inRange i.record.base i.record.length (base + BitVec.ofNat 32 k)

/-- Memory after these bytes were stored from `base` on: each holds its value, and every other byte is as before, but that
no byte is known which the DMAC may write: of the destination of a transfer whose program they reach into (U1), and, of the
bytes stored, of the destination of a transfer that may be executing (log 12). -/
def storedBytes (s t : State) (base : Word) (bs : List Byte) : Prop :=
  ∀ b : Word, byteAt t b =
    if s.issues.any (fun i => hitBy base bs.length i && mayWrite wholeLength i b) then none
    else match bs[(b - base).toNat]? with
      | some v => if dmaMay s b then none else some v
      | none => byteAt s b

/-- The disturbance the store of `n` bytes from `base` on is (R365, U1; log 16): a byte in a running program lifts
ENV_PROTOCOL and marks the transfer; any other store does neither. -/
def storeDisturbs (s t : State) (base : Word) (n : Nat) : Prop :=
  t.wild = (s.wild || s.issues.any (hitBy base n))
  ∧ t.issues = s.issues.map fun i => { i with disturbed := i.disturbed || hitBy base n i }

/-- The accesses that write these bytes at rising addresses (R61, R67). -/
def writeEvents (base : Word) (bs : List Byte) : List BusEvent :=
  bs.mapIdx fun k v => .memWrite8 (base + BitVec.ofNat 32 k) v

/-- No byte of memory has changed. -/
def memoryKept (s t : State) : Prop := ∀ a : Word, byteAt t a = byteAt s a

/-- No byte but those these transfers may change has changed; of those, none has a known value. -/
def onlyForgets (s t : State) (p : Issue → Bool) (len : Issue → Nat) : Prop :=
  ∀ a : Word, byteAt t a = if s.issues.any (fun i => p i && mayWrite len i a) then none else byteAt s a

/-- Exactly these bytes are known no longer: those a transfer the DMAC may be executing may write (log 12). -/
def onlyForgetsDma (s t : State) : Prop := ∀ a : Word, byteAt t a = if dmaMay t a then none else byteAt s a

/-- Is this transfer closed by a finish() or kill() with this context (R365): the context's own, on its channel, or one
on its channel whose context a block reset has taken away (log 18)? -/
def closedBy (c : Nat) (ctx : ExecutionContext) (i : Issue) : Bool :=
  ctx.isManager == false && i.chan == ctx.chan && (i.ctx == some c || i.ctx == none)

/-- The transfers this context closes are closed, and nothing else of them has changed. -/
def onlyCloses (c : Nat) (ctx : ExecutionContext) (s t : State) : Prop :=
  t.issues = s.issues.map fun i => { i with isOpen := i.isOpen && !closedBy c ctx i }

/-- As `onlyCloses`, and the transfers of this context's channel are disturbed (R367, U2): every byte of what they may
write has lost its value, no other byte has changed, and they are marked. -/
def onlyKills (c : Nat) (ctx : ExecutionContext) (s t : State) : Prop :=
  onlyForgets s t (fun i => !ctx.isManager && i.chan == ctx.chan) wholeLength
  ∧ t.issues = s.issues.map fun i =>
      { i with isOpen := i.isOpen && !closedBy c ctx i, disturbed := i.disturbed || (!ctx.isManager && i.chan == ctx.chan) }

/-- These transfers are disturbed (U1 to U3): every byte of what they may write has lost its value, no other byte has
changed, and they are marked. -/
def onlyDisturbs (s t : State) (p : Issue → Bool) : Prop :=
  onlyForgets s t p wholeLength
  ∧ t.issues = s.issues.map fun i => { i with disturbed := i.disturbed || p i }

/-- The checks of R171 in the order of its table, each with whether it fails. -/
def requestChecks (cfg : Config.Params) (req : TransferRequest) (bufBase : Word) (cap : Nat) :
    List (Cause × Bool) :=
  [(.badBurstSize, decide (req.bsz > cfg.maxExp)),
   (.badSingleSize, decide (req.ssz > cfg.maxExp)),
   (.badSingleSize, decide (req.ssz > req.bsz)),
   (.badBurstLen, decide (req.blen < 1) || decide (req.blen > 16)),
   (.badPeriph, decide (req.kind ≠ .mem2mem) && decide (req.periph > 31)),
   (.misalignedSrc, decide (req.src.toNat % 2 ^ req.bsz ≠ 0)),
   (.misalignedDst, decide (req.dst.toNat % 2 ^ req.bsz ≠ 0)),
   (.badSize, decide (req.size > 2 ^ 32 - 1)),
   (.badBuffer, decide (bufBase.toNat + cap > 2 ^ 32))]

/-- The checks of R185. -/
def zeroFillChecks (cfg : Config.Params) (dst : Word) (size : Nat) (bufBase : Word) (cap : Nat) :
    List (Cause × Bool) :=
  [(.misalignedDst, decide (dst.toNat % 2 ^ cfg.zfBurstExp ≠ 0)),
   (.badSize, decide (size > 2 ^ 32 - 1)),
   (.badBuffer, decide (bufBase.toNat + cap > 2 ^ 32))]

/-- The cause of the first check that fails. -/
def firstFailing (checks : List (Cause × Bool)) : Option Cause :=
  (checks.find? fun c => c.2).map fun c => c.1

/-- The units a list of plans moves (R184). -/
def unitsMoved (ps : List LoopPlan) : Nat := (ps.map LoopPlan.runs).sum

/-- The counts of a plan lie in the range of a hardware loop (R184). -/
def countsOk (p : LoopPlan) : Prop :=
  1 ≤ p.inner ∧ p.inner ≤ 256 ∧ ∀ m, p.outer = some m → 1 ≤ m ∧ m ≤ 256

/-- What R184 says of a plan: encodable counts, and the four totals of its two phases. (That no plan nests more than two
frames is `LoopPlan`'s type.) -/
def planTotals (P : Plan) (unitB unitS size : Nat) : Prop :=
  (∀ p ∈ P.burstPlans ++ P.tailPlans, countsOk p)
  ∧ ∃ rem1, unitsMoved P.burstPlans * unitB = size - rem1
    ∧ rem1 ≤ size ∧ rem1 < unitB
    ∧ unitsMoved P.tailPlans * unitS = rem1 - P.residual
    ∧ P.residual ≤ rem1 ∧ P.residual < unitS

/-! ### Microinstructions -/

/-- The emit of one microinstruction into a running build with room for it: the bytes at the cursor, the cursor past
them, `post` on the build registers, the accesses in order; nothing else changes but what a store into a running program
disturbs (U1). -/
def EmitsBytes (i : Instr) (bs : List Byte) (post : BuildState → BuildState) : Prop :=
  ∀ (s : State) (b : BuildState), s.build = some b → b.status = .building → b.off + bs.length ≤ b.cap →
    ∃ t, exec i s = .next t
      ∧ t.build = some (post { b with off := b.off + bs.length })
      ∧ storedBytes s t (b.bufBase + BitVec.ofNat 32 b.off) bs
      ∧ storeDisturbs s t (b.bufBase + BitVec.ofNat 32 b.off) bs.length
      ∧ t.bus = s.bus ++ writeEvents (b.bufBase + BitVec.ofNat 32 b.off) bs
      ∧ { t with mem := s.mem, build := s.build, bus := s.bus, wild := s.wild, issues := s.issues } = s

/-! ### The invariant -/

/-- A record a successful build can return (R61, R219): it lies in its buffer, which does not wrap. -/
def recordOk (p : Microprogram) : Prop :=
  1 ≤ p.length ∧ p.length ≤ p.capacity ∧ p.base.toNat + p.capacity ≤ Config.addrSpace

/-- What holds of every state a run reaches. -/
structure StateWf (s : State) : Prop where
  /-- Memory keeps its canonical form. -/
  mem : Memory.wf s.mem = true
  /-- A running build's cursor is inside its capacity (R24) and its buffer does not wrap (R61). -/
  cursor : ∀ b, s.build = some b →
    b.status = .building ∧ b.off ≤ b.cap ∧ b.bufBase.toNat + b.cap ≤ Config.addrSpace
  /-- A context's register base follows from its security instance (R27). -/
  regBase : ∀ ctx ∈ s.ctxs, ctx.regBase = regBaseOf s.cfg ctx.security
  /-- A record is a successful build's (R22, R219). -/
  programs : ∀ e ∈ s.programs, recordOk e.record
  /-- A context is in flight only after a start() on a channel the DMAC has issued its program base (R28). -/
  inflight : ∀ c ctx, s.ctxs[c]? = some ctx → ctx.inflight = true →
    ctx.isManager = false ∧ ctx.chan < s.cfg.numChannels ∧
      ∃ i ∈ s.issues, i.ctx = some c ∧ i.isOpen = true ∧ i.chan = ctx.chan ∧ i.record.base = ctx.progBase
  /-- An open transfer is that of a context in flight, but for one whose context a block reset has taken away (R365). -/
  opened : ∀ i ∈ s.issues, i.isOpen = true → ∀ c, i.ctx = some c →
    ∃ ctx, s.ctxs[c]? = some ctx ∧ ctx.inflight = true ∧ ctx.isManager = false ∧ ctx.chan = i.chan
  /-- Only finish() without a bound stays active (R295). -/
  active : ∀ i, s.active = some i → ∃ c, i = .finish c none

/-- The buffer the build of a step may write to (R61): that of the BUILD or BUILD_ZF the step runs, or, for a
microinstruction, that of the build in progress. -/
def stepBuffer (s : State) : Option (Word × Nat) :=
  match fetch s with
  | .run (.build _ bufBase cap) _ => some (bufBase, cap)
  | .run (.buildZf _ _ bufBase cap) _ => some (bufBase, cap)
  | .run i _ => if isMicro i then s.build.map fun b => (b.bufBase, b.cap) else none
  | _ => none

/-- An access the block may make in a step from `s` (R43): a byte written inside the buffer of the step's build (R61); a
read of DS, DBGSTATUS, or FTR, CSR or CPC of a channel the DMAC has; a write of DBGINST0 or DBGINST1, or of DBGCMD with 0
(R38); each register in one of the two frames, at its offset (R32). -/
def accessLegal (s : State) : BusEvent → Prop
  | .memWrite8 a _ => ∃ base cap, stepBuffer s = some (base, cap) ∧ inRange base cap a = true
  | .delay => True
  | .read32 a _ => ∃ sec off, a = regBaseOf s.cfg sec + BitVec.ofNat 32 off ∧
      (off = 0x000 ∨ off = 0xD00 ∨
        ∃ n, n < s.cfg.numChannels ∧ (off = 0x040 + 4 * n ∨ off = 0x100 + 8 * n ∨ off = 0x104 + 8 * n))
  | .write32 a v => ∃ sec off, a = regBaseOf s.cfg sec + BitVec.ofNat 32 off ∧
      (off = 0xD08 ∨ off = 0xD0C ∨ (off = 0xD04 ∧ v = 0))

end Sys2Proof.Machine
end

