-- ==== Sys2Proof/Certificates/Slice0/Obligations.lean ====
section
/-! DEFINITION. The statements for the provers, in the terms of Safety.lean. Each docstring names the rules it rests
on and, where a clause is the model's own choice, the log entry. -/

open Sys2Proof Sys2Proof.Machine

/-! ### Encoding (30_encoding.md) -/

/-- R90: decoding an emitted microinstruction, whatever bytes follow, gives it and its size; emission is injective; a
concatenation of emitted instructions decodes to the sequence. -/
def Obligations.EmittedMicroinstructionsDecodeBack : Prop :=
  (∀ i rest, isMicro i = true → i.wf = true → decode (enc i ++ rest) = .instr i i.size)
  ∧ (∀ i j, isMicro i = true → i.wf = true → isMicro j = true → j.wf = true → enc i = enc j → i = j)
  ∧ (∀ is : List Instr, (∀ i ∈ is, isMicro i = true ∧ i.wf = true) →
      decodeProgram (programBytes is).length (programBytes is) = some is)

/-- Every well-formed instruction, microinstruction or command, comes back from its carrier with every operand (R87,
R88, R92; the carrier of a command is the model's transaction, log 7). -/
def Obligations.EveryInstructionSurvivesItsCarrier : Prop :=
  ∀ i : Instr, i.wf = true → decodeWire (encode i) = .instr i i.size

/-- The other direction (R88, R89): whatever the decoder reads as an instruction is a well-formed microinstruction whose
encoding is exactly the bytes read, so no other bytes have a meaning. -/
def Obligations.DecodedBytesAreTheEncoding : Prop :=
  ∀ (bs : List Byte) (i : Instr) (n : Nat), decode bs = .instr i n →
    isMicro i = true ∧ i.wf = true ∧ n = i.size ∧ n ≤ bs.length ∧ enc i = bs.take n

/-- What the decoder answers where there is no instruction (R88): a byte 0 outside R87 is Unknown, a cut encoding is
Truncated, an illegal byte 1 is Unknown with both bytes. That no bytes at all are Truncated is the model's choice, log
33. -/
def Obligations.DecoderRejectsByName : Prop :=
  decode [] = .truncated
  ∧ (∀ b0 rest, (∀ i, isMicro i = true → i.wf = true → (enc i).head? ≠ some b0) →
      decode (b0 :: rest) = .unknown b0)
  ∧ (∀ i k, isMicro i = true → i.wf = true → k < i.size → decode ((enc i).take k) = .truncated)
  ∧ (∀ b0 b1 rest, b0 ∈ [0x29, 0x2B, 0x30, 0x31, 0x32, 0x34, 0x35] → b1.toNat % 8 ≠ 0 →
      decode (b0 :: b1 :: rest) = .unknown2 b0 b1)
  ∧ (∀ b1 b2 b3 b4 b5 rest, 3 ≤ b1.toNat → decode (0xBC :: b1 :: b2 :: b3 :: b4 :: b5 :: rest) = .unknown2 0xBC b1)
  ∧ (∀ b0 b1 b2 b3 b4 b5 rest, b0 ∈ [0xA0, 0xA2] → 8 ≤ b1.toNat →
      decode (b0 :: b1 :: b2 :: b3 :: b4 :: b5 :: rest) = .unknown2 b0 b1)

/-- R80: the length of each microinstruction, and that byte 0 alone determines it. -/
def Obligations.LengthsAreAsTabled : Prop :=
  (∀ i, isMicro i = true → (enc i).length = i.size)
  ∧ (∀ w n, Instr.size (.movSar w) = 6 ∧ Instr.size (.movCcr w) = 6 ∧ Instr.size (.movDar w) = 6
      ∧ Instr.size (.goSecure n w) = 6 ∧ Instr.size (.goNs n w) = 6)
  ∧ (∀ n, Instr.size (.lpLc0 n) = 2 ∧ Instr.size (.lpLc1 n) = 2 ∧ Instr.size (.lpendLc0 n) = 2
      ∧ Instr.size (.lpendLc1 n) = 2 ∧ Instr.size (.wfpSingle n) = 2 ∧ Instr.size (.wfpBurst n) = 2
      ∧ Instr.size (.wfpPeriph n) = 2 ∧ Instr.size (.flushp n) = 2 ∧ Instr.size (.stps n) = 2
      ∧ Instr.size (.stpb n) = 2 ∧ Instr.size (.sev n) = 2)
  ∧ (∀ i ∈ [Instr.ld, .lds, .ldb, .st, .sts, .stb, .stz, .endp, .nop, .kill, .rmb, .wmb], i.size = 1)
  ∧ (∀ i j, isMicro i = true → isMicro j = true → (enc i).head? = (enc j).head? → i.size = j.size)

/-- A few words of 95_test_vectors.md, written out, decode as listed (V-EN-3, V-EN-6, V-EN-9, V-EN-10, V-EN-13,
V-EN-17). -/
def Obligations.ListedWordsDecode : Prop :=
  decode [0xBC, 0x01, 0xF7, 0xC8, 0x3D, 0x02] = .instr (.movCcr 0x023DC8F7) 6
  ∧ decode [0x32, 0x28] = .instr (.wfpBurst 5) 2
  ∧ decode [0x20, 0xFF] = .instr (.lpLc0 256) 2
  ∧ decode [0x3C, 0x0B] = .instr (.lpendLc1 11) 2
  ∧ decode [0xA2, 0x02, 0x78, 0x56, 0x34, 0x12] = .instr (.goNs 2 0x12345678) 6
  ∧ decode [0x0C] = .instr .stz 1

/-! ### The step -/

/-- A step runs the decoded instruction: the active command, else the microinstruction at the emitter's port with its
bytes taken off, else the command at the head of the inbox (log 8: the ports are the model's). -/
def Obligations.StepRunsTheDecodedInstruction : Prop :=
  (∀ s i, s.active = some i → step s = exec i { s with active := none })
  ∧ (∀ s i n, s.active = none → decode s.emitPort = .instr i n →
      step s = exec i { s with emitPort := s.emitPort.drop n })
  ∧ (∀ s tx rest i, s.active = none → s.emitPort = [] → s.inbox = .command tx :: rest →
      decodeCommand tx = some i → step s = exec i { s with inbox := rest })

/-- R92: a reserved command code returns Refused and has no effect on any other state. -/
def Obligations.ReservedCodeReturnsRefused : Prop :=
  ∀ s tx rest, s.active = none → s.emitPort = [] → s.inbox = .command tx :: rest →
    (tx.code.toNat < 1 ∨ 6 < tx.code.toNat) →
    step s = .next { s with inbox := rest, result := some .refused }

/-- R44 and R360: after the creation of the block, and after a block reset between commands (an event of the model's, log
18), no build is in progress and no record and no context exists; and what a context starts with. That a block reset keeps
memory, the DMAC and the remembered transfers, of which an open one stays open, is log 18. The model lets the host
create a context for any channel number (log 24): the commands check it. -/
def Obligations.ResetAndContextCreation : Prop :=
  State.reset.build = none ∧ State.reset.programs = [] ∧ State.reset.ctxs = []
  ∧ (∀ s rest, s.active = none → s.emitPort = [] → s.inbox = .blockReset :: rest →
      ∃ t, step s = .next t ∧ t.build = none ∧ t.programs = [] ∧ t.ctxs = []
        ∧ t.issues = s.issues.map (fun i => { i with ctx := none })
        ∧ { t with build := s.build, programs := s.programs, ctxs := s.ctxs, issues := s.issues, emitPort := s.emitPort,
                   result := s.result, inbox := s.inbox } = s)
  ∧ (∀ s rest chan m sec, s.active = none → s.emitPort = [] → s.inbox = .create chan m sec :: rest →
      ∃ ctx, step s = .next { s with inbox := rest, ctxs := s.ctxs ++ [ctx] }
        ∧ ctx.inflight = false ∧ ctx.progBase = 0 ∧ ctx.chan = chan ∧ ctx.isManager = m ∧ ctx.security = sec
        ∧ ctx.regBase = (match sec with | .secure => s.cfg.secRegBase | .nonsecure => s.cfg.nsRegBase))

/-! ### The emitter (40_emit_transfer.md, 41_emit_control.md) -/

/-- R110 to R117: MOV SAR, MOV CCR, MOV DAR, LD, LDS, LDB, ST, STS, STB, STZ, STPS, STPB, FLUSHP and the three WFP each
append the bytes of their rule to a running build with room for them, and change nothing else but what a store into a
running program disturbs (R365; the marks are logs 12, 16). -/
def Obligations.TransferMicroinstructionsEmitTheirBytes : Prop :=
  (∀ w, EmitsBytes (.movSar w) [0xBC, 0x00, wordByte w 0, wordByte w 1, wordByte w 2, wordByte w 3] id)
  ∧ (∀ w, EmitsBytes (.movCcr w) [0xBC, 0x01, wordByte w 0, wordByte w 1, wordByte w 2, wordByte w 3] id)
  ∧ (∀ w, EmitsBytes (.movDar w) [0xBC, 0x02, wordByte w 0, wordByte w 1, wordByte w 2, wordByte w 3] id)
  ∧ EmitsBytes .ld [0x04] id ∧ EmitsBytes .lds [0x05] id ∧ EmitsBytes .ldb [0x07] id
  ∧ EmitsBytes .st [0x08] id ∧ EmitsBytes .sts [0x09] id ∧ EmitsBytes .stb [0x0B] id
  ∧ EmitsBytes .stz [0x0C] id
  ∧ (∀ p, p ≤ 31 →
      EmitsBytes (.stps p) [0x29, BitVec.ofNat 8 (p * 8)] id
      ∧ EmitsBytes (.stpb p) [0x2B, BitVec.ofNat 8 (p * 8)] id
      ∧ EmitsBytes (.flushp p) [0x35, BitVec.ofNat 8 (p * 8)] id
      ∧ EmitsBytes (.wfpSingle p) [0x30, BitVec.ofNat 8 (p * 8)] id
      ∧ EmitsBytes (.wfpBurst p) [0x32, BitVec.ofNat 8 (p * 8)] id
      ∧ EmitsBytes (.wfpPeriph p) [0x31, BitVec.ofNat 8 (p * 8)] id)

/-- R142 to R148: END, NOP, KILL, both GO, RMB, WMB and SEV, likewise. GO is emitted for the channels 0 to 7 of its 3-bit
field (R86, U7), whatever NUM_CHANNELS is, although R145 bounds the channel by NUM_CHANNELS − 1: the model's choice
between the two, log 19. -/
def Obligations.ControlMicroinstructionsEmitTheirBytes : Prop :=
  EmitsBytes .endp [0x00] id ∧ EmitsBytes .nop [0x18] id ∧ EmitsBytes .kill [0x01] id
  ∧ EmitsBytes .rmb [0x12] id ∧ EmitsBytes .wmb [0x13] id
  ∧ (∀ c a, c ≤ 7 →
      EmitsBytes (.goSecure c a)
        [0xA0, BitVec.ofNat 8 c, wordByte a 0, wordByte a 1, wordByte a 2, wordByte a 3] id
      ∧ EmitsBytes (.goNs c a)
        [0xA2, BitVec.ofNat 8 c, wordByte a 0, wordByte a 1, wordByte a 2, wordByte a 3] id)
  ∧ (∀ e, e ≤ 31 → EmitsBytes (.sev e) [0x34, BitVec.ofNat 8 (e * 8)] id)

/-- R140, R212: LP LC0 and LP LC1 append their bytes, and the counter's loop frame holds the offset after them. -/
def Obligations.LoopStartEmitsAndMarksItsFrame : Prop :=
  ∀ n, 1 ≤ n → n ≤ 256 →
    EmitsBytes (.lpLc0 n) [0x20, BitVec.ofNat 8 (n - 1)] (fun b => { b with frame0 := some b.off })
    ∧ EmitsBytes (.lpLc1 n) [0x22, BitVec.ofNat 8 (n - 1)] (fun b => { b with frame1 := some b.off })

/-- R141: LPEND LC0 and LPEND LC1 append their bytes, and the counter's loop frame is none again. That an LPEND handed to
the emitter's port is emitted, and clears its frame, also where no frame is open (R26 says only that the builder emits
none there) is the model's choice, log 19. -/
def Obligations.LoopEndEmitsAndClearsItsFrame : Prop :=
  ∀ d, d ≤ 255 →
    EmitsBytes (.lpendLc0 d) [0x38, BitVec.ofNat 8 d] (fun b => { b with frame0 := none })
    ∧ EmitsBytes (.lpendLc1 d) [0x3C, BitVec.ofNat 8 d] (fun b => { b with frame1 := none })

/-- R210: a microinstruction that does not fit is not written: the build fails with BufferOverflow, memory and the
accesses stay as they were, and the build is over. What still waits at the emitter's port is dropped with it: the model's
choice, log 19. -/
def Obligations.UnfittingMicroinstructionWritesNothing : Prop :=
  ∀ i s b, isMicro i = true → i.wf = true → s.build = some b → b.status = .building → b.cap < b.off + i.size →
    ∃ t, exec i s = .next t
      ∧ t.result = some (.bufferOverflow b.needed b.cap b.off)
      ∧ t.build = none ∧ t.emitPort = []
      ∧ { t with result := s.result, build := s.build, emitPort := s.emitPort } = s

/-- R110, U7: the model refuses an operand outside its domain, and an emit with no build in progress (R23, log 9). -/
def Obligations.EmitterRefusesWhatIsNeverPassed : Prop :=
  (∀ i s, isMicro i = true → i.wf = false → exec i s = .refused .operandOutOfDomain)
  ∧ (∀ i s, isMicro i = true → i.wf = true → s.build = none → exec i s = .refused .noBuildInProgress)

/-- R9, R62: with no transfer about, a stored byte reads back and every other byte stays; with transfers, likewise but for
the bytes the DMAC may write (R365, U1; logs 12, 16). A word is stored little-endian. -/
def Obligations.StoredBytesReadBack : Prop :=
  (∀ s a b v, s.issues = [] → byteAt (memWrite8 a v s) b = if b = a then some v else byteAt s b)
  ∧ (∀ s a v, storedBytes s (memWrite8 a v s) a [v] ∧ storeDisturbs s (memWrite8 a v s) a 1)
  ∧ (∀ s a v, storedBytes s (memWrite a 4 v s) a [wordByte v 0, wordByte v 1, wordByte v 2, wordByte v 3]
      ∧ storeDisturbs s (memWrite a 4 v s) a 4)

/-! ### The planner (42_planner.md) -/

/-- R172, R171, R333: BUILD of a request that fails a check returns the first failing check's cause in the order of the
table and changes nothing else; BUILD_ZF likewise with the checks of R185. -/
def Obligations.InvalidRequestChangesNothing : Prop :=
  (∀ s req bufBase cap cause, firstFailing (requestChecks s.cfg req bufBase cap) = some cause →
      exec (.build req bufBase cap) s = .next { s with result := some (.validationError cause) })
  ∧ (∀ s dst size bufBase cap cause, firstFailing (zeroFillChecks s.cfg dst size bufBase cap) = some cause →
      exec (.buildZf dst size bufBase cap) s = .next { s with result := some (.validationError cause) })

/-- R21, R171: the planner accepts exactly the requests whose fields are legal. -/
def Obligations.PlanAcceptsExactlyLegalRequests : Prop :=
  ∀ cfg req bufBase cap, (∃ P, plan cfg req bufBase cap = .ok P) ↔
    (req.bsz ≤ cfg.maxExp ∧ req.ssz ≤ req.bsz ∧ 1 ≤ req.blen ∧ req.blen ≤ 16
      ∧ (req.kind ≠ .mem2mem → req.periph ≤ 31)
      ∧ 2 ^ req.bsz ∣ req.src.toNat ∧ 2 ^ req.bsz ∣ req.dst.toNat
      ∧ req.size ≤ 2 ^ 32 - 1 ∧ bufBase.toNat + cap ≤ 2 ^ 32)

/-- R184: every loop count is encodable, no plan nests more than two frames, and the four totals of the phases, for a
request with its units B and S1 and for a zero fill with those of R7. -/
def Obligations.PlanCountsAndTotals : Prop :=
  (∀ cfg req bufBase cap P, plan cfg req bufBase cap = .ok P →
    planTotals P (2 ^ req.bsz * req.blen) (2 ^ req.ssz) req.size)
  ∧ (∀ cfg dst size bufBase cap P, planZf cfg dst size bufBase cap = .ok P →
    planTotals P (2 ^ cfg.maxExp * 16) 1 size)

/-- R182: the residual is the size modulo the single unit. -/
def Obligations.ResidualIsSizeModuloSingleUnit : Prop :=
  ∀ cfg req bufBase cap P, plan cfg req bufBase cap = .ok P → P.residual = req.size % 2 ^ req.ssz

/-- R181: the tail has at most one plan, and it has no outer loop. -/
def Obligations.TailIsAtMostOneSingleLoop : Prop :=
  ∀ cfg req bufBase cap P, plan cfg req bufBase cap = .ok P →
    P.tailPlans.length ≤ 1 ∧ ∀ p ∈ P.tailPlans, p.outer = none

/-- R174 to R178 with the layout of R42: every field of both channel control values of a valid request. -/
def Obligations.PlannedControlValueFields : Prop :=
  ∀ cfg req bufBase cap P, plan cfg req bufBase cap = .ok P →
    ∀ v e l, (v = P.ccrBurst ∧ e = req.bsz ∧ l = req.blen) ∨ (v = P.ccrTail ∧ e = req.ssz ∧ l = 1) →
      ccrSI v = (if req.kind = .periph2mem then 0 else 1)
      ∧ ccrDI v = (if req.kind = .mem2periph then 0 else 1)
      ∧ (ccrSB v).toNat = e ∧ (ccrDB v).toNat = e
      ∧ (ccrSL v).toNat + 1 = l ∧ (ccrDL v).toNat + 1 = l
      ∧ ccrSP v = (if req.security = .nonsecure then 0b010 else 0b000)
      ∧ ccrDP v = (if req.security = .nonsecure then 0b010 else 0b000)
      ∧ ccrSC v = (if req.cache = true ∧ req.kind ≠ .periph2mem then 7 else 1)
      ∧ ccrDC v = (if req.cache = true ∧ req.kind ≠ .mem2periph then 7 else 1)
      ∧ ccrES v = 0

/-- R185: the zero fill forces destination-only increment, with the geometry of R7 and the baseline fields. -/
def Obligations.ZeroFillControlValueFields : Prop :=
  ∀ cfg dst size bufBase cap P, planZf cfg dst size bufBase cap = .ok P →
    ∀ v e l, (v = P.ccrBurst ∧ e = cfg.maxExp ∧ l = 16) ∨ (v = P.ccrTail ∧ e = 0 ∧ l = 1) →
      ccrSI v = 0 ∧ ccrDI v = 1
      ∧ (ccrSB v).toNat = e ∧ (ccrDB v).toNat = e
      ∧ (ccrSL v).toNat + 1 = l ∧ (ccrDL v).toNat + 1 = l
      ∧ ccrSP v = 0 ∧ ccrDP v = 0 ∧ ccrSC v = 1 ∧ ccrDC v = 1 ∧ ccrES v = 0

/-! ### The builder (43_builder.md) -/

/-- R211 to R219: BUILD of a valid request with room for the program returns its record, the buffer holds exactly the
listing, every byte outside it stays, the bytes are written in rising order, and nothing else changes: but for the bytes
the DMAC may write and what a build into a running program disturbs (R365; logs 12, 16). -/
def Obligations.BuildLaysOutTheProgram : Prop :=
  ∀ s req bufBase cap P, plan s.cfg req bufBase cap = .ok P → requiredSize req ≤ cap →
    ∃ t, exec (.build req bufBase cap) s = .next t
      ∧ t.result = some (.okProgram ⟨bufBase, cap, requiredSize req, P.residual⟩)
      ∧ t.programs = ⟨⟨bufBase, cap, requiredSize req, P.residual⟩, requestRanges req⟩ :: s.programs
      ∧ (programBytes (expectedProgram req)).length = requiredSize req
      ∧ storedBytes s t bufBase (programBytes (expectedProgram req))
      ∧ storeDisturbs s t bufBase (requiredSize req)
      ∧ t.bus = s.bus ++ writeEvents bufBase (programBytes (expectedProgram req))
      ∧ t.build = none
      ∧ { t with mem := s.mem, build := s.build, bus := s.bus, wild := s.wild, issues := s.issues,
                 result := s.result, programs := s.programs } = s

/-- R220, R334: BUILD of a valid request without room writes whole microinstructions up to the first that does not fit,
returns no record, and reports what the program needs; bytes the DMAC may write and a running program as in the statement
before (logs 12, 16). -/
def Obligations.BuildStopsAtTheFirstOverflow : Prop :=
  ∀ s req bufBase cap P, plan s.cfg req bufBase cap = .ok P → cap < requiredSize req →
    ∃ t done i rest, exec (.build req bufBase cap) s = .next t
      ∧ expectedProgram req = done ++ i :: rest
      ∧ (programBytes done).length ≤ cap ∧ cap < (programBytes done).length + i.size
      ∧ t.result = some (.bufferOverflow (requiredSize req) cap (programBytes done).length)
      ∧ storedBytes s t bufBase (programBytes done)
      ∧ storeDisturbs s t bufBase (programBytes done).length
      ∧ t.bus = s.bus ++ writeEvents bufBase (programBytes done)
      ∧ t.build = none
      ∧ { t with mem := s.mem, build := s.build, bus := s.bus, wild := s.wild, issues := s.issues,
                 result := s.result } = s

/-- R223, R224 with R219 and R220: BUILD_ZF lays out the zero-fill program, or stops at the first overflow; bytes the DMAC
may write and a running program as for BUILD (logs 12, 16). -/
def Obligations.ZeroFillLaysOutOrOverflows : Prop :=
  ∀ s dst size bufBase cap P, planZf s.cfg dst size bufBase cap = .ok P →
    ∃ t done rest, exec (.buildZf dst size bufBase cap) s = .next t
      ∧ expectedZeroFill s.cfg dst size = done ++ rest
      ∧ storedBytes s t bufBase (programBytes done)
      ∧ storeDisturbs s t bufBase (programBytes done).length
      ∧ t.bus = s.bus ++ writeEvents bufBase (programBytes done)
      ∧ t.build = none
      ∧ { t with mem := s.mem, build := s.build, bus := s.bus, wild := s.wild, issues := s.issues,
                 result := s.result, programs := s.programs } = s
      ∧ (if requiredSizeZf s.cfg size ≤ cap then
          rest = [] ∧ (programBytes done).length = requiredSizeZf s.cfg size
          ∧ t.result = some (.okProgram ⟨bufBase, cap, requiredSizeZf s.cfg size, P.residual⟩)
          ∧ t.programs = ⟨⟨bufBase, cap, requiredSizeZf s.cfg size, P.residual⟩, ⟨none, dst, size⟩⟩ :: s.programs
        else
          (programBytes done).length ≤ cap
          ∧ (∃ i r, rest = i :: r ∧ cap < (programBytes done).length + i.size)
          ∧ t.result = some (.bufferOverflow (requiredSizeZf s.cfg size) cap (programBytes done).length)
          ∧ t.programs = s.programs)

/-- R222: whatever BUILD or BUILD_ZF writes, to the program's end or to the first overflow, decodes as microinstructions,
and every LPEND among them jumps back by 3, 4, 7, 8 or 11. -/
def Obligations.BackwardJumpsAreTheFiveDistances : Prop :=
  ∀ i s t bufBase, ((∃ req cap, i = .build req bufBase cap) ∨ ∃ dst size cap, i = .buildZf dst size bufBase cap) →
    exec i s = .next t →
    ∃ bs is, t.bus = s.bus ++ writeEvents bufBase bs
      ∧ decodeProgram bs.length bs = some is
      ∧ ∀ d, (.lpendLc0 d ∈ is ∨ .lpendLc1 d ∈ is) → d ∈ [3, 4, 7, 8, 11]

/-- R218, R225: END is a program's last instruction and stands nowhere else, FLUSHP stands at most once, and the builder
puts in none of NOP, KILL, GO, SEV, LDS, LDB, STS, STB and WFP periph; every instruction is well formed. -/
def Obligations.ProgramsEndOnceAndHoldNothingForeign : Prop :=
  ∀ is : List Instr,
    ((∃ cfg req bufBase cap P, plan cfg req bufBase cap = .ok P ∧ is = expectedProgram req)
      ∨ (∃ cfg dst size, is = expectedZeroFill cfg dst size)) →
    (∃ body, is = body ++ [.endp] ∧ .endp ∉ body)
    ∧ is.countP isFlushp ≤ 1
    ∧ (∀ i ∈ is, i.wf = true ∧ isMicro i = true
        ∧ i ≠ .nop ∧ i ≠ .kill ∧ i ≠ .lds ∧ i ≠ .ldb ∧ i ≠ .sts ∧ i ≠ .stb
        ∧ (∀ n a, i ≠ .goSecure n a ∧ i ≠ .goNs n a) ∧ (∀ n, i ≠ .sev n ∧ i ≠ .wfpPeriph n))

/-- R23, R26: a loop laid out in a running build with room for it leaves both frames none and the cursor past its bytes.
That the remaining count goes down at each loop's end, by what the loop moves, is the model's choice, log 27: R23 does not
say when it changes. -/
def Obligations.LoopLeavesNoFrameOpen : Prop :=
  ∀ k g unit p s b, s.build = some b → b.status = .building → b.frame0 = none → b.frame1 = none →
    b.off + loopLength k p ≤ b.cap →
    (runOps (loopOps k g unit p) s).build
      = some { b with off := b.off + loopLength k p, rem := b.rem - p.runs * unit }

/-! ### The state oracle (45_oracle_fault.md) -/

/-- R291, R292: the two maps, code by code. -/
def Obligations.OracleMapsAreAsTabled : Prop :=
  (List.range 16).map (fun n => mapState (BitVec.ofNat 4 n) false)
    = [.stopped, .executing, .cachemiss, .updtpc, .wfe, .atbarrier, .queuebusy, .wfp, .killing, .completing,
       .invalid, .invalid, .invalid, .invalid, .faultCompleting, .faulting]
  ∧ (List.range 16).map (fun n => mapState (BitVec.ofNat 4 n) true)
    = [.stopped, .executing, .cachemiss, .updtpc, .wfe, .invalid, .invalid, .invalid, .invalid, .invalid,
       .invalid, .invalid, .invalid, .invalid, .invalid, .faulting]

/-- R301, R302, R32: a read presents the DMAC's next answer as it is (the stream of answers is the model's, log 3), but for
two registers under ENV_PROTOCOL: the status of a channel (the statements after this one), unless another agent has
disturbed it, and DBGSTATUS, which is idle once its busy run is over, so that no busy run goes on for ever (how long it may
be is free, log 17). A disturbance lifts both (log 16). Every read uses up one answer, and is made at the register's offset.
-/
def Obligations.ReadsAreDrawsOfTheEnvironment : Prop :=
  (∀ base r s,
    (protocolOn s = false ∨ (∃ n, r = .csr n ∧ (chanEnv s n).lifted = true) ∨ (r ≠ .dbgStatus ∧ ∀ n, r ≠ .csr n) →
      (read32 base r s).1 = drawStream s 0)
    ∧ (read32 base .dbgStatus s).1 = dbgShown s 0 0
    ∧ answersUsed s (read32 base r s).2 1
    ∧ (read32 base r s).2.bus = s.bus ++ [.read32 (regAddr base r) (read32 base r s).1]
    ∧ (read32 base r s).2.dbgEnv
        = (if r = .dbgStatus then
            if dbgBusy (read32 base r s).1 = true then afterBusy s.dbgEnv 1 else afterIdle s.dbgEnv
          else s.dbgEnv))
  ∧ (∀ base s, protocolOn s = true →
      ∃ k, k ≤ s.dbgEnv.left
        ∧ dbgBusy (read32 base .dbgStatus ((fun u => (read32 base .dbgStatus u).2)^[k] s)).1 = false)
  ∧ (∀ (base : Word) (n : Nat),
      regAddr base .ds = base ∧ regAddr base .dpc = base + 0x004 ∧ regAddr base .inten = base + 0x020
      ∧ regAddr base .intEventRis = base + 0x024 ∧ regAddr base .intmis = base + 0x028
      ∧ regAddr base .intclr = base + 0x02C ∧ regAddr base .fsrd = base + 0x030 ∧ regAddr base .fsrc = base + 0x034
      ∧ regAddr base .ftrd = base + 0x038
      ∧ regAddr base (.ftr n) = base + BitVec.ofNat 32 (0x040 + 4 * n)
      ∧ regAddr base (.csr n) = base + BitVec.ofNat 32 (0x100 + 8 * n)
      ∧ regAddr base (.cpc n) = base + BitVec.ofNat 32 (0x104 + 8 * n)
      ∧ regAddr base (.sar n) = base + BitVec.ofNat 32 (0x400 + 0x20 * n)
      ∧ regAddr base (.dar n) = base + BitVec.ofNat 32 (0x404 + 0x20 * n)
      ∧ regAddr base (.ccr n) = base + BitVec.ofNat 32 (0x408 + 0x20 * n)
      ∧ regAddr base (.lc0 n) = base + BitVec.ofNat 32 (0x40C + 0x20 * n)
      ∧ regAddr base (.lc1 n) = base + BitVec.ofNat 32 (0x410 + 0x20 * n)
      ∧ regAddr base .dbgStatus = base + 0xD00 ∧ regAddr base .dbgCmd = base + 0xD04
      ∧ regAddr base .dbgInst0 = base + 0xD08 ∧ regAddr base .dbgInst1 = base + 0xD0C
      ∧ regAddr base (.cr n) = base + BitVec.ofNat 32 (0xE00 + 4 * n)
      ∧ regAddr base .crd = base + 0xE14 ∧ regAddr base .wd = base + 0xE80)

/-- R302: what may be read after a state is that state or any state along a path of the graph's moves. -/
def Obligations.AllowedStatesAreThePaths : Prop :=
  ∀ goSeen killSeen a b, protocolAllows goSeen killSeen a b = true ↔
    Relation.ReflTransGen (fun x y => protocolMove goSeen killSeen x y = true) a b

/-- R302: under ENV_PROTOCOL, undisturbed (logs 15, 16), a channel never reads INVALID. After a read it shows only a state
on a path from the last one, and every such state for some answer of the DMAC; at its first read, or after a state that
is not in the graph, it shows every state but INVALID for some answer. -/
def Obligations.ProtocolReadsFollowTheGraph : Prop :=
  ∀ s ctx, s.cfg.envProtocol = true → s.wild = false → (chanEnv s ctx.chan).lifted = false →
    ctx.isManager = false → ctx.chan < 8 →
    oracleShows ctx s ≠ .invalid
    ∧ chansBecome ctx (shownTo [oracleShows ctx s]) s (readState ctx s).2
    ∧ (∀ l, (chanEnv s ctx.chan).last = some l → l ≠ .invalid →
        Relation.ReflTransGen
          (fun x y => protocolMove (chanEnv s ctx.chan).goSeen (chanEnv s ctx.chan).killSeen x y = true)
          l (oracleShows ctx s)
        ∧ (∀ st, st ≠ .invalid →
          Relation.ReflTransGen
            (fun x y => protocolMove (chanEnv s ctx.chan).goSeen (chanEnv s ctx.chan).killSeen x y = true) l st →
          ∃ v, oracleShows ctx { s with draws := v :: s.draws } = st))
    ∧ ((chanEnv s ctx.chan).last = none ∨ (chanEnv s ctx.chan).last = some .invalid →
        ∀ st, st ≠ .invalid → ∃ v, oracleShows ctx { s with draws := v :: s.draws } = st)

/-! ### START (44_controller.md) -/

/-- R255 to R259: START on a free channel context whose channel reads STOPPED, with the debug interface idle after fewer
than DBG_POLL_LIMIT busy reads, injects GO on the manager thread and puts the context in flight. From here on the bytes the
transfer moves take any value, and with them every byte the DMAC may be writing: all ranges of a transfer whose ranges
overlap, or that overlaps a running program (R371; logs 12, 13). Everything not named stays; the record of the transfers is
the model's (log 25), as are the marks of a disturbance (log 16) and what is known of DBGSTATUS (log 17). That the transfer
moves the record's ranges, whatever its buffer holds and its request's security is, is logs 36 and 37. A register that a
transfer reaches into holds any value (R371, U14; log 40): where that is DBGINST0 before the injection, any one instruction
may have been injected in the GO's place. -/
def Obligations.StartInjectsGo : Prop :=
  ∀ s c ctx p k, s.ctxs[c]? = some ctx → ctx.isManager = false → ctx.chan < s.cfg.numChannels →
    (∃ e ∈ s.programs, e.record = p) → ctx.inflight = false →
    oracleShows ctx s = .stopped → idleAfter s 1 k → k < s.cfg.dbgPollLimit →
    ∃ t, exec (.start c p) s = .next t
      ∧ t.result = some .okUnit
      ∧ t.ctxs = s.ctxs.set c { ctx with progBase := p.base, inflight := true }
      ∧ t.bus = s.bus ++ [statusEvent ctx s]
          ++ injectEvents ctx true (encGo ctx.security ctx.chan p.base) (dbgAnswers s 1 k) (dbgShown s 1 k)
      ∧ answersUsed s t (k + 2)
      ∧ (regMay t .dbgInst0 = false →
          t.dmac.dbgInst0 = dbgInst0Word ctx.chan true (encGo ctx.security ctx.chan p.base))
      ∧ (regMay t .dbgInst1 = false → t.dmac.dbgInst1 = p.base)
      ∧ (regMay t .dbgCmd = false → t.dmac.dbgCmd = 0)
      ∧ otherRegsKept ctx t s t ∧ regsFree t t
      ∧ chansBecome ctx (shownTo [.stopped]) s (readState ctx s).2 ∧ oneNoted (readState ctx s).2 t
      ∧ (regMay (readState ctx s).2 .dbgInst0 = false →
          chansBecome ctx (fun e => { shownTo [.stopped] e with goSeen := true, ran := false }) s t)
      ∧ t.dbgEnv = { afterIdle s.dbgEnv with pending := true }
      ∧ (∀ e ∈ s.programs, e.record = p →
          ∀ a, inRange e.data.dst (e.data.size - p.residual) a = true → byteAt t a = none)
      ∧ t.issues = (newIssues s true c ctx.chan p ++ openIssues (readState ctx s).2 ctx.chan).map (markHazards t)
      ∧ onlyForgetsDma s t
      ∧ t.wild = (s.wild || transfersDisturb t)
      ∧ { t with draws := s.draws, drawCount := s.drawCount, dmac := s.dmac, chans := s.chans, dbgEnv := s.dbgEnv,
                 regFrees := s.regFrees, bus := s.bus, result := s.result, ctxs := s.ctxs, issues := s.issues, mem := s.mem,
                 wild := s.wild } = s

/-- R260: when the debug interface stays busy START returns Timeout, DBGCMD is not written, DBGINST0 and DBGINST1 keep the
GO, and the context is unchanged. The instruction that is pending may run as that GO (R369, U5): so the channel's entry has
seen it, and the program's transfers may be executing, though they are not open, with the bytes and the marks that R371 and
log 12 give them (logs 12, 13, 16, 25, 31, 36, 37); registers that a transfer reaches into are as in the statement before
(R371, U14; log 40). What is known of DBGSTATUS is log 17. -/
def Obligations.StartTimesOutOnBusyDebug : Prop :=
  ∀ s c ctx p, s.ctxs[c]? = some ctx → ctx.isManager = false → ctx.chan < s.cfg.numChannels →
    (∃ e ∈ s.programs, e.record = p) → ctx.inflight = false →
    oracleShows ctx s = .stopped → busyFor s 1 s.cfg.dbgPollLimit →
    ∃ t, exec (.start c p) s = .next t
      ∧ t.result = some (.timeout .debug s.cfg.dbgPollLimit)
      ∧ t.bus = s.bus ++ [statusEvent ctx s]
          ++ timeoutEvents ctx true (encGo ctx.security ctx.chan p.base)
            (dbgAnswers s 1 (s.cfg.dbgPollLimit - 1)) (dbgShown s 1 (s.cfg.dbgPollLimit - 1))
      ∧ answersUsed s t (s.cfg.dbgPollLimit + 1)
      ∧ (regMay t .dbgInst0 = false →
          t.dmac.dbgInst0 = dbgInst0Word ctx.chan true (encGo ctx.security ctx.chan p.base))
      ∧ (regMay t .dbgInst1 = false → t.dmac.dbgInst1 = p.base)
      ∧ (regMay t .dbgCmd = false → t.dmac.dbgCmd = s.dmac.dbgCmd)
      ∧ otherRegsKept ctx t s t ∧ regsFree t t
      ∧ chansBecome ctx (shownTo [.stopped]) s (readState ctx s).2 ∧ oneNoted (readState ctx s).2 t
      ∧ (regMay (readState ctx s).2 .dbgInst0 = false →
          chansBecome ctx (fun e => { shownTo [.stopped] e with goSeen := true, ran := false }) s t)
      ∧ t.dbgEnv = afterBusy s.dbgEnv s.cfg.dbgPollLimit
      ∧ t.issues = (newIssues s false c ctx.chan p ++ openIssues (readState ctx s).2 ctx.chan).map (markHazards t)
      ∧ (regMay (readState ctx s).2 .dbgInst0 = false → ∀ e ∈ s.programs, e.record = p →
          ∀ a, inRange e.data.dst (e.data.size - p.residual) a = true → byteAt t a = none)
      ∧ onlyForgetsDma s t
      ∧ t.wild = (s.wild || transfersDisturb t)
      ∧ { t with draws := s.draws, drawCount := s.drawCount, dmac := s.dmac, chans := s.chans, dbgEnv := s.dbgEnv,
                 regFrees := s.regFrees, bus := s.bus, result := s.result, issues := s.issues, mem := s.mem, wild := s.wild } = s

/-- R256: START on a context in flight returns BusyError with no state, and makes no access. -/
def Obligations.StartInFlightIsBusy : Prop :=
  ∀ s c ctx p, s.ctxs[c]? = some ctx → ctx.isManager = false → ctx.chan < s.cfg.numChannels →
    (∃ e ∈ s.programs, e.record = p) → ctx.inflight = true →
    exec (.start c p) s = .next { s with result := some (.busyError none) }

/-- Scenario C (R256): a START that returned Ok, then START again on the same context, returns BusyError without an
access, whatever the DMAC shows. -/
def Obligations.SecondStartIsBusy : Prop :=
  ∀ s c p q t, exec (.start c p) s = .next t → t.result = some .okUnit →
    (∃ e ∈ t.programs, e.record = q) →
    exec (.start c q) t = .next { t with result := some (.busyError none) }

/-- R257: START on a channel that does not read STOPPED returns BusyError with the state read, after that one read. -/
def Obligations.StartNeedsStopped : Prop :=
  ∀ s c ctx p, s.ctxs[c]? = some ctx → ctx.isManager = false → ctx.chan < s.cfg.numChannels →
    (∃ e ∈ s.programs, e.record = p) → ctx.inflight = false → oracleShows ctx s ≠ .stopped →
    ∃ t, exec (.start c p) s = .next t
      ∧ t.result = some (.busyError (some (oracleShows ctx s)))
      ∧ t.bus = s.bus ++ [statusEvent ctx s]
      ∧ answersUsed s t 1
      ∧ (∀ r, r ≠ statusReg ctx → getReg r t.dmac = getReg r s.dmac)
      ∧ chansBecome ctx (shownTo [oracleShows ctx s]) s t
      ∧ { t with draws := s.draws, drawCount := s.drawCount, dmac := s.dmac, chans := s.chans, bus := s.bus,
                 result := s.result } = s

/-- R255, R261, R268, R294: a context a command cannot use gives BAD_CONTEXT with no access. (A context the host never
created gives it too: log 10.) -/
def Obligations.UnusableContextIsRejected : Prop :=
  ∀ s c,
    ((∀ ctx, s.ctxs[c]? = some ctx → ctx.isManager = true ∨ s.cfg.numChannels ≤ ctx.chan) →
      (∀ p, exec (.start c p) s = .next { s with result := some (.validationError .badContext) })
      ∧ (∀ tmo, exec (.finish c tmo) s = .next { s with result := some (.validationError .badContext) }))
    ∧ ((∀ ctx, s.ctxs[c]? = some ctx → ctx.isManager = false ∧ s.cfg.numChannels ≤ ctx.chan) →
      exec (.poll c) s = .next { s with result := some (.validationError .badContext) }
      ∧ exec (.killCommand c) s = .next { s with result := some (.validationError .badContext) })

/-! ### POLL (44_controller.md) -/

/-- R268: POLL makes one read of the context's status register and returns the state it shows; on a channel context
whose channel the DMAC does not have it returns BAD_CONTEXT. -/
def Obligations.PollReadsTheStatusOnce : Prop :=
  ∀ s c ctx, s.ctxs[c]? = some ctx →
    if ctx.isManager = false ∧ s.cfg.numChannels ≤ ctx.chan then
      exec (.poll c) s = .next { s with result := some (.validationError .badContext) }
    else ∃ t, exec (.poll c) s = .next t
      ∧ t.result = some (.okState (oracleShows ctx s))
      ∧ t.bus = s.bus ++ [statusEvent ctx s]
      ∧ answersUsed s t 1
      ∧ (∀ r, r ≠ statusReg ctx → getReg r t.dmac = getReg r s.dmac)
      ∧ chansBecome ctx (shownTo [oracleShows ctx s]) s t
      ∧ { t with draws := s.draws, drawCount := s.drawCount, dmac := s.dmac, chans := s.chans, bus := s.bus,
                 result := s.result } = s

/-! ### KILL (44_controller.md) -/

/-- R262, R265: KILL in COMPLETING, KILLING or STOPPED makes one read and no write, clears the flag and returns Ok. In
STOPPED no byte of memory changes; otherwise the destination ranges of the killed channel's transfers take any value (R367):
of every transfer the model remembers of the channel (logs 12, 25), in all its ranges where they overlap (R371, U14; log
13). -/
def Obligations.KillOfAnEndingChannelIsANoOp : Prop :=
  ∀ s c ctx, s.ctxs[c]? = some ctx → (ctx.isManager = true ∨ ctx.chan < s.cfg.numChannels) →
    oracleShows ctx s ∈ [.completing, .killing, .stopped] →
    ∃ t, exec (.killCommand c) s = .next t
      ∧ t.result = some .okUnit
      ∧ t.ctxs = s.ctxs.set c { ctx with inflight := false }
      ∧ t.bus = s.bus ++ [statusEvent ctx s]
      ∧ answersUsed s t 1
      ∧ (∀ r, r ≠ statusReg ctx → getReg r t.dmac = getReg r s.dmac)
      ∧ chansBecome ctx (shownTo [oracleShows ctx s]) s t
      ∧ (oracleShows ctx s = .stopped → memoryKept s t ∧ onlyCloses c ctx s t)
      ∧ (oracleShows ctx s ≠ .stopped → onlyKills c ctx s t)
      ∧ { t with draws := s.draws, drawCount := s.drawCount, dmac := s.dmac, chans := s.chans, bus := s.bus,
                 result := s.result, ctxs := s.ctxs, mem := s.mem, issues := s.issues } = s

/-- R263, R367: KILL in any other state but FAULT_COMPLETING injects KILL on the context's own thread, clears the flag and
returns Ok; the destination ranges of the killed channel's transfers take any value: of every transfer the model remembers
of the channel (logs 12, 25), in all its ranges where they overlap (R371, U14; log 13). (What is known of DBGSTATUS is log
17.) Registers that a transfer reaches into hold any value, as for START (R371, U14; log 40). -/
def Obligations.KillInjectsKill : Prop :=
  ∀ s c ctx k, s.ctxs[c]? = some ctx → (ctx.isManager = true ∨ ctx.chan < s.cfg.numChannels) →
    oracleShows ctx s ∉ [.completing, .killing, .stopped, .faultCompleting] →
    idleAfter s 1 k → k < s.cfg.dbgPollLimit →
    ∃ t, exec (.killCommand c) s = .next t
      ∧ t.result = some .okUnit
      ∧ t.ctxs = s.ctxs.set c { ctx with inflight := false }
      ∧ t.bus = s.bus ++ [statusEvent ctx s]
          ++ injectEvents ctx ctx.isManager [0x01, 0, 0, 0, 0, 0] (dbgAnswers s 1 k) (dbgShown s 1 k)
      ∧ answersUsed s t (k + 2)
      ∧ (regMay (readState ctx s).2 .dbgInst0 = false →
          t.dmac.dbgInst0 = dbgInst0Word ctx.chan ctx.isManager [0x01, 0, 0, 0, 0, 0])
      ∧ (regMay (readState ctx s).2 .dbgInst1 = false → t.dmac.dbgInst1 = 0)
      ∧ (regMay (readState ctx s).2 .dbgCmd = false → t.dmac.dbgCmd = 0)
      ∧ otherRegsKept ctx (readState ctx s).2 s t ∧ regsFree (readState ctx s).2 t
      ∧ chansBecome ctx (shownTo [oracleShows ctx s]) s (readState ctx s).2 ∧ oneNoted (readState ctx s).2 t
      ∧ (regMay (readState ctx s).2 .dbgInst0 = false →
          chansBecome ctx (fun e => { shownTo [oracleShows ctx s] e with killSeen := true }) s t)
      ∧ t.dbgEnv = { afterIdle s.dbgEnv with pending := true }
      ∧ onlyKills c ctx s t
      ∧ { t with draws := s.draws, drawCount := s.drawCount, dmac := s.dmac, chans := s.chans, dbgEnv := s.dbgEnv,
                 regFrees := s.regFrees, bus := s.bus, result := s.result, ctxs := s.ctxs, mem := s.mem, issues := s.issues } = s

/-- R264: when the debug interface stays busy KILL returns Timeout and leaves the flag; DBGCMD is not written, and DBGINST0
and DBGINST1 keep the KILL (R337). The instruction that is pending may run as that KILL (R369, U5; log 31): so the channel's
entry has seen it, and the destination ranges of the channel's transfers take any value, as after a KILL (logs 12, 13, 25).
(What is known of DBGSTATUS is log 17.) Registers that a transfer reaches into hold any value, as for START (R371, U14; log
40). -/
def Obligations.KillTimesOutOnBusyDebug : Prop :=
  ∀ s c ctx, s.ctxs[c]? = some ctx → (ctx.isManager = true ∨ ctx.chan < s.cfg.numChannels) →
    oracleShows ctx s ∉ [.completing, .killing, .stopped, .faultCompleting] →
    busyFor s 1 s.cfg.dbgPollLimit →
    ∃ t, exec (.killCommand c) s = .next t
      ∧ t.result = some (.timeout .debug s.cfg.dbgPollLimit)
      ∧ t.bus = s.bus ++ [statusEvent ctx s]
          ++ timeoutEvents ctx ctx.isManager [0x01, 0, 0, 0, 0, 0]
            (dbgAnswers s 1 (s.cfg.dbgPollLimit - 1)) (dbgShown s 1 (s.cfg.dbgPollLimit - 1))
      ∧ answersUsed s t (s.cfg.dbgPollLimit + 1)
      ∧ (regMay (readState ctx s).2 .dbgInst0 = false →
          t.dmac.dbgInst0 = dbgInst0Word ctx.chan ctx.isManager [0x01, 0, 0, 0, 0, 0])
      ∧ (regMay (readState ctx s).2 .dbgInst1 = false → t.dmac.dbgInst1 = 0)
      ∧ (regMay (readState ctx s).2 .dbgCmd = false → t.dmac.dbgCmd = s.dmac.dbgCmd)
      ∧ otherRegsKept ctx (readState ctx s).2 s t ∧ regsFree (readState ctx s).2 t
      ∧ chansBecome ctx (shownTo [oracleShows ctx s]) s (readState ctx s).2 ∧ oneNoted (readState ctx s).2 t
      ∧ (regMay (readState ctx s).2 .dbgInst0 = false →
          chansBecome ctx (fun e => { shownTo [oracleShows ctx s] e with killSeen := true }) s t)
      ∧ t.dbgEnv = afterBusy s.dbgEnv s.cfg.dbgPollLimit
      ∧ onlyDisturbs s t (fun i => !ctx.isManager && i.chan == ctx.chan)
      ∧ { t with draws := s.draws, drawCount := s.drawCount, dmac := s.dmac, chans := s.chans, dbgEnv := s.dbgEnv,
                 regFrees := s.regFrees, bus := s.bus, result := s.result, mem := s.mem, issues := s.issues } = s

/-- R261, R264: KILL waits FAULT_COMPLETING out. With `s1` the state after the first read: when, after `k` polls that show
neither FAULTING nor KILLING, `k` below KILL_WAIT_LIMIT, a poll shows one of them, KILL does from there what it does on a
channel that shows it at once (the statements above: KILLING ends it, FAULTING goes on to inject), after the accesses of
the first read and the `k` polls; when KILL_WAIT_LIMIT polls show neither, it returns Timeout, changes no context, and
leaves nothing changed but by its reads. -/
def Obligations.KillWaitsOutFaultCompleting : Prop :=
  ∀ s c ctx s1, s.ctxs[c]? = some ctx → (ctx.isManager = true ∨ ctx.chan < s.cfg.numChannels) →
    oracleShows ctx s = .faultCompleting → s1 = (readState ctx s).2 →
    (∀ k, (∀ j, j < k → polled ctx j s1 ∉ [.faulting, .killing]) → k < s.cfg.killWaitLimit →
      polled ctx k s1 ∈ [.faulting, .killing] →
      exec (.killCommand c) s = exec (.killCommand c) (afterPolls ctx k s1)
      ∧ oracleShows ctx (afterPolls ctx k s1) = polled ctx k s1
      ∧ (afterPolls ctx k s1).ctxs = s.ctxs ∧ (afterPolls ctx k s1).cfg = s.cfg
      ∧ (afterPolls ctx k s1).bus = s.bus ++ [statusEvent ctx s] ++ pollEvents ctx k s1)
    ∧ ((∀ j, j < s.cfg.killWaitLimit → polled ctx j s1 ∉ [.faulting, .killing]) →
      ∃ t, exec (.killCommand c) s = .next t
        ∧ t.result = some (.timeout .killWait s.cfg.killWaitLimit)
        ∧ t.bus = s.bus ++ [statusEvent ctx s] ++ pollEvents ctx (s.cfg.killWaitLimit - 1) s1
            ++ [statusEvent ctx (afterPolls ctx (s.cfg.killWaitLimit - 1) s1)]
        ∧ answersUsed s t (s.cfg.killWaitLimit + 1)
        ∧ (∀ r, r ≠ statusReg ctx → getReg r t.dmac = getReg r s.dmac)
        ∧ chansBecome ctx (shownTo (.faultCompleting :: polledStates ctx s.cfg.killWaitLimit s1)) s t
        ∧ { t with draws := s.draws, drawCount := s.drawCount, dmac := s.dmac, chans := s.chans, bus := s.bus,
                   result := s.result } = s)

/-! ### FINISH (45_oracle_fault.md) -/

/-- R295, R296: FINISH whose poll after `k` others is the first to show STOPPED or FAULTING, and shows STOPPED, returns Ok
and clears the flag. With a bound `t` it makes at most max(t, 1) polls; without one a command makes one poll a step (log
14). What the transfer moved is any value (log 12). -/
def Obligations.FinishEndsAtStopped : Prop :=
  ∀ s c ctx tmo k, s.ctxs[c]? = some ctx → ctx.isManager = false → ctx.chan < s.cfg.numChannels →
    (match tmo with | some t => k < max t 1 | none => k = 0) →
    (∀ j, j < k → polled ctx j s ∉ [.stopped, .faulting]) → polled ctx k s = .stopped →
    ∃ u, exec (.finish c tmo) s = .next u
      ∧ u.result = some .okUnit
      ∧ u.ctxs = s.ctxs.set c { ctx with inflight := false }
      ∧ u.bus = s.bus ++ pollEvents ctx k s ++ [statusEvent ctx (afterPolls ctx k s)]
      ∧ answersUsed s u (k + 1)
      ∧ (∀ r, r ≠ statusReg ctx → getReg r u.dmac = getReg r s.dmac)
      ∧ chansBecome ctx (shownTo (polledStates ctx (k + 1) s)) s u
      ∧ onlyForgets s u (fun i => i.isOpen && closedBy c ctx i) movedLength
      ∧ onlyCloses c ctx s u
      ∧ { u with draws := s.draws, drawCount := s.drawCount, dmac := s.dmac, chans := s.chans, bus := s.bus,
                 result := s.result, ctxs := s.ctxs, mem := s.mem, issues := s.issues } = s

/-- R297, R298, R300, R336: FINISH whose first ending poll shows FAULTING reads FTR, then CPC, clears the flag and returns
FaultError with the offset modulo 2^32, both raw words and the decoded names. With a bound `t` that poll is one of the
first max(t, 1); without one, `k` is 0, because a command makes one poll a step (log 14). What the transfer moved is any
value (log 12). -/
def Obligations.FinishReportsTheFault : Prop :=
  ∀ s c ctx tmo k, s.ctxs[c]? = some ctx → ctx.isManager = false → ctx.chan < s.cfg.numChannels →
    (match tmo with | some t => k < max t 1 | none => k = 0) →
    (∀ j, j < k → polled ctx j s ∉ [.stopped, .faulting]) → polled ctx k s = .faulting →
    ∃ u, exec (.finish c tmo) s = .next u
      ∧ u.result = some (.faultError (drawStream s (k + 2) - ctx.progBase) (drawStream s (k + 1))
          (drawStream s (k + 2)) (decodeFtr (drawStream s (k + 1))))
      ∧ u.ctxs = s.ctxs.set c { ctx with inflight := false }
      ∧ u.bus = s.bus ++ pollEvents ctx k s ++ [statusEvent ctx (afterPolls ctx k s),
          .read32 (regAddr ctx.regBase (.ftr ctx.chan)) (drawStream s (k + 1)),
          .read32 (regAddr ctx.regBase (.cpc ctx.chan)) (drawStream s (k + 2))]
      ∧ answersUsed s u (k + 3)
      ∧ (∀ r, r ≠ statusReg ctx → r ≠ .ftr ctx.chan → r ≠ .cpc ctx.chan → getReg r u.dmac = getReg r s.dmac)
      ∧ chansBecome ctx (shownTo (polledStates ctx (k + 1) s)) s u
      ∧ onlyForgets s u (fun i => i.isOpen && closedBy c ctx i) movedLength
      ∧ onlyCloses c ctx s u
      ∧ { u with draws := s.draws, drawCount := s.drawCount, dmac := s.dmac, chans := s.chans, bus := s.bus,
                 result := s.result, ctxs := s.ctxs, mem := s.mem, issues := s.issues } = s

/-- R295, R337: FINISH with a bound whose polls all show neither STOPPED nor FAULTING returns Timeout after max(t, 1) of
them and changes no context and no memory. -/
def Obligations.FinishTimesOut : Prop :=
  ∀ s c ctx t, s.ctxs[c]? = some ctx → ctx.isManager = false → ctx.chan < s.cfg.numChannels →
    (∀ j, j < max t 1 → polled ctx j s ∉ [.stopped, .faulting]) →
    ∃ u, exec (.finish c (some t)) s = .next u
      ∧ u.result = some (.timeout .finish (max t 1))
      ∧ u.bus = s.bus ++ pollEvents ctx (max t 1 - 1) s ++ [statusEvent ctx (afterPolls ctx (max t 1 - 1) s)]
      ∧ answersUsed s u (max t 1)
      ∧ (∀ r, r ≠ statusReg ctx → getReg r u.dmac = getReg r s.dmac)
      ∧ chansBecome ctx (shownTo (polledStates ctx (max t 1) s)) s u
      ∧ { u with draws := s.draws, drawCount := s.drawCount, dmac := s.dmac, chans := s.chans, bus := s.bus,
                 result := s.result } = s

/-- R295, U15: FINISH without a bound polls as long as it is shown neither STOPPED nor FAULTING: each step is one poll and a
delay, no result is returned, and the command stays active (log 14); nothing changes but by the reads. -/
def Obligations.UnboundedFinishKeepsPolling : Prop :=
  ∀ n s c ctx, s.active = some (.finish c none) → s.ctxs[c]? = some ctx → ctx.isManager = false →
    ctx.chan < s.cfg.numChannels → (∀ j, j < n + 1 → polled ctx j s ∉ [.stopped, .faulting]) →
    ∃ u, Host.Core.run Sys2Proof.core (n + 1) s = .next u
      ∧ u.active = some (.finish c none) ∧ u.result = none
      ∧ u.bus = s.bus ++ pollEvents ctx (n + 1) s
      ∧ answersUsed s u (n + 1)
      ∧ (∀ r, r ≠ statusReg ctx → getReg r u.dmac = getReg r s.dmac)
      ∧ chansBecome ctx (shownTo (polledStates ctx (n + 1) s)) s u
      ∧ { u with draws := s.draws, drawCount := s.drawCount, dmac := s.dmac, chans := s.chans, bus := s.bus,
                 result := s.result } = s

/-- R298: the decoded set holds exactly the names of the bits that are 1, RESERVED for the bits the table leaves out. -/
def Obligations.FaultNamesAreTheSetBits : Prop :=
  (∀ v k, k < 32 → (ftrBitName k ∈ decodeFtr v ↔ v.getLsbD k = true))
  ∧ (∀ v f, f ∈ decodeFtr v → ∃ k, k < 32 ∧ f = ftrBitName k)
  ∧ ([0, 1, 5, 6, 7, 12, 13, 16, 17, 18, 30, 31].map ftrBitName
      = [.undefInstr, .operandInvalid, .chEvntErr, .chPeriphErr, .chRdwrErr, .mfifoErr, .stDataUnavailable,
         .instrFetchErr, .dataWriteErr, .dataReadErr, .dbgInstr, .lockupErr])
  ∧ (∀ k, k ∉ [0, 1, 5, 6, 7, 12, 13, 16, 17, 18, 30, 31] → ftrBitName k = .reserved k)

/-- R251, R252: the two debug words, field by field; the second is the start address for GO and 0 for KILL. -/
def Obligations.DebugWordsHoldTheInstruction : Prop :=
  ∀ chan toManager b0 b1 b2 b3 b4 b5, chan < 8 →
    let w0 := dbgInst0Word chan toManager [b0, b1, b2, b3, b4, b5]
    let w1 := dbgInst1Word [b0, b1, b2, b3, b4, b5]
    w0.extractLsb' 16 8 = b0 ∧ w0.extractLsb' 24 8 = b1
    ∧ w0.extractLsb' 0 1 = (if toManager then 0 else 1)
    ∧ (w0.extractLsb' 8 3).toNat = (if toManager then 0 else chan)
    ∧ w0.extractLsb' 1 7 = 0 ∧ w0.extractLsb' 11 5 = 0
    ∧ w1.extractLsb' 0 8 = b2 ∧ w1.extractLsb' 8 8 = b3 ∧ w1.extractLsb' 16 8 = b4 ∧ w1.extractLsb' 24 8 = b5
    ∧ (∀ sec addr, dbgInst1Word (encGo sec chan addr) = addr) ∧ dbgInst1Word killBytes = 0

/-! ### The whole machine -/

/-- The invariant of the machine is kept by every step (R24, R27, R28, R61, R219). -/
def Obligations.EveryStepKeepsTheInvariant : Prop :=
  ∀ s t, StateWf s → step s = .next t → StateWf t

/-- The invariant holds at reset. -/
def Obligations.ResetMeetsTheInvariant : Prop := StateWf State.reset

/-- R20: no step changes the configuration. -/
def Obligations.NoStepChangesTheConfiguration : Prop :=
  ∀ s t, step s = .next t → t.cfg = s.cfg

/-- R43, R61, R38: whatever a step does, it only adds accesses, and only accesses the block may make: bytes inside the
buffer of the step's build, reads and writes of the registers R43 lists at their offsets. -/
def Obligations.EveryAccessIsOneTheBlockMayMake : Prop :=
  ∀ s t, StateWf s → step s = .next t →
    ∃ ev, t.bus = s.bus ++ ev ∧ ∀ e ∈ ev, accessLegal s e

/-- R28: the flag of a context rises only in a step that runs START on it and returns Ok, and falls only in one that runs
FINISH on it and returns Ok or FaultError, or KILL on it and returns Ok. -/
def Obligations.InflightChangesOnlyAsStated : Prop :=
  ∀ s t c ctx ctx', step s = .next t → s.ctxs[c]? = some ctx → t.ctxs[c]? = some ctx' →
    (ctx.inflight = false → ctx'.inflight = true →
      ∃ p s', fetch s = .run (.start c p) s' ∧ t.result = some .okUnit ∧ ctx'.progBase = p.base)
    ∧ (ctx.inflight = true → ctx'.inflight = false →
      (∃ tmo s', fetch s = .run (.finish c tmo) s'
        ∧ (t.result = some .okUnit ∨ ∃ o f q ns, t.result = some (.faultError o f q ns)))
      ∨ (∃ s', fetch s = .run (.killCommand c) s' ∧ t.result = some .okUnit))

/-- R332 with the numbers of R330 and R331: no command returns an error outside its row of the table. That FINISH without a
bound may have no result out yet and stay active is the model's choice, log 14. -/
def Obligations.CommandsReturnOnlyTheirOwnErrors : Prop :=
  (∀ st p cause n k a ost o f q ns w, resultCode .okUnit = 0 ∧ resultCode (.okState st) = 0
    ∧ resultCode (.okProgram p) = 0 ∧ resultCode (.validationError cause) = 1
    ∧ resultCode (.bufferOverflow n k a) = 2 ∧ resultCode (.busyError ost) = 3
    ∧ resultCode (.faultError o f q ns) = 4 ∧ resultCode (.timeout w n) = 5 ∧ resultCode .refused = 0xFF)
  ∧ ([Cause.badBurstSize, .badSingleSize, .badBurstLen, .badPeriph, .misalignedSrc, .misalignedDst, .badSize, .badBuffer,
      .badContext].map causeCode = [1, 2, 3, 4, 5, 6, 7, 8, 9])
  ∧ (∀ s t req bufBase cap, exec (.build req bufBase cap) s = .next t →
    (∃ p, t.result = some (.okProgram p)) ∨ (∃ cause, cause ≠ .badContext ∧ t.result = some (.validationError cause))
    ∨ (∃ n k a, t.result = some (.bufferOverflow n k a)))
  ∧ (∀ s t dst size bufBase cap, exec (.buildZf dst size bufBase cap) s = .next t →
    (∃ p, t.result = some (.okProgram p))
    ∨ (∃ cause ∈ [Cause.misalignedDst, .badSize, .badBuffer], t.result = some (.validationError cause))
    ∨ (∃ n k a, t.result = some (.bufferOverflow n k a)))
  ∧ (∀ s t c p, exec (.start c p) s = .next t →
    t.result = some .okUnit ∨ t.result = some (.validationError .badContext)
    ∨ (∃ st, t.result = some (.busyError st)) ∨ (∃ n, t.result = some (.timeout .debug n)))
  ∧ (∀ s t c, exec (.poll c) s = .next t →
    (∃ st, t.result = some (.okState st)) ∨ t.result = some (.validationError .badContext))
  ∧ (∀ s t c tmo, exec (.finish c tmo) s = .next t →
    t.result = some .okUnit ∨ t.result = some (.validationError .badContext)
    ∨ (∃ o f q ns, t.result = some (.faultError o f q ns))
    ∨ (∃ n, tmo ≠ none ∧ t.result = some (.timeout .finish n))
    ∨ (tmo = none ∧ t.result = none ∧ t.active = some (.finish c none)))
  ∧ (∀ s t c, exec (.killCommand c) s = .next t →
    t.result = some .okUnit ∨ t.result = some (.validationError .badContext)
    ∨ (∃ n, t.result = some (.timeout .killWait n)) ∨ (∃ n, t.result = some (.timeout .debug n)))

/-- R338: the block never halts. No instruction faults; BUILD, BUILD_ZF, POLL, FINISH and KILL always give a next state
(FINISH without a bound perhaps one in which it is still active: log 14); so does START for every record a build has
returned. A record no build has returned, which R255 says cannot be passed, the model refuses by name when the context is
usable (log 21). -/
def Obligations.CommandsAlwaysAnswer : Prop :=
  (∀ i s f, exec i s ≠ .fault f)
  ∧ (∀ i s, isMicro i = false → (∀ c p, i ≠ .start c p) → ∃ t, exec i s = .next t)
  ∧ (∀ s c p, (∃ e ∈ s.programs, e.record = p) → ∃ t, exec (.start c p) s = .next t)
  ∧ (∀ s c ctx p, s.ctxs[c]? = some ctx → ctx.isManager = false → ctx.chan < s.cfg.numChannels →
      (∀ e ∈ s.programs, e.record ≠ p) → exec (.start c p) s = .refused .foreignProgram)

/-- U1 (R69, R365): a host write (an event of the model's, log 18) into the program of an open transfer, one that START has
issued with Ok and no FINISH or KILL has closed, lifts
ENV_PROTOCOL from every later read (log 16), and every byte of the transfer's destination takes any value, all its ranges
where they overlap (R371, U14; log 13); any other host write changes its one byte, unless the DMAC may be writing there
(log 12). Once lifted, ENV_PROTOCOL stays lifted. -/
def Obligations.MutatingARunningProgramLiftsTheProtocol : Prop :=
  (∀ s rest a v, s.active = none → s.emitPort = [] → s.inbox = .hostWrite a v :: rest →
    ∃ t, step s = .next t ∧ t.bus = s.bus
      ∧ (∀ i ∈ s.issues, i.isOpen = true → inRange i.record.base i.record.length a = true →
          protocolOn t = false ∧ ∀ b, inRange i.data.dst i.data.size b = true → byteAt t b = none)
      ∧ storedBytes s t a [v]
      ∧ storeDisturbs s t a 1
      ∧ { t with mem := s.mem, wild := s.wild, issues := s.issues, inbox := s.inbox } = s)
  ∧ (∀ s t, s.wild = true → step s = .next t → t.wild = true)
  ∧ (∀ s, s.wild = true → protocolOn s = false)

/-- U3 (R366): another agent's write of a DMAC register (an event of the model's, log 18) reaches that register only. Where
the register belongs to a channel of the DMAC that may be active (a transfer open, or not known to have come to rest: log
32), ENV_PROTOCOL is lifted from that channel's status reads, from no other's, and the destination ranges of the channel's
transfers take any value, all ranges where they overlap (R371, U14; log 13). A write of DBGCMD with command 0 starts the
instruction DBGINST0 and DBGINST1 hold (R66), which is pending from then on; a write of DBGINST0 or DBGINST1 while one may
be pending may make it run with the new bytes (R369, U5; log 31): either way ENV_PROTOCOL notes a GO or KILL (R302), and a
KILL of a channel that may be active disturbs the channel's transfers (U2). A reserved command starts nothing (log 31). A GO
is told by byte 0 and bits [2:0] of byte 1, and other instructions note nothing (log 35). Which registers belong to a channel
is log 39, that the banks have eight entries is log 38. A register that a transfer reaches into holds any value (R371, U14;
log 40), DBGINST0 too, and the instruction noted is the one it holds then. -/
def Obligations.AgentWritesDisturbOnlyTheirChannel : Prop :=
  ∀ s rest r v, s.active = none → s.emitPort = [] → s.inbox = .agentWrite r v :: rest →
    ∃ t, step s = .next t ∧ t.bus = s.bus
      ∧ (∀ q, q ≠ r → regMay s q = false → getReg q t.dmac = getReg q s.dmac)
      ∧ (inBank r = true → regMay s r = false → getReg r t.dmac = regField r v) ∧ regsFree s t
      ∧ (∀ n, n < s.cfg.numChannels → regChannel r = some n →
          ((∃ i ∈ s.issues, i.isOpen = true ∧ i.chan = n) ∨ (chanEnv s n).last ≠ some .stopped) →
          chanActive s n = true)
      ∧ (∀ n, regChannel r = some n → chanActive s n = true → chanProtocol t n = false
          ∧ ∀ i ∈ s.issues, i.chan = n → ∀ b, inRange i.data.dst i.data.size b = true → byteAt t b = none)
      ∧ (∀ n, n < 8 → chanEnv t n =
          { last := (chanEnv s n).last
            goSeen := (chanEnv s n).goSeen || startsGo s r v t.dmac.dbgInst0 n
            killSeen := (chanEnv s n).killSeen || startsKill s r v t.dmac.dbgInst0 n
            ran := (chanEnv s n).ran && !startsGo s r v t.dmac.dbgInst0 n
            lifted := (chanEnv s n).lifted || (regChannel r == some n && chanActive s n) })
      ∧ t.dbgEnv = { s.dbgEnv with pending := s.dbgEnv.pending || (r == .dbgCmd && v.extractLsb' 0 2 == 0) }
      ∧ onlyDisturbs s t (fun i => chanActive s i.chan
          && (regChannel r == some i.chan || startsKill s r v t.dmac.dbgInst0 i.chan))
      ∧ { t with dmac := s.dmac, regFrees := s.regFrees, chans := s.chans, dbgEnv := s.dbgEnv, mem := s.mem, issues := s.issues,
                 inbox := s.inbox } = s

/-- R362: a reset of the DMAC outside the block's knowledge (an event of the model's, log 18) leaves every field of the block
as it is, every flag in flight too: only the DMAC's registers and what is known of the DMAC are as at launch. That they are
the very launch values again is logs 4, 17 and 34; that a channel another agent disturbed stays so is log 16. With nothing to do
a step changes nothing (logs 8, 23). -/
def Obligations.DmacResetAndIdlingKeepTheBlock : Prop :=
  (∀ s rest, s.active = none → s.emitPort = [] → s.inbox = .dmacReset :: rest →
    step s = .next { s with
      dmac := launchRegs
      chans := Vector.ofFn fun n => { last := none, goSeen := Config.launchGo n.val, killSeen := Config.launchKill n.val,
                                      ran := false, lifted := (chanEnv s n.val).lifted }
      dbgEnv := ⟨Config.busyRun 0, 1, true⟩
      inbox := rest })
  ∧ (∀ s, s.active = none → s.emitPort = [] → s.inbox = [] → step s = .next s)
end

