-- ==== Sys2Proof/Laws/Encoding.lean ====
section
/-! SUPPORT. The operand domains of R86 as inequalities, and the fields of an encoding: a number written into a field is
the number read from it, and the other way round (R81 to R85). -/

namespace Sys2Proof

/-! ### Operand domains -/

theorem periphOk_iff (p : Nat) : periphOk p = true ↔ p ≤ 31 := decide_eq_true_iff
theorem bjumpOk_iff (d : Nat) : bjumpOk d = true ↔ d ≤ 255 := decide_eq_true_iff
theorem chanOk_iff (c : Nat) : chanOk c = true ↔ c ≤ 7 := decide_eq_true_iff
theorem eventOk_iff (e : Nat) : eventOk e = true ↔ e ≤ 31 := decide_eq_true_iff
theorem countOk_iff (n : Nat) : countOk n = true ↔ 1 ≤ n ∧ n ≤ 256 := by
  unfold countOk Config.loopMax
  simp

/-! ### Fields -/

/-- The 5-bit number of an F2P byte 1 (R81): it reads back, and the low three bits are 0. -/
theorem fieldHi5_reads {p : Nat} (h : p ≤ 31) :
    (fieldHi5 p).extractLsb' 0 3 = 0 ∧ (fieldHi5 p >>> 3).toNat = p := by
  interval_cases p <;> decide

/-- An F2P byte 1 with its low three bits 0 is the field of the number it holds. -/
theorem fieldHi5_of_byte (b : Byte) (h : b.extractLsb' 0 3 = 0) :
    (b >>> 3).toNat ≤ 31 ∧ fieldHi5 (b >>> 3).toNat = b := by
  revert b
  decide

/-- The 3-bit channel of GO's byte 1 (R86): it reads back, and the high five bits are 0. -/
theorem goByte_reads {c : Nat} (h : c ≤ 7) :
    (BitVec.ofNat 8 c).extractLsb' 3 5 = 0 ∧ (BitVec.ofNat 8 c).toNat = c := by
  interval_cases c <;> decide

/-- A GO byte 1 with its high five bits 0 holds a channel number. -/
theorem goByte_of_byte (b : Byte) (h : b.extractLsb' 3 5 = 0) : b.toNat ≤ 7 := by
  revert b
  decide

/-- A little-endian immediate reads back (R83). -/
theorem leWord_wordBytes (w : Word) :
    leWord (wordByte w 0) (wordByte w 1) (wordByte w 2) (wordByte w 3) = w := by
  apply BitVec.eq_of_getLsbD_eq
  intro i hi
  simp only [leWord, wordByte, BitVec.getLsbD_append, BitVec.getLsbD_extractLsb']
  interval_cases i <;> simp

/-- Four bytes are the bytes of the immediate they make (R83). -/
theorem wordBytes_leWord (b0 b1 b2 b3 : Byte) : wordBytes (leWord b0 b1 b2 b3) = [b0, b1, b2, b3] := by
  simp only [wordBytes, List.cons.injEq, and_true]
  refine ⟨?_, ?_, ?_, ?_⟩ <;>
  · apply BitVec.eq_of_getLsbD_eq
    intro i hi
    simp only [wordByte, leWord, BitVec.getLsbD_append, BitVec.getLsbD_extractLsb']
    interval_cases i <;> simp

/-- A byte is the numeral of its value. -/
theorem byte_of_toNat {b : Byte} {n : Nat} (h : b.toNat = n) : b = BitVec.ofNat 8 n := by
  subst h
  simp

end Sys2Proof

namespace Sys2Proof.Machine

/-- No microinstruction is empty (R80). -/
theorem size_pos {i : Instr} (h : isMicro i = true) : 0 < i.size := by
  cases i <;> first | (simp [isMicro] at h; done) | simp [Instr.size]

end Sys2Proof.Machine
end

