-- ==== Sys2Proof/Laws/State.lean ====
section
/-! SUPPORT. One lemma per field per update of State: what each named operation leaves in each field, so that no later
proof unfolds a record update. A field that an operation's heading names has its own lemma elsewhere where its value is
more than one term. -/

namespace Sys2Proof.Machine

/-! ### `deliver`: the result port -/

@[simp] theorem deliver_cfg (r : Result) (s : State) :
    (deliver r s).cfg = s.cfg := rfl
@[simp] theorem deliver_mem (r : Result) (s : State) :
    (deliver r s).mem = s.mem := rfl
@[simp] theorem deliver_dmac (r : Result) (s : State) :
    (deliver r s).dmac = s.dmac := rfl
@[simp] theorem deliver_chans (r : Result) (s : State) :
    (deliver r s).chans = s.chans := rfl
@[simp] theorem deliver_dbgEnv (r : Result) (s : State) :
    (deliver r s).dbgEnv = s.dbgEnv := rfl
@[simp] theorem deliver_draws (r : Result) (s : State) :
    (deliver r s).draws = s.draws := rfl
@[simp] theorem deliver_drawCount (r : Result) (s : State) :
    (deliver r s).drawCount = s.drawCount := rfl
@[simp] theorem deliver_regFrees (r : Result) (s : State) :
    (deliver r s).regFrees = s.regFrees := rfl
@[simp] theorem deliver_wild (r : Result) (s : State) :
    (deliver r s).wild = s.wild := rfl
@[simp] theorem deliver_ctxs (r : Result) (s : State) :
    (deliver r s).ctxs = s.ctxs := rfl
@[simp] theorem deliver_programs (r : Result) (s : State) :
    (deliver r s).programs = s.programs := rfl
@[simp] theorem deliver_issues (r : Result) (s : State) :
    (deliver r s).issues = s.issues := rfl
@[simp] theorem deliver_build (r : Result) (s : State) :
    (deliver r s).build = s.build := rfl
@[simp] theorem deliver_active (r : Result) (s : State) :
    (deliver r s).active = s.active := rfl
@[simp] theorem deliver_emitPort (r : Result) (s : State) :
    (deliver r s).emitPort = s.emitPort := rfl
@[simp] theorem deliver_inbox (r : Result) (s : State) :
    (deliver r s).inbox = s.inbox := rfl
@[simp] theorem deliver_result (r : Result) (s : State) :
    (deliver r s).result = some r := rfl
@[simp] theorem deliver_bus (r : Result) (s : State) :
    (deliver r s).bus = s.bus := rfl

/-! ### `setContext`: one context -/

@[simp] theorem setContext_cfg (c : Nat) (ctx : ExecutionContext) (s : State) :
    (setContext c ctx s).cfg = s.cfg := rfl
@[simp] theorem setContext_mem (c : Nat) (ctx : ExecutionContext) (s : State) :
    (setContext c ctx s).mem = s.mem := rfl
@[simp] theorem setContext_dmac (c : Nat) (ctx : ExecutionContext) (s : State) :
    (setContext c ctx s).dmac = s.dmac := rfl
@[simp] theorem setContext_chans (c : Nat) (ctx : ExecutionContext) (s : State) :
    (setContext c ctx s).chans = s.chans := rfl
@[simp] theorem setContext_dbgEnv (c : Nat) (ctx : ExecutionContext) (s : State) :
    (setContext c ctx s).dbgEnv = s.dbgEnv := rfl
@[simp] theorem setContext_draws (c : Nat) (ctx : ExecutionContext) (s : State) :
    (setContext c ctx s).draws = s.draws := rfl
@[simp] theorem setContext_drawCount (c : Nat) (ctx : ExecutionContext) (s : State) :
    (setContext c ctx s).drawCount = s.drawCount := rfl
@[simp] theorem setContext_regFrees (c : Nat) (ctx : ExecutionContext) (s : State) :
    (setContext c ctx s).regFrees = s.regFrees := rfl
@[simp] theorem setContext_wild (c : Nat) (ctx : ExecutionContext) (s : State) :
    (setContext c ctx s).wild = s.wild := rfl
@[simp] theorem setContext_ctxs (c : Nat) (ctx : ExecutionContext) (s : State) :
    (setContext c ctx s).ctxs = s.ctxs.set c ctx := rfl
@[simp] theorem setContext_programs (c : Nat) (ctx : ExecutionContext) (s : State) :
    (setContext c ctx s).programs = s.programs := rfl
@[simp] theorem setContext_issues (c : Nat) (ctx : ExecutionContext) (s : State) :
    (setContext c ctx s).issues = s.issues := rfl
@[simp] theorem setContext_build (c : Nat) (ctx : ExecutionContext) (s : State) :
    (setContext c ctx s).build = s.build := rfl
@[simp] theorem setContext_active (c : Nat) (ctx : ExecutionContext) (s : State) :
    (setContext c ctx s).active = s.active := rfl
@[simp] theorem setContext_emitPort (c : Nat) (ctx : ExecutionContext) (s : State) :
    (setContext c ctx s).emitPort = s.emitPort := rfl
@[simp] theorem setContext_inbox (c : Nat) (ctx : ExecutionContext) (s : State) :
    (setContext c ctx s).inbox = s.inbox := rfl
@[simp] theorem setContext_result (c : Nat) (ctx : ExecutionContext) (s : State) :
    (setContext c ctx s).result = s.result := rfl
@[simp] theorem setContext_bus (c : Nat) (ctx : ExecutionContext) (s : State) :
    (setContext c ctx s).bus = s.bus := rfl

/-! ### `forgetTransfers`: memory -/

@[simp] theorem forgetTransfers_cfg (p : Issue → Bool) (len : Issue → Nat) (s : State) :
    (forgetTransfers p len s).cfg = s.cfg := rfl
@[simp] theorem forgetTransfers_dmac (p : Issue → Bool) (len : Issue → Nat) (s : State) :
    (forgetTransfers p len s).dmac = s.dmac := rfl
@[simp] theorem forgetTransfers_chans (p : Issue → Bool) (len : Issue → Nat) (s : State) :
    (forgetTransfers p len s).chans = s.chans := rfl
@[simp] theorem forgetTransfers_dbgEnv (p : Issue → Bool) (len : Issue → Nat) (s : State) :
    (forgetTransfers p len s).dbgEnv = s.dbgEnv := rfl
@[simp] theorem forgetTransfers_draws (p : Issue → Bool) (len : Issue → Nat) (s : State) :
    (forgetTransfers p len s).draws = s.draws := rfl
@[simp] theorem forgetTransfers_drawCount (p : Issue → Bool) (len : Issue → Nat) (s : State) :
    (forgetTransfers p len s).drawCount = s.drawCount := rfl
@[simp] theorem forgetTransfers_regFrees (p : Issue → Bool) (len : Issue → Nat) (s : State) :
    (forgetTransfers p len s).regFrees = s.regFrees := rfl
@[simp] theorem forgetTransfers_wild (p : Issue → Bool) (len : Issue → Nat) (s : State) :
    (forgetTransfers p len s).wild = s.wild := rfl
@[simp] theorem forgetTransfers_ctxs (p : Issue → Bool) (len : Issue → Nat) (s : State) :
    (forgetTransfers p len s).ctxs = s.ctxs := rfl
@[simp] theorem forgetTransfers_programs (p : Issue → Bool) (len : Issue → Nat) (s : State) :
    (forgetTransfers p len s).programs = s.programs := rfl
@[simp] theorem forgetTransfers_issues (p : Issue → Bool) (len : Issue → Nat) (s : State) :
    (forgetTransfers p len s).issues = s.issues := rfl
@[simp] theorem forgetTransfers_build (p : Issue → Bool) (len : Issue → Nat) (s : State) :
    (forgetTransfers p len s).build = s.build := rfl
@[simp] theorem forgetTransfers_active (p : Issue → Bool) (len : Issue → Nat) (s : State) :
    (forgetTransfers p len s).active = s.active := rfl
@[simp] theorem forgetTransfers_emitPort (p : Issue → Bool) (len : Issue → Nat) (s : State) :
    (forgetTransfers p len s).emitPort = s.emitPort := rfl
@[simp] theorem forgetTransfers_inbox (p : Issue → Bool) (len : Issue → Nat) (s : State) :
    (forgetTransfers p len s).inbox = s.inbox := rfl
@[simp] theorem forgetTransfers_result (p : Issue → Bool) (len : Issue → Nat) (s : State) :
    (forgetTransfers p len s).result = s.result := rfl
@[simp] theorem forgetTransfers_bus (p : Issue → Bool) (len : Issue → Nat) (s : State) :
    (forgetTransfers p len s).bus = s.bus := rfl

/-! ### `disturb`: memory and the transfers' marks -/

@[simp] theorem disturb_cfg (p : Issue → Bool) (s : State) :
    (disturb p s).cfg = s.cfg := rfl
@[simp] theorem disturb_dmac (p : Issue → Bool) (s : State) :
    (disturb p s).dmac = s.dmac := rfl
@[simp] theorem disturb_chans (p : Issue → Bool) (s : State) :
    (disturb p s).chans = s.chans := rfl
@[simp] theorem disturb_dbgEnv (p : Issue → Bool) (s : State) :
    (disturb p s).dbgEnv = s.dbgEnv := rfl
@[simp] theorem disturb_draws (p : Issue → Bool) (s : State) :
    (disturb p s).draws = s.draws := rfl
@[simp] theorem disturb_drawCount (p : Issue → Bool) (s : State) :
    (disturb p s).drawCount = s.drawCount := rfl
@[simp] theorem disturb_regFrees (p : Issue → Bool) (s : State) :
    (disturb p s).regFrees = s.regFrees := rfl
@[simp] theorem disturb_wild (p : Issue → Bool) (s : State) :
    (disturb p s).wild = s.wild := rfl
@[simp] theorem disturb_ctxs (p : Issue → Bool) (s : State) :
    (disturb p s).ctxs = s.ctxs := rfl
@[simp] theorem disturb_programs (p : Issue → Bool) (s : State) :
    (disturb p s).programs = s.programs := rfl
@[simp] theorem disturb_issues (p : Issue → Bool) (s : State) :
    (disturb p s).issues = s.issues.map (markDisturbed p) := rfl
@[simp] theorem disturb_build (p : Issue → Bool) (s : State) :
    (disturb p s).build = s.build := rfl
@[simp] theorem disturb_active (p : Issue → Bool) (s : State) :
    (disturb p s).active = s.active := rfl
@[simp] theorem disturb_emitPort (p : Issue → Bool) (s : State) :
    (disturb p s).emitPort = s.emitPort := rfl
@[simp] theorem disturb_inbox (p : Issue → Bool) (s : State) :
    (disturb p s).inbox = s.inbox := rfl
@[simp] theorem disturb_result (p : Issue → Bool) (s : State) :
    (disturb p s).result = s.result := rfl
@[simp] theorem disturb_bus (p : Issue → Bool) (s : State) :
    (disturb p s).bus = s.bus := rfl

/-! ### `storeByte`: memory and the marks of a disturbance -/

@[simp] theorem storeByte_cfg (a : Word) (v : Byte) (s : State) :
    (storeByte a v s).cfg = s.cfg := rfl
@[simp] theorem storeByte_dmac (a : Word) (v : Byte) (s : State) :
    (storeByte a v s).dmac = s.dmac := rfl
@[simp] theorem storeByte_chans (a : Word) (v : Byte) (s : State) :
    (storeByte a v s).chans = s.chans := rfl
@[simp] theorem storeByte_dbgEnv (a : Word) (v : Byte) (s : State) :
    (storeByte a v s).dbgEnv = s.dbgEnv := rfl
@[simp] theorem storeByte_draws (a : Word) (v : Byte) (s : State) :
    (storeByte a v s).draws = s.draws := rfl
@[simp] theorem storeByte_drawCount (a : Word) (v : Byte) (s : State) :
    (storeByte a v s).drawCount = s.drawCount := rfl
@[simp] theorem storeByte_regFrees (a : Word) (v : Byte) (s : State) :
    (storeByte a v s).regFrees = s.regFrees := rfl
@[simp] theorem storeByte_wild (a : Word) (v : Byte) (s : State) :
    (storeByte a v s).wild = (s.wild || s.issues.any (mutates a)) := rfl
@[simp] theorem storeByte_ctxs (a : Word) (v : Byte) (s : State) :
    (storeByte a v s).ctxs = s.ctxs := rfl
@[simp] theorem storeByte_programs (a : Word) (v : Byte) (s : State) :
    (storeByte a v s).programs = s.programs := rfl
@[simp] theorem storeByte_issues (a : Word) (v : Byte) (s : State) :
    (storeByte a v s).issues = s.issues.map (markDisturbed (mutates a)) := rfl
@[simp] theorem storeByte_build (a : Word) (v : Byte) (s : State) :
    (storeByte a v s).build = s.build := rfl
@[simp] theorem storeByte_active (a : Word) (v : Byte) (s : State) :
    (storeByte a v s).active = s.active := rfl
@[simp] theorem storeByte_emitPort (a : Word) (v : Byte) (s : State) :
    (storeByte a v s).emitPort = s.emitPort := rfl
@[simp] theorem storeByte_inbox (a : Word) (v : Byte) (s : State) :
    (storeByte a v s).inbox = s.inbox := rfl
@[simp] theorem storeByte_result (a : Word) (v : Byte) (s : State) :
    (storeByte a v s).result = s.result := rfl
@[simp] theorem storeByte_bus (a : Word) (v : Byte) (s : State) :
    (storeByte a v s).bus = s.bus := rfl

/-! ### `memWrite8`: memory, the marks of a disturbance, the accesses -/

@[simp] theorem memWrite8_cfg (a : Word) (v : Byte) (s : State) :
    (memWrite8 a v s).cfg = s.cfg := rfl
@[simp] theorem memWrite8_dmac (a : Word) (v : Byte) (s : State) :
    (memWrite8 a v s).dmac = s.dmac := rfl
@[simp] theorem memWrite8_chans (a : Word) (v : Byte) (s : State) :
    (memWrite8 a v s).chans = s.chans := rfl
@[simp] theorem memWrite8_dbgEnv (a : Word) (v : Byte) (s : State) :
    (memWrite8 a v s).dbgEnv = s.dbgEnv := rfl
@[simp] theorem memWrite8_draws (a : Word) (v : Byte) (s : State) :
    (memWrite8 a v s).draws = s.draws := rfl
@[simp] theorem memWrite8_drawCount (a : Word) (v : Byte) (s : State) :
    (memWrite8 a v s).drawCount = s.drawCount := rfl
@[simp] theorem memWrite8_regFrees (a : Word) (v : Byte) (s : State) :
    (memWrite8 a v s).regFrees = s.regFrees := rfl
@[simp] theorem memWrite8_wild (a : Word) (v : Byte) (s : State) :
    (memWrite8 a v s).wild = (s.wild || s.issues.any (mutates a)) := rfl
@[simp] theorem memWrite8_ctxs (a : Word) (v : Byte) (s : State) :
    (memWrite8 a v s).ctxs = s.ctxs := rfl
@[simp] theorem memWrite8_programs (a : Word) (v : Byte) (s : State) :
    (memWrite8 a v s).programs = s.programs := rfl
@[simp] theorem memWrite8_issues (a : Word) (v : Byte) (s : State) :
    (memWrite8 a v s).issues = s.issues.map (markDisturbed (mutates a)) := rfl
@[simp] theorem memWrite8_build (a : Word) (v : Byte) (s : State) :
    (memWrite8 a v s).build = s.build := rfl
@[simp] theorem memWrite8_active (a : Word) (v : Byte) (s : State) :
    (memWrite8 a v s).active = s.active := rfl
@[simp] theorem memWrite8_emitPort (a : Word) (v : Byte) (s : State) :
    (memWrite8 a v s).emitPort = s.emitPort := rfl
@[simp] theorem memWrite8_inbox (a : Word) (v : Byte) (s : State) :
    (memWrite8 a v s).inbox = s.inbox := rfl
@[simp] theorem memWrite8_result (a : Word) (v : Byte) (s : State) :
    (memWrite8 a v s).result = s.result := rfl
@[simp] theorem memWrite8_bus (a : Word) (v : Byte) (s : State) :
    (memWrite8 a v s).bus = s.bus ++ [.memWrite8 a v] := rfl

/-! ### `noteChan`: what is known of one channel -/

@[simp] theorem noteChan_cfg (n : Nat) (f : ChannelEnv → ChannelEnv) (s : State) :
    (noteChan n f s).cfg = s.cfg := rfl
@[simp] theorem noteChan_mem (n : Nat) (f : ChannelEnv → ChannelEnv) (s : State) :
    (noteChan n f s).mem = s.mem := rfl
@[simp] theorem noteChan_dmac (n : Nat) (f : ChannelEnv → ChannelEnv) (s : State) :
    (noteChan n f s).dmac = s.dmac := rfl
@[simp] theorem noteChan_chans (n : Nat) (f : ChannelEnv → ChannelEnv) (s : State) :
    (noteChan n f s).chans = s.chans.setIfInBounds n (f (chanEnv s n)) := rfl
@[simp] theorem noteChan_dbgEnv (n : Nat) (f : ChannelEnv → ChannelEnv) (s : State) :
    (noteChan n f s).dbgEnv = s.dbgEnv := rfl
@[simp] theorem noteChan_draws (n : Nat) (f : ChannelEnv → ChannelEnv) (s : State) :
    (noteChan n f s).draws = s.draws := rfl
@[simp] theorem noteChan_drawCount (n : Nat) (f : ChannelEnv → ChannelEnv) (s : State) :
    (noteChan n f s).drawCount = s.drawCount := rfl
@[simp] theorem noteChan_regFrees (n : Nat) (f : ChannelEnv → ChannelEnv) (s : State) :
    (noteChan n f s).regFrees = s.regFrees := rfl
@[simp] theorem noteChan_wild (n : Nat) (f : ChannelEnv → ChannelEnv) (s : State) :
    (noteChan n f s).wild = s.wild := rfl
@[simp] theorem noteChan_ctxs (n : Nat) (f : ChannelEnv → ChannelEnv) (s : State) :
    (noteChan n f s).ctxs = s.ctxs := rfl
@[simp] theorem noteChan_programs (n : Nat) (f : ChannelEnv → ChannelEnv) (s : State) :
    (noteChan n f s).programs = s.programs := rfl
@[simp] theorem noteChan_issues (n : Nat) (f : ChannelEnv → ChannelEnv) (s : State) :
    (noteChan n f s).issues = s.issues := rfl
@[simp] theorem noteChan_build (n : Nat) (f : ChannelEnv → ChannelEnv) (s : State) :
    (noteChan n f s).build = s.build := rfl
@[simp] theorem noteChan_active (n : Nat) (f : ChannelEnv → ChannelEnv) (s : State) :
    (noteChan n f s).active = s.active := rfl
@[simp] theorem noteChan_emitPort (n : Nat) (f : ChannelEnv → ChannelEnv) (s : State) :
    (noteChan n f s).emitPort = s.emitPort := rfl
@[simp] theorem noteChan_inbox (n : Nat) (f : ChannelEnv → ChannelEnv) (s : State) :
    (noteChan n f s).inbox = s.inbox := rfl
@[simp] theorem noteChan_result (n : Nat) (f : ChannelEnv → ChannelEnv) (s : State) :
    (noteChan n f s).result = s.result := rfl
@[simp] theorem noteChan_bus (n : Nat) (f : ChannelEnv → ChannelEnv) (s : State) :
    (noteChan n f s).bus = s.bus := rfl

/-! ### `delay`: the accesses -/

@[simp] theorem delay_cfg (s : State) :
    (delay s).cfg = s.cfg := rfl
@[simp] theorem delay_mem (s : State) :
    (delay s).mem = s.mem := rfl
@[simp] theorem delay_dmac (s : State) :
    (delay s).dmac = s.dmac := rfl
@[simp] theorem delay_chans (s : State) :
    (delay s).chans = s.chans := rfl
@[simp] theorem delay_dbgEnv (s : State) :
    (delay s).dbgEnv = s.dbgEnv := rfl
@[simp] theorem delay_draws (s : State) :
    (delay s).draws = s.draws := rfl
@[simp] theorem delay_drawCount (s : State) :
    (delay s).drawCount = s.drawCount := rfl
@[simp] theorem delay_regFrees (s : State) :
    (delay s).regFrees = s.regFrees := rfl
@[simp] theorem delay_wild (s : State) :
    (delay s).wild = s.wild := rfl
@[simp] theorem delay_ctxs (s : State) :
    (delay s).ctxs = s.ctxs := rfl
@[simp] theorem delay_programs (s : State) :
    (delay s).programs = s.programs := rfl
@[simp] theorem delay_issues (s : State) :
    (delay s).issues = s.issues := rfl
@[simp] theorem delay_build (s : State) :
    (delay s).build = s.build := rfl
@[simp] theorem delay_active (s : State) :
    (delay s).active = s.active := rfl
@[simp] theorem delay_emitPort (s : State) :
    (delay s).emitPort = s.emitPort := rfl
@[simp] theorem delay_inbox (s : State) :
    (delay s).inbox = s.inbox := rfl
@[simp] theorem delay_result (s : State) :
    (delay s).result = s.result := rfl
@[simp] theorem delay_bus (s : State) :
    (delay s).bus = s.bus ++ [.delay] := rfl

/-! ### `takeDraw`: the answers still to come -/

@[simp] theorem takeDraw_cfg (s : State) :
    (takeDraw s).cfg = s.cfg := by
  unfold takeDraw; split <;> rfl
@[simp] theorem takeDraw_mem (s : State) :
    (takeDraw s).mem = s.mem := by
  unfold takeDraw; split <;> rfl
@[simp] theorem takeDraw_dmac (s : State) :
    (takeDraw s).dmac = s.dmac := by
  unfold takeDraw; split <;> rfl
@[simp] theorem takeDraw_chans (s : State) :
    (takeDraw s).chans = s.chans := by
  unfold takeDraw; split <;> rfl
@[simp] theorem takeDraw_dbgEnv (s : State) :
    (takeDraw s).dbgEnv = s.dbgEnv := by
  unfold takeDraw; split <;> rfl
@[simp] theorem takeDraw_regFrees (s : State) :
    (takeDraw s).regFrees = s.regFrees := by
  unfold takeDraw; split <;> rfl
@[simp] theorem takeDraw_wild (s : State) :
    (takeDraw s).wild = s.wild := by
  unfold takeDraw; split <;> rfl
@[simp] theorem takeDraw_ctxs (s : State) :
    (takeDraw s).ctxs = s.ctxs := by
  unfold takeDraw; split <;> rfl
@[simp] theorem takeDraw_programs (s : State) :
    (takeDraw s).programs = s.programs := by
  unfold takeDraw; split <;> rfl
@[simp] theorem takeDraw_issues (s : State) :
    (takeDraw s).issues = s.issues := by
  unfold takeDraw; split <;> rfl
@[simp] theorem takeDraw_build (s : State) :
    (takeDraw s).build = s.build := by
  unfold takeDraw; split <;> rfl
@[simp] theorem takeDraw_active (s : State) :
    (takeDraw s).active = s.active := by
  unfold takeDraw; split <;> rfl
@[simp] theorem takeDraw_emitPort (s : State) :
    (takeDraw s).emitPort = s.emitPort := by
  unfold takeDraw; split <;> rfl
@[simp] theorem takeDraw_inbox (s : State) :
    (takeDraw s).inbox = s.inbox := by
  unfold takeDraw; split <;> rfl
@[simp] theorem takeDraw_result (s : State) :
    (takeDraw s).result = s.result := by
  unfold takeDraw; split <;> rfl
@[simp] theorem takeDraw_bus (s : State) :
    (takeDraw s).bus = s.bus := by
  unfold takeDraw; split <;> rfl

/-! ### `noteRead`: what is known of the DMAC -/

@[simp] theorem noteRead_cfg (r : DmacReg) (v : Word) (s : State) :
    (noteRead r v s).cfg = s.cfg := by
  cases r <;> rfl
@[simp] theorem noteRead_mem (r : DmacReg) (v : Word) (s : State) :
    (noteRead r v s).mem = s.mem := by
  cases r <;> rfl
@[simp] theorem noteRead_dmac (r : DmacReg) (v : Word) (s : State) :
    (noteRead r v s).dmac = s.dmac := by
  cases r <;> rfl
@[simp] theorem noteRead_draws (r : DmacReg) (v : Word) (s : State) :
    (noteRead r v s).draws = s.draws := by
  cases r <;> rfl
@[simp] theorem noteRead_drawCount (r : DmacReg) (v : Word) (s : State) :
    (noteRead r v s).drawCount = s.drawCount := by
  cases r <;> rfl
@[simp] theorem noteRead_regFrees (r : DmacReg) (v : Word) (s : State) :
    (noteRead r v s).regFrees = s.regFrees := by
  cases r <;> rfl
@[simp] theorem noteRead_wild (r : DmacReg) (v : Word) (s : State) :
    (noteRead r v s).wild = s.wild := by
  cases r <;> rfl
@[simp] theorem noteRead_ctxs (r : DmacReg) (v : Word) (s : State) :
    (noteRead r v s).ctxs = s.ctxs := by
  cases r <;> rfl
@[simp] theorem noteRead_programs (r : DmacReg) (v : Word) (s : State) :
    (noteRead r v s).programs = s.programs := by
  cases r <;> rfl
@[simp] theorem noteRead_issues (r : DmacReg) (v : Word) (s : State) :
    (noteRead r v s).issues = s.issues := by
  cases r <;> rfl
@[simp] theorem noteRead_build (r : DmacReg) (v : Word) (s : State) :
    (noteRead r v s).build = s.build := by
  cases r <;> rfl
@[simp] theorem noteRead_active (r : DmacReg) (v : Word) (s : State) :
    (noteRead r v s).active = s.active := by
  cases r <;> rfl
@[simp] theorem noteRead_emitPort (r : DmacReg) (v : Word) (s : State) :
    (noteRead r v s).emitPort = s.emitPort := by
  cases r <;> rfl
@[simp] theorem noteRead_inbox (r : DmacReg) (v : Word) (s : State) :
    (noteRead r v s).inbox = s.inbox := by
  cases r <;> rfl
@[simp] theorem noteRead_result (r : DmacReg) (v : Word) (s : State) :
    (noteRead r v s).result = s.result := by
  cases r <;> rfl
@[simp] theorem noteRead_bus (r : DmacReg) (v : Word) (s : State) :
    (noteRead r v s).bus = s.bus := by
  cases r <;> rfl

/-! ### `noteInjection`: what is known of a channel -/

@[simp] theorem noteInjection_cfg (s : State) :
    (noteInjection s).cfg = s.cfg := by
  unfold noteInjection; split <;> first | rfl | (split <;> rfl)
@[simp] theorem noteInjection_mem (s : State) :
    (noteInjection s).mem = s.mem := by
  unfold noteInjection; split <;> first | rfl | (split <;> rfl)
@[simp] theorem noteInjection_dmac (s : State) :
    (noteInjection s).dmac = s.dmac := by
  unfold noteInjection; split <;> first | rfl | (split <;> rfl)
@[simp] theorem noteInjection_dbgEnv (s : State) :
    (noteInjection s).dbgEnv = s.dbgEnv := by
  unfold noteInjection; split <;> first | rfl | (split <;> rfl)
@[simp] theorem noteInjection_draws (s : State) :
    (noteInjection s).draws = s.draws := by
  unfold noteInjection; split <;> first | rfl | (split <;> rfl)
@[simp] theorem noteInjection_drawCount (s : State) :
    (noteInjection s).drawCount = s.drawCount := by
  unfold noteInjection; split <;> first | rfl | (split <;> rfl)
@[simp] theorem noteInjection_regFrees (s : State) :
    (noteInjection s).regFrees = s.regFrees := by
  unfold noteInjection; split <;> first | rfl | (split <;> rfl)
@[simp] theorem noteInjection_wild (s : State) :
    (noteInjection s).wild = s.wild := by
  unfold noteInjection; split <;> first | rfl | (split <;> rfl)
@[simp] theorem noteInjection_ctxs (s : State) :
    (noteInjection s).ctxs = s.ctxs := by
  unfold noteInjection; split <;> first | rfl | (split <;> rfl)
@[simp] theorem noteInjection_programs (s : State) :
    (noteInjection s).programs = s.programs := by
  unfold noteInjection; split <;> first | rfl | (split <;> rfl)
@[simp] theorem noteInjection_issues (s : State) :
    (noteInjection s).issues = s.issues := by
  unfold noteInjection; split <;> first | rfl | (split <;> rfl)
@[simp] theorem noteInjection_build (s : State) :
    (noteInjection s).build = s.build := by
  unfold noteInjection; split <;> first | rfl | (split <;> rfl)
@[simp] theorem noteInjection_active (s : State) :
    (noteInjection s).active = s.active := by
  unfold noteInjection; split <;> first | rfl | (split <;> rfl)
@[simp] theorem noteInjection_emitPort (s : State) :
    (noteInjection s).emitPort = s.emitPort := by
  unfold noteInjection; split <;> first | rfl | (split <;> rfl)
@[simp] theorem noteInjection_inbox (s : State) :
    (noteInjection s).inbox = s.inbox := by
  unfold noteInjection; split <;> first | rfl | (split <;> rfl)
@[simp] theorem noteInjection_result (s : State) :
    (noteInjection s).result = s.result := by
  unfold noteInjection; split <;> first | rfl | (split <;> rfl)
@[simp] theorem noteInjection_bus (s : State) :
    (noteInjection s).bus = s.bus := by
  unfold noteInjection; split <;> first | rfl | (split <;> rfl)

/-! ### `settleRegs`: the registers a transfer reaches into -/

@[simp] theorem settleRegs_cfg (s : State) :
    (settleRegs s).cfg = s.cfg := by
  unfold settleRegs; split_ifs <;> rfl
@[simp] theorem settleRegs_mem (s : State) :
    (settleRegs s).mem = s.mem := by
  unfold settleRegs; split_ifs <;> rfl
@[simp] theorem settleRegs_chans (s : State) :
    (settleRegs s).chans = s.chans := by
  unfold settleRegs; split_ifs <;> rfl
@[simp] theorem settleRegs_dbgEnv (s : State) :
    (settleRegs s).dbgEnv = s.dbgEnv := by
  unfold settleRegs; split_ifs <;> rfl
@[simp] theorem settleRegs_draws (s : State) :
    (settleRegs s).draws = s.draws := by
  unfold settleRegs; split_ifs <;> rfl
@[simp] theorem settleRegs_drawCount (s : State) :
    (settleRegs s).drawCount = s.drawCount := by
  unfold settleRegs; split_ifs <;> rfl
@[simp] theorem settleRegs_wild (s : State) :
    (settleRegs s).wild = s.wild := by
  unfold settleRegs; split_ifs <;> rfl
@[simp] theorem settleRegs_ctxs (s : State) :
    (settleRegs s).ctxs = s.ctxs := by
  unfold settleRegs; split_ifs <;> rfl
@[simp] theorem settleRegs_programs (s : State) :
    (settleRegs s).programs = s.programs := by
  unfold settleRegs; split_ifs <;> rfl
@[simp] theorem settleRegs_issues (s : State) :
    (settleRegs s).issues = s.issues := by
  unfold settleRegs; split_ifs <;> rfl
@[simp] theorem settleRegs_build (s : State) :
    (settleRegs s).build = s.build := by
  unfold settleRegs; split_ifs <;> rfl
@[simp] theorem settleRegs_active (s : State) :
    (settleRegs s).active = s.active := by
  unfold settleRegs; split_ifs <;> rfl
@[simp] theorem settleRegs_emitPort (s : State) :
    (settleRegs s).emitPort = s.emitPort := by
  unfold settleRegs; split_ifs <;> rfl
@[simp] theorem settleRegs_inbox (s : State) :
    (settleRegs s).inbox = s.inbox := by
  unfold settleRegs; split_ifs <;> rfl
@[simp] theorem settleRegs_result (s : State) :
    (settleRegs s).result = s.result := by
  unfold settleRegs; split_ifs <;> rfl
@[simp] theorem settleRegs_bus (s : State) :
    (settleRegs s).bus = s.bus := by
  unfold settleRegs; split_ifs <;> rfl

/-! ### `storeReg`: the registers, and what is known of the DMAC -/

@[simp] theorem storeReg_cfg (r : DmacReg) (v : Word) (s : State) :
    (storeReg r v s).cfg = s.cfg := by
  cases r <;> first | rfl | (unfold storeReg; dsimp only; split_ifs <;> simp) | (unfold storeReg; simp)
@[simp] theorem storeReg_mem (r : DmacReg) (v : Word) (s : State) :
    (storeReg r v s).mem = s.mem := by
  cases r <;> first | rfl | (unfold storeReg; dsimp only; split_ifs <;> simp) | (unfold storeReg; simp)
@[simp] theorem storeReg_draws (r : DmacReg) (v : Word) (s : State) :
    (storeReg r v s).draws = s.draws := by
  cases r <;> first | rfl | (unfold storeReg; dsimp only; split_ifs <;> simp) | (unfold storeReg; simp)
@[simp] theorem storeReg_drawCount (r : DmacReg) (v : Word) (s : State) :
    (storeReg r v s).drawCount = s.drawCount := by
  cases r <;> first | rfl | (unfold storeReg; dsimp only; split_ifs <;> simp) | (unfold storeReg; simp)
@[simp] theorem storeReg_wild (r : DmacReg) (v : Word) (s : State) :
    (storeReg r v s).wild = s.wild := by
  cases r <;> first | rfl | (unfold storeReg; dsimp only; split_ifs <;> simp) | (unfold storeReg; simp)
@[simp] theorem storeReg_ctxs (r : DmacReg) (v : Word) (s : State) :
    (storeReg r v s).ctxs = s.ctxs := by
  cases r <;> first | rfl | (unfold storeReg; dsimp only; split_ifs <;> simp) | (unfold storeReg; simp)
@[simp] theorem storeReg_programs (r : DmacReg) (v : Word) (s : State) :
    (storeReg r v s).programs = s.programs := by
  cases r <;> first | rfl | (unfold storeReg; dsimp only; split_ifs <;> simp) | (unfold storeReg; simp)
@[simp] theorem storeReg_issues (r : DmacReg) (v : Word) (s : State) :
    (storeReg r v s).issues = s.issues := by
  cases r <;> first | rfl | (unfold storeReg; dsimp only; split_ifs <;> simp) | (unfold storeReg; simp)
@[simp] theorem storeReg_build (r : DmacReg) (v : Word) (s : State) :
    (storeReg r v s).build = s.build := by
  cases r <;> first | rfl | (unfold storeReg; dsimp only; split_ifs <;> simp) | (unfold storeReg; simp)
@[simp] theorem storeReg_active (r : DmacReg) (v : Word) (s : State) :
    (storeReg r v s).active = s.active := by
  cases r <;> first | rfl | (unfold storeReg; dsimp only; split_ifs <;> simp) | (unfold storeReg; simp)
@[simp] theorem storeReg_emitPort (r : DmacReg) (v : Word) (s : State) :
    (storeReg r v s).emitPort = s.emitPort := by
  cases r <;> first | rfl | (unfold storeReg; dsimp only; split_ifs <;> simp) | (unfold storeReg; simp)
@[simp] theorem storeReg_inbox (r : DmacReg) (v : Word) (s : State) :
    (storeReg r v s).inbox = s.inbox := by
  cases r <;> first | rfl | (unfold storeReg; dsimp only; split_ifs <;> simp) | (unfold storeReg; simp)
@[simp] theorem storeReg_result (r : DmacReg) (v : Word) (s : State) :
    (storeReg r v s).result = s.result := by
  cases r <;> first | rfl | (unfold storeReg; dsimp only; split_ifs <;> simp) | (unfold storeReg; simp)
@[simp] theorem storeReg_bus (r : DmacReg) (v : Word) (s : State) :
    (storeReg r v s).bus = s.bus := by
  cases r <;> first | rfl | (unfold storeReg; dsimp only; split_ifs <;> simp) | (unfold storeReg; simp)

/-! ### `read32`: the answers, one register, what is known of the DMAC, the accesses -/

@[simp] theorem read32_cfg (base : Word) (r : DmacReg) (s : State) :
    ((read32 base r s).2).cfg = s.cfg := by
  simp [read32]
@[simp] theorem read32_mem (base : Word) (r : DmacReg) (s : State) :
    ((read32 base r s).2).mem = s.mem := by
  simp [read32]
@[simp] theorem read32_dmac (base : Word) (r : DmacReg) (s : State) :
    ((read32 base r s).2).dmac = putReg r (read32 base r s).1 s.dmac := by
  simp [read32]
@[simp] theorem read32_regFrees (base : Word) (r : DmacReg) (s : State) :
    ((read32 base r s).2).regFrees = s.regFrees := by
  simp [read32]
@[simp] theorem read32_wild (base : Word) (r : DmacReg) (s : State) :
    ((read32 base r s).2).wild = s.wild := by
  simp [read32]
@[simp] theorem read32_ctxs (base : Word) (r : DmacReg) (s : State) :
    ((read32 base r s).2).ctxs = s.ctxs := by
  simp [read32]
@[simp] theorem read32_programs (base : Word) (r : DmacReg) (s : State) :
    ((read32 base r s).2).programs = s.programs := by
  simp [read32]
@[simp] theorem read32_issues (base : Word) (r : DmacReg) (s : State) :
    ((read32 base r s).2).issues = s.issues := by
  simp [read32]
@[simp] theorem read32_build (base : Word) (r : DmacReg) (s : State) :
    ((read32 base r s).2).build = s.build := by
  simp [read32]
@[simp] theorem read32_active (base : Word) (r : DmacReg) (s : State) :
    ((read32 base r s).2).active = s.active := by
  simp [read32]
@[simp] theorem read32_emitPort (base : Word) (r : DmacReg) (s : State) :
    ((read32 base r s).2).emitPort = s.emitPort := by
  simp [read32]
@[simp] theorem read32_inbox (base : Word) (r : DmacReg) (s : State) :
    ((read32 base r s).2).inbox = s.inbox := by
  simp [read32]
@[simp] theorem read32_result (base : Word) (r : DmacReg) (s : State) :
    ((read32 base r s).2).result = s.result := by
  simp [read32]
@[simp] theorem read32_bus (base : Word) (r : DmacReg) (s : State) :
    ((read32 base r s).2).bus = s.bus ++ [.read32 (regAddr base r) (read32 base r s).1] := by
  simp [read32]

/-! ### `write32`: the registers, what is known of the DMAC, the accesses -/

@[simp] theorem write32_cfg (base : Word) (r : DmacReg) (v : Word) (s : State) :
    (write32 base r v s).cfg = s.cfg := by
  simp [write32]
@[simp] theorem write32_mem (base : Word) (r : DmacReg) (v : Word) (s : State) :
    (write32 base r v s).mem = s.mem := by
  simp [write32]
@[simp] theorem write32_draws (base : Word) (r : DmacReg) (v : Word) (s : State) :
    (write32 base r v s).draws = s.draws := by
  simp [write32]
@[simp] theorem write32_drawCount (base : Word) (r : DmacReg) (v : Word) (s : State) :
    (write32 base r v s).drawCount = s.drawCount := by
  simp [write32]
@[simp] theorem write32_wild (base : Word) (r : DmacReg) (v : Word) (s : State) :
    (write32 base r v s).wild = s.wild := by
  simp [write32]
@[simp] theorem write32_ctxs (base : Word) (r : DmacReg) (v : Word) (s : State) :
    (write32 base r v s).ctxs = s.ctxs := by
  simp [write32]
@[simp] theorem write32_programs (base : Word) (r : DmacReg) (v : Word) (s : State) :
    (write32 base r v s).programs = s.programs := by
  simp [write32]
@[simp] theorem write32_issues (base : Word) (r : DmacReg) (v : Word) (s : State) :
    (write32 base r v s).issues = s.issues := by
  simp [write32]
@[simp] theorem write32_build (base : Word) (r : DmacReg) (v : Word) (s : State) :
    (write32 base r v s).build = s.build := by
  simp [write32]
@[simp] theorem write32_active (base : Word) (r : DmacReg) (v : Word) (s : State) :
    (write32 base r v s).active = s.active := by
  simp [write32]
@[simp] theorem write32_emitPort (base : Word) (r : DmacReg) (v : Word) (s : State) :
    (write32 base r v s).emitPort = s.emitPort := by
  simp [write32]
@[simp] theorem write32_inbox (base : Word) (r : DmacReg) (v : Word) (s : State) :
    (write32 base r v s).inbox = s.inbox := by
  simp [write32]
@[simp] theorem write32_result (base : Word) (r : DmacReg) (v : Word) (s : State) :
    (write32 base r v s).result = s.result := by
  simp [write32]
@[simp] theorem write32_bus (base : Word) (r : DmacReg) (v : Word) (s : State) :
    (write32 base r v s).bus = s.bus ++ [.write32 (regAddr base r) v] := by
  simp [write32]

/-! ### `readState`: as `read32` of the status register -/

@[simp] theorem readState_cfg (ctx : ExecutionContext) (s : State) :
    ((readState ctx s).2).cfg = s.cfg := by
  simp [readState]
@[simp] theorem readState_mem (ctx : ExecutionContext) (s : State) :
    ((readState ctx s).2).mem = s.mem := by
  simp [readState]
@[simp] theorem readState_dmac (ctx : ExecutionContext) (s : State) :
    ((readState ctx s).2).dmac = putReg (statusReg ctx) (read32 ctx.regBase (statusReg ctx) s).1 s.dmac := by
  simp [readState]
@[simp] theorem readState_regFrees (ctx : ExecutionContext) (s : State) :
    ((readState ctx s).2).regFrees = s.regFrees := by
  simp [readState]
@[simp] theorem readState_wild (ctx : ExecutionContext) (s : State) :
    ((readState ctx s).2).wild = s.wild := by
  simp [readState]
@[simp] theorem readState_ctxs (ctx : ExecutionContext) (s : State) :
    ((readState ctx s).2).ctxs = s.ctxs := by
  simp [readState]
@[simp] theorem readState_programs (ctx : ExecutionContext) (s : State) :
    ((readState ctx s).2).programs = s.programs := by
  simp [readState]
@[simp] theorem readState_issues (ctx : ExecutionContext) (s : State) :
    ((readState ctx s).2).issues = s.issues := by
  simp [readState]
@[simp] theorem readState_build (ctx : ExecutionContext) (s : State) :
    ((readState ctx s).2).build = s.build := by
  simp [readState]
@[simp] theorem readState_active (ctx : ExecutionContext) (s : State) :
    ((readState ctx s).2).active = s.active := by
  simp [readState]
@[simp] theorem readState_emitPort (ctx : ExecutionContext) (s : State) :
    ((readState ctx s).2).emitPort = s.emitPort := by
  simp [readState]
@[simp] theorem readState_inbox (ctx : ExecutionContext) (s : State) :
    ((readState ctx s).2).inbox = s.inbox := by
  simp [readState]
@[simp] theorem readState_result (ctx : ExecutionContext) (s : State) :
    ((readState ctx s).2).result = s.result := by
  simp [readState]
@[simp] theorem readState_bus (ctx : ExecutionContext) (s : State) :
    ((readState ctx s).2).bus = s.bus ++ [.read32 (regAddr ctx.regBase (statusReg ctx)) (read32 ctx.regBase (statusReg ctx) s).1] := by
  simp [readState]

end Sys2Proof.Machine
end

