-- ==== Sys2Proof/Laws/Memory.lean ====
section
/-! SUPPORT. System memory: what a read sees after a write or a forgetting, and that both keep the canonical form. -/

namespace Sys2Proof.Machine

/-- The canonical form as a property of the whole list: addresses strictly rising, the last inside the space. -/
theorem Memory.wf_iff (m : List Host.Cell) :
    Memory.wf m = true ↔ m.Pairwise (fun c d => c.1 < d.1) ∧ ∀ c ∈ m, c.1 < Config.addrSpace := by
  induction m with
  | nil => simp [Memory.wf]
  | cons c rest ih =>
    cases rest with
    | nil => simp [Memory.wf]
    | cons d rest =>
      simp only [Memory.wf, Bool.and_eq_true, decide_eq_true_eq, ih, List.pairwise_cons, List.mem_cons]
      constructor
      · rintro ⟨h, ⟨h1, h2⟩, h3⟩
        have hd := h3 d (Or.inl rfl)
        refine ⟨⟨?_, h1, h2⟩, ?_⟩
        · rintro e (rfl | he)
          · exact h
          · exact h.trans (h1 e he)
        · rintro e (rfl | rfl | he)
          · exact h.trans hd
          · exact hd
          · exact h3 e (Or.inr he)
      · rintro ⟨⟨h, h1, h2⟩, h3⟩
        exact ⟨h d (Or.inl rfl), ⟨h1, h2⟩, fun e he => h3 e (Or.inr he)⟩

@[simp] theorem Memory.wf_nil : Memory.wf [] = true := rfl

/-- Reading after a write: the byte written, and every other byte as before. -/
theorem Memory.read_write (m : List Host.Cell) (a b : Nat) (v : Byte) :
    Memory.read (Memory.write a v m) b = if b = a then some v else Memory.read m b := by
  by_cases h : b = a
  · subst h
    rw [if_pos rfl]
    induction m with
    | nil => simp [Memory.write, Memory.read]
    | cons c rest ih =>
      unfold Memory.write
      split_ifs with h1 h2
      · simp [Memory.read]
      · simp [Memory.read]
      · simp [Memory.read, ih, Ne.symm h2]
  · rw [if_neg h]
    induction m with
    | nil => simp [Memory.write, Memory.read, Ne.symm h]
    | cons c rest ih =>
      unfold Memory.write
      split_ifs with h1 h2
      · simp [Memory.read, Ne.symm h]
      · simp [Memory.read, ← h2, Ne.symm h]
      · simp [Memory.read, ih]

/-- A cell of a written memory is the one written or an old one. -/
theorem Memory.mem_write {m : List Host.Cell} {a : Nat} {v : Byte} {c : Host.Cell}
    (h : c ∈ Memory.write a v m) : c = (a, v) ∨ c ∈ m := by
  induction m with
  | nil => simpa [Memory.write] using h
  | cons d rest ih =>
    unfold Memory.write at h
    split_ifs at h with h1 h2
    · simpa using h
    · rcases List.mem_cons.1 h with h | h
      · exact Or.inl h
      · exact Or.inr (List.mem_cons_of_mem _ h)
    · rcases List.mem_cons.1 h with h | h
      · exact Or.inr (by simp [h])
      · exact (ih h).imp id (List.mem_cons_of_mem _)

/-- A write inside the address space keeps the canonical form. -/
theorem Memory.wf_write {m : List Host.Cell} {a : Nat} {v : Byte} (hm : Memory.wf m = true)
    (ha : a < Config.addrSpace) : Memory.wf (Memory.write a v m) = true := by
  rw [Memory.wf_iff] at hm ⊢
  refine ⟨?_, fun c hc => ?_⟩
  · obtain ⟨hs, -⟩ := hm
    induction m with
    | nil => simp [Memory.write]
    | cons c rest ih =>
      obtain ⟨hc, hr⟩ := List.pairwise_cons.1 hs
      unfold Memory.write
      split_ifs with h1 h2
      · refine List.pairwise_cons.2 ⟨fun d hd => ?_, hs⟩
        rcases List.mem_cons.1 hd with rfl | hd
        · exact h1
        · exact h1.trans (hc d hd)
      · exact List.pairwise_cons.2 ⟨fun d hd => h2 ▸ hc d hd, hr⟩
      · refine List.pairwise_cons.2 ⟨fun d hd => ?_, ih hr⟩
        rcases Memory.mem_write hd with rfl | hd
        · show c.1 < a
          omega
        · exact hc d hd
  · rcases Memory.mem_write hc with rfl | hc
    · exact ha
    · exact hm.2 c hc

/-- Forgetting bytes keeps the canonical form. -/
theorem Memory.wf_forget {m : List Host.Cell} (q : Word → Bool) (hm : Memory.wf m = true) :
    Memory.wf (Memory.forget q m) = true := by
  rw [Memory.wf_iff] at hm ⊢
  exact ⟨hm.1.filter _, fun c hc => hm.2 c (List.mem_filter.1 hc).1⟩

/-- Reading after some bytes were forgotten: nothing where they stood, and every other byte as before. -/
theorem Memory.read_forget (m : List Host.Cell) (q : Word → Bool) (a : Word) :
    Memory.read (Memory.forget q m) a.toNat = if q a then none else Memory.read m a.toNat := by
  induction m with
  | nil => simp [Memory.forget, Memory.read]
  | cons c rest ih =>
    unfold Memory.forget at ih ⊢
    by_cases hc : c.1 = a.toNat
    · by_cases hr : q a = true
      · simp [hc, hr] at ih ⊢
        exact ih
      · simp [hc, hr, Memory.read]
    · by_cases hp : q (BitVec.ofNat 32 c.1) = true
      · rw [List.filter_cons_of_neg (by simp [hp]), ih]
        simp [Memory.read, hc]
      · rw [List.filter_cons_of_pos (by simp [hp])]
        simp [Memory.read, hc, ih]

/-- `byteAt` of a state is a read of its memory. -/
theorem byteAt_def (s : State) (a : Word) : byteAt s a = Memory.read s.mem a.toNat := rfl

/-- Two states with the same memory hold the same bytes. -/
theorem byteAt_congr {s t : State} (h : t.mem = s.mem) (a : Word) : byteAt t a = byteAt s a := by
  rw [byteAt_def, byteAt_def, h]

/-- What `forgetTransfers` leaves of memory: no byte a picked transfer may change is known, and every other byte is as
before (R367, U2). -/
theorem byteAt_forgetTransfers (p : Issue → Bool) (len : Issue → Nat) (s : State) (a : Word) :
    byteAt (forgetTransfers p len s) a
      = if s.issues.any (fun i => p i && mayWrite len i a) then none else byteAt s a := by
  rw [byteAt_def, byteAt_def, forgetTransfers, Memory.read_forget]

/-- `forgetTransfers` keeps the canonical form. -/
theorem wf_forgetTransfers (p : Issue → Bool) (len : Issue → Nat) {s : State} (hs : Memory.wf s.mem = true) :
    Memory.wf (forgetTransfers p len s).mem = true := by
  have h := Memory.wf_forget (fun a => s.issues.any fun i => p i && mayWrite len i a) hs
  exact h

/-! ### What a store disturbs -/

/-- A longer range holds the bytes of a shorter one. -/
theorem inRange_mono {base a : Word} {n m : Nat} (h : n ≤ m) (ha : inRange base n a = true) :
    inRange base m a = true := by
  simp only [inRange, decide_eq_true_eq] at ha ⊢
  omega

/-- What a transfer may write is part of what it may write when it is disturbed. -/
theorem mayWrite_moved_le {i : Issue} {a : Word} (h : mayWrite movedLength i a = true) :
    mayWrite wholeLength i a = true := by
  unfold mayWrite at h ⊢
  split_ifs at h ⊢ with ho
  · exact h
  · refine inRange_mono ?_ h
    unfold movedLength wholeLength
    split_ifs <;> omega

/-- What a disturbed transfer may write (U1 to U3). -/
theorem mayWrite_markDisturbed (p : Issue → Bool) (i : Issue) (a : Word) :
    mayWrite movedLength (markDisturbed p i) a
      = if p i then mayWrite wholeLength i a else mayWrite movedLength i a := by
  unfold mayWrite movedLength wholeLength markDisturbed transferRanges
  by_cases h : p i = true <;> simp [h]

@[simp] theorem mayWrite_whole_markDisturbed (p : Issue → Bool) (i : Issue) (a : Word) :
    mayWrite wholeLength (markDisturbed p i) a = mayWrite wholeLength i a := rfl

/-- What is known of a channel depends on `chans` only. -/
theorem chanEnv_congr {s t : State} (h : t.chans = s.chans) (n : Nat) : chanEnv t n = chanEnv s n := by
  unfold chanEnv
  rw [h]

/-- Whether a transfer may be executing depends on the channels only. -/
theorem mayRun_congr {s t : State} (he : t.chans = s.chans) (i : Issue) : mayRun t i = mayRun s i := by
  unfold mayRun
  rw [chanEnv_congr he]

/-- What the DMAC may write depends on the channels and the transfers only. -/
theorem dmaMay_congr {s t : State} (he : t.chans = s.chans) (hi : t.issues = s.issues) (a : Word) :
    dmaMay t a = dmaMay s a := by
  unfold dmaMay
  simp only [hi, mayRun_congr he]

/-- A program that a store mutates is a transfer's that may be executing. -/
theorem mayRun_of_mutates (s : State) {a : Word} {i : Issue} (h : mutates a i = true) : mayRun s i = true := by
  simp only [mutates, Bool.and_eq_true] at h
  simp [mayRun, h.1]

/-- What the DMAC may write after a store: what it might before, and all of the destinations of the transfers the store
disturbs (U1). -/
theorem dmaMay_storeByte (a b : Word) (v : Byte) (s : State) :
    dmaMay (storeByte a v s) b
      = (s.issues.any (fun i => mutates a i && mayWrite wholeLength i b) || dmaMay s b) := by
  have key : ∀ i : Issue, (mayRun s i && mayWrite movedLength (markDisturbed (mutates a) i) b)
      = ((mutates a i && mayWrite wholeLength i b) || (mayRun s i && mayWrite movedLength i b)) := by
    intro i
    rw [mayWrite_markDisturbed]
    by_cases h : mutates a i = true
    · have hm := mayRun_of_mutates s h
      by_cases hw : mayWrite movedLength i b = true
      · simp [h, hm, hw, mayWrite_moved_le hw]
      · simp [h, hm, hw]
    · simp [h]
  show (s.issues.map (markDisturbed (mutates a))).any (fun i => mayRun s i && mayWrite movedLength i b) = _
  rw [List.any_map]
  have e : ((fun i => mayRun s i && mayWrite movedLength i b) ∘ markDisturbed (mutates a))
      = fun i => (mutates a i && mayWrite wholeLength i b) || (mayRun s i && mayWrite movedLength i b) :=
    funext key
  rw [e, dmaMay]
  generalize s.issues = is
  induction is with
  | nil => rfl
  | cons i is ih =>
    simp only [List.any_cons, ih]
    ac_rfl

/-- One byte after a store: no value where the store disturbs a transfer that may write it (U1), the value stored unless
a transfer that may be executing may write it (log 12), and every other byte as before. -/
theorem byteAt_storeByte (a b : Word) (v : Byte) (s : State) :
    byteAt (storeByte a v s) b
      = if s.issues.any (fun i => mutates a i && mayWrite wholeLength i b) then none
        else if b = a then (if dmaMay s b then none else some v) else byteAt s b := by
  have hd := dmaMay_storeByte a a v s
  have e : byteAt (storeByte a v s) b
      = if b = a then (if dmaMay (storeByte a v s) a then none else some v)
        else if s.issues.any (fun i => mutates a i && mayWrite wholeLength i b) then none else byteAt s b := by
    have h1 : dmaMay (storeByte a v s) a
        = dmaMay { disturb (mutates a) s with wild := s.wild || s.issues.any (mutates a) } a := rfl
    rw [h1]
    unfold storeByte settleByte
    rw [byteAt_def]
    dsimp only
    have hdist : byteAt (disturb (mutates a) s) b
        = if s.issues.any (fun i => mutates a i && mayWrite wholeLength i b) then none else byteAt s b :=
      byteAt_forgetTransfers (mutates a) wholeLength s b
    rw [byteAt_def (disturb (mutates a) s)] at hdist
    split_ifs with c1 c2 c3 <;> simp_all [Memory.read_forget, Memory.read_write, BitVec.toNat_inj]
  rw [e, hd]
  by_cases hb : b = a
  · subst hb
    by_cases hm : (s.issues.any fun i => mutates b i && mayWrite wholeLength i b) = true
    · simp only [hm, Bool.true_or, if_true]
    · rw [Bool.not_eq_true] at hm
      simp only [hm, Bool.false_or, if_true, Bool.false_eq_true, if_false]
  · simp only [hb, if_false]

/-- A store keeps the canonical form. -/
theorem wf_storeByte (a : Word) (v : Byte) {s : State} (hs : Memory.wf s.mem = true) :
    Memory.wf (storeByte a v s).mem = true := by
  have h : Memory.wf (disturb (mutates a) s).mem = true := wf_forgetTransfers _ _ hs
  unfold storeByte settleByte
  dsimp only
  split_ifs
  · exact Memory.wf_forget _ h
  · exact Memory.wf_write h a.isLt

/-- `MemWrite8` keeps the canonical form. -/
theorem wf_memWrite8 (a : Word) (v : Byte) {s : State} (hs : Memory.wf s.mem = true) :
    Memory.wf (memWrite8 a v s).mem = true := wf_storeByte a v hs

/-- One byte after `MemWrite8` (R9). -/
theorem byteAt_memWrite8 (a b : Word) (v : Byte) (s : State) :
    byteAt (memWrite8 a v s) b
      = if s.issues.any (fun i => mutates a i && mayWrite wholeLength i b) then none
        else if b = a then (if dmaMay s b then none else some v) else byteAt s b := byteAt_storeByte a b v s

/-- Which registers transfers reach into depends on the ranges and the channels alone, not on the transfers' marks. -/
theorem regs_congr {s t : State} (f : Issue → Issue)
    (hf : ∀ i, (f i).data = i.data ∧ (f i).record = i.record ∧ (f i).chan = i.chan ∧ (f i).isOpen = i.isOpen)
    (hi : t.issues = s.issues.map f) (he : t.chans = s.chans) (hg : t.cfg = s.cfg) :
    registersHit t = registersHit s ∧ regMay t = regMay s := by
  have hr : ∀ i, mayRun t (f i) = mayRun s i := fun i => by
    rw [mayRun_congr he]; unfold mayRun; rw [(hf i).2.2.1, (hf i).2.2.2]
  have hranges : ∀ i, transferRanges (f i) = transferRanges i := fun i => by
    unfold transferRanges; rw [(hf i).1, (hf i).2.1]
  refine ⟨?_, funext fun r => ?_⟩
  · unfold registersHit
    rw [hi, hg, List.any_map]
    congr 1
    funext i
    simp only [Function.comp, hr, hranges]
  · unfold regMay
    rw [hi, hg, List.any_map]
    congr 1
    funext i
    simp only [Function.comp, hr, hranges]

/-- Which registers transfers reach into depends on the channels, the transfers and the configuration only. -/
theorem regMay_congr {s t : State} (he : t.chans = s.chans) (hi : t.issues = s.issues) (hg : t.cfg = s.cfg)
    (r : DmacReg) : regMay t r = regMay s r :=
  congrFun (regs_congr id (fun _ => ⟨rfl, rfl, rfl, rfl⟩) (by rw [List.map_id]; exact hi) he hg).2 r

/-- What R371 says depends on the ranges and the channels alone, not on the transfers' marks. -/
theorem hazards_congr {s t : State} (f : Issue → Issue)
    (hf : ∀ i, (f i).data = i.data ∧ (f i).record = i.record ∧ (f i).chan = i.chan ∧ (f i).isOpen = i.isOpen)
    (hi : t.issues = s.issues.map f) (he : t.chans = s.chans) (hg : t.cfg = s.cfg) :
    markHazards t = markHazards s ∧ transfersDisturb t = transfersDisturb s := by
  have hr : ∀ i, mayRun t i = mayRun s i := mayRun_congr he
  have hrf : ∀ i, mayRun s (f i) = mayRun s i := fun i => by
    unfold mayRun; rw [(hf i).2.2.1, (hf i).2.2.2]
  have hover : ∀ i j, overProgram t i j = overProgram s i j := fun i j => by unfold overProgram; rw [hr, hr]
  have hleft : ∀ i j, overProgram s (f i) j = overProgram s i j := fun i j => by
    unfold overProgram; rw [hrf, (hf i).1]
  have hright : ∀ i j, overProgram s i (f j) = overProgram s i j := fun i j => by
    unfold overProgram; rw [hrf, (hf j).2.1]
  have hreg : registersHit t = registersHit s := (regs_congr f hf hi he hg).1
  refine ⟨funext fun i => ?_, ?_⟩
  · unfold markHazards hazardNow
    rw [hreg, hr, hi, hg, List.any_map]
    congr 3
    congr 1
    funext j
    simp [hover, hleft, hright]
  · unfold transfersDisturb
    rw [hreg, hi, List.any_map]
    congr 2
    funext i
    simp only [Function.comp, List.any_map, hover, hleft]
    congr 1
    funext j
    exact hright i j

/-- Memory at reset is in canonical form. -/
theorem wf_reset_mem : Memory.wf State.reset.mem = true := rfl

end Sys2Proof.Machine
end

