-- ==== Sys2Proof/Laws/Emitter.lean ====
section
/-! SUPPORT. The emitter's primitive and the builder's checked form of it (R110, R210): what several `MemWrite8` leave, and
the ways a `cemit` ends. -/

namespace Sys2Proof.Machine

/-! ### Several `MemWrite8` -/

@[simp] theorem memWriteBytes_nil (a : Word) (s : State) : memWriteBytes a [] s = s := rfl

theorem memWriteBytes_cons (a : Word) (v : Byte) (bs : List Byte) (s : State) :
    memWriteBytes a (v :: bs) s = memWriteBytes (a + 1) bs (memWrite8 a v s) := rfl

/-- Writing two runs of bytes, one behind the other. -/
theorem memWriteBytes_append (a : Word) (xs ys : List Byte) (s : State) :
    memWriteBytes a (xs ++ ys) s = memWriteBytes (a + BitVec.ofNat 32 xs.length) ys (memWriteBytes a xs s) := by
  induction xs generalizing a s with
  | nil => simp
  | cons v xs ih =>
    rw [List.cons_append, memWriteBytes_cons, memWriteBytes_cons, ih]
    congr 1
    rw [List.length_cons, BitVec.add_assoc]
    congr 1
    rw [Nat.add_comm xs.length 1, BitVec.ofNat_add]
    rfl

/-- `t` with the fields memory writes touch put back. -/
def memBack (s t : State) : State := { t with mem := s.mem, wild := s.wild, issues := s.issues, bus := s.bus }

/-- `t` differs from `s` at most in memory, the marks of a disturbance and the accesses. -/
def MemOnly (s t : State) : Prop := memBack s t = s

theorem MemOnly.refl (s : State) : MemOnly s s := rfl

theorem MemOnly.trans {s t u : State} (h1 : MemOnly s t) (h2 : MemOnly t u) : MemOnly s u :=
  (congrArg (memBack s) h2).trans h1

theorem memOnly_memWriteBytes (a : Word) (bs : List Byte) (s : State) : MemOnly s (memWriteBytes a bs s) := by
  induction bs generalizing a s with
  | nil => exact MemOnly.refl s
  | cons v bs ih => exact (show MemOnly s (memWrite8 a v s) from rfl).trans (ih (a + 1) _)

theorem MemOnly.cfg {s t : State} (h : MemOnly s t) : t.cfg = s.cfg :=
  (congrArg State.cfg h : (memBack s t).cfg = s.cfg)
theorem MemOnly.dmac {s t : State} (h : MemOnly s t) : t.dmac = s.dmac :=
  (congrArg State.dmac h : (memBack s t).dmac = s.dmac)
theorem MemOnly.chans {s t : State} (h : MemOnly s t) : t.chans = s.chans :=
  (congrArg State.chans h : (memBack s t).chans = s.chans)
theorem MemOnly.dbgEnv {s t : State} (h : MemOnly s t) : t.dbgEnv = s.dbgEnv :=
  (congrArg State.dbgEnv h : (memBack s t).dbgEnv = s.dbgEnv)
theorem MemOnly.draws {s t : State} (h : MemOnly s t) : t.draws = s.draws :=
  (congrArg State.draws h : (memBack s t).draws = s.draws)
theorem MemOnly.drawCount {s t : State} (h : MemOnly s t) : t.drawCount = s.drawCount :=
  (congrArg State.drawCount h : (memBack s t).drawCount = s.drawCount)
theorem MemOnly.ctxs {s t : State} (h : MemOnly s t) : t.ctxs = s.ctxs :=
  (congrArg State.ctxs h : (memBack s t).ctxs = s.ctxs)
theorem MemOnly.programs {s t : State} (h : MemOnly s t) : t.programs = s.programs :=
  (congrArg State.programs h : (memBack s t).programs = s.programs)
theorem MemOnly.build {s t : State} (h : MemOnly s t) : t.build = s.build :=
  (congrArg State.build h : (memBack s t).build = s.build)
theorem MemOnly.active {s t : State} (h : MemOnly s t) : t.active = s.active :=
  (congrArg State.active h : (memBack s t).active = s.active)
theorem MemOnly.emitPort {s t : State} (h : MemOnly s t) : t.emitPort = s.emitPort :=
  (congrArg State.emitPort h : (memBack s t).emitPort = s.emitPort)
theorem MemOnly.inbox {s t : State} (h : MemOnly s t) : t.inbox = s.inbox :=
  (congrArg State.inbox h : (memBack s t).inbox = s.inbox)
theorem MemOnly.result {s t : State} (h : MemOnly s t) : t.result = s.result :=
  (congrArg State.result h : (memBack s t).result = s.result)

/-- Memory writes do not look at the build state. -/
theorem memWriteBytes_setBuild (a : Word) (bs : List Byte) (b : Option BuildState) (s : State) :
    memWriteBytes a bs { s with build := b } = { memWriteBytes a bs s with build := b } := by
  induction bs generalizing a s with
  | nil => rfl
  | cons v bs ih => exact ih (a + 1) (memWrite8 a v s)

/-- The accesses of several writes, in rising order (R61, R67). -/
theorem memWriteBytes_bus (a : Word) (bs : List Byte) (s : State) :
    (memWriteBytes a bs s).bus = s.bus ++ writeEvents a bs := by
  induction bs generalizing a s with
  | nil => simp [writeEvents]
  | cons v bs ih =>
    rw [memWriteBytes_cons, ih, memWrite8_bus]
    simp only [writeEvents, List.mapIdx_cons, List.append_assoc, List.cons_append, List.nil_append]
    congr 2
    · simp
    · apply List.ext_getElem?
      intro k
      simp only [List.getElem?_mapIdx]
      cases bs[k]? with
      | none => rfl
      | some v =>
        simp only [Option.map_some, Option.some.injEq, BusEvent.memWrite8.injEq, and_true]
        rw [BitVec.add_assoc, Nat.add_comm k 1, BitVec.ofNat_add]
        rfl

/-- Several writes keep the canonical form of memory. -/
theorem wf_memWriteBytes (a : Word) (bs : List Byte) {s : State} (hs : Memory.wf s.mem = true) :
    Memory.wf (memWriteBytes a bs s).mem = true := by
  induction bs generalizing a s with
  | nil => exact hs
  | cons v bs ih => exact ih (a + 1) (wf_memWrite8 a v hs)

/-- What `n` bytes reach into: the first, or one of the others. -/
theorem hitBy_succ (a : Word) (n : Nat) (i : Issue) :
    hitBy a (n + 1) i = (mutates a i || hitBy (a + 1) n i) := by
  have e : (List.range (n + 1)).any (fun k => inRange i.record.base i.record.length (a + BitVec.ofNat 32 k))
      = (inRange i.record.base i.record.length a
        || (List.range n).any fun k => inRange i.record.base i.record.length (a + 1 + BitVec.ofNat 32 k)) := by
    rw [List.range_succ_eq_map, List.any_cons, List.any_map]
    congr 1
    · simp
    · congr 1
      funext k
      simp only [Function.comp, Nat.succ_eq_add_one]
      rw [BitVec.add_assoc, Nat.add_comm k 1, BitVec.ofNat_add]
      rfl
  unfold hitBy mutates
  rw [e]
  cases i.isOpen <;> simp

@[simp] theorem hitBy_zero (a : Word) (i : Issue) : hitBy a 0 i = false := by
  simp [hitBy]

theorem markDisturbed_or (p q : Issue → Bool) (hq : ∀ i, q (markDisturbed p i) = q i) (i : Issue) :
    markDisturbed q (markDisturbed p i) = markDisturbed (fun i => p i || q i) i := by
  simp only [markDisturbed]
  rw [show q { i with disturbed := i.disturbed || p i } = q i from hq i, Bool.or_assoc]

/-- The transfers after several writes: those whose program they reach into are marked (U1). -/
theorem memWriteBytes_issues (a : Word) (bs : List Byte) (s : State) :
    (memWriteBytes a bs s).issues = s.issues.map (markDisturbed (hitBy a bs.length)) := by
  induction bs generalizing a s with
  | nil =>
    have : markDisturbed (hitBy a 0) = id := by
      funext i
      simp [markDisturbed]
    simp [this]
  | cons v bs ih =>
    rw [memWriteBytes_cons, ih, memWrite8_issues, List.map_map]
    apply List.map_congr_left
    intro i _
    simp only [Function.comp]
    rw [markDisturbed_or _ _ fun _ => rfl]
    congr 1
    funext j
    rw [List.length_cons, hitBy_succ]

theorem any_or {α : Type} (p q : α → Bool) (l : List α) :
    l.any (fun x => p x || q x) = (l.any p || l.any q) := by
  induction l with
  | nil => rfl
  | cons x l ih =>
    simp only [List.any_cons, ih]
    ac_rfl

/-- The mark of a disturbance after several writes (R365, U1). -/
theorem memWriteBytes_wild (a : Word) (bs : List Byte) (s : State) :
    (memWriteBytes a bs s).wild = (s.wild || s.issues.any (hitBy a bs.length)) := by
  induction bs generalizing a s with
  | nil =>
    have : s.issues.any (hitBy a 0) = false := by simp
    simp [this]
  | cons v bs ih =>
    have e : (memWrite8 a v s).issues.any (hitBy (a + 1) bs.length)
        = s.issues.any (hitBy (a + 1) bs.length) := by
      rw [memWrite8_issues, List.any_map]
      rfl
    rw [memWriteBytes_cons, ih, memWrite8_wild, e, Bool.or_assoc, ← any_or]
    congr 2
    funext i
    rw [List.length_cons, hitBy_succ]

/-- Several writes disturb what they reach into (R365, U1). -/
theorem storeDisturbs_memWriteBytes (a : Word) (bs : List Byte) (s : State) :
    storeDisturbs s (memWriteBytes a bs s) a bs.length :=
  ⟨memWriteBytes_wild a bs s, memWriteBytes_issues a bs s⟩

/-- Memory after several writes that do not run over the end of the address space onto themselves. -/
theorem storedBytes_memWriteBytes (a : Word) (bs : List Byte) (s : State) (h : bs.length ≤ 2 ^ 32) :
    storedBytes s (memWriteBytes a bs s) a bs := by
  induction bs generalizing a s with
  | nil => intro x; simp
  | cons v bs ih =>
    intro x
    have hn : bs.length + 1 ≤ 2 ^ 32 := by simpa using h
    have hi := ih (a + 1) (memWrite8 a v s) (by omega) x
    have e1 : (memWrite8 a v s).issues.any
          (fun i => hitBy (a + 1) bs.length i && mayWrite wholeLength i x)
        = s.issues.any fun i => hitBy (a + 1) bs.length i && mayWrite wholeLength i x := by
      rw [memWrite8_issues, List.any_map]
      rfl
    have e2 : s.issues.any (fun i => hitBy a (v :: bs).length i && mayWrite wholeLength i x)
        = (s.issues.any (fun i => mutates a i && mayWrite wholeLength i x)
          || s.issues.any fun i => hitBy (a + 1) bs.length i && mayWrite wholeLength i x) := by
      rw [← any_or]
      congr 1
      funext i
      rw [List.length_cons, hitBy_succ, Bool.and_or_distrib_right]
    have e3 : dmaMay (memWrite8 a v s) x
        = (s.issues.any (fun i => mutates a i && mayWrite wholeLength i x) || dmaMay s x) :=
      dmaMay_storeByte a x v s
    rw [e1, e3, byteAt_memWrite8] at hi
    rw [memWriteBytes_cons, hi, e2]
    have hx : x = a ∨ (x ≠ a ∧ (x - a).toNat = (x - (a + 1)).toNat + 1) := by
      by_cases hx : x = a
      · exact Or.inl hx
      · exact Or.inr ⟨hx, by bv_omega⟩
    rcases hx with rfl | ⟨hx, hk⟩
    · have h1 : (x - (x + 1)).toNat = 2 ^ 32 - 1 := by
        bv_omega
      rw [h1, List.getElem?_eq_none (by omega : bs.length ≤ 2 ^ 32 - 1)]
      cases s.issues.any (fun i => mutates x i && mayWrite wholeLength i x) <;>
        cases s.issues.any (fun i => hitBy (x + 1) bs.length i && mayWrite wholeLength i x) <;> simp
    · rw [hk, List.getElem?_cons_succ]
      cases s.issues.any (fun i => mutates a i && mayWrite wholeLength i x) <;>
        cases s.issues.any (fun i => hitBy (a + 1) bs.length i && mayWrite wholeLength i x) <;>
        cases bs[(x - (a + 1)).toNat]? <;> simp [hx]

/-- What a store leaves depends, of the state after it, on memory only. -/
theorem storedBytes_congr {s t u : State} {a : Word} {bs : List Byte} (h : u.mem = t.mem)
    (hs : storedBytes s t a bs) : storedBytes s u a bs := fun x => (byteAt_congr h x).trans (hs x)

/-! ### The checked emit -/

/-- The encoding of an instruction has its tabled length (R80); a command has no bytes. -/
theorem enc_length (i : Instr) : (enc i).length = i.size := by
  cases i <;> rfl

/-- A `cemit` with room: the bytes at the cursor, the cursor past them. -/
theorem cemit_fits {i : Instr} {s : State} {b : BuildState} (hb : s.build = some b) (hr : b.status = .building)
    (hf : b.off + i.size ≤ b.cap) :
    cemit i s = { memWriteBytes (b.bufBase + BitVec.ofNat 32 b.off) (enc i) s with
                  build := some { b with off := b.off + i.size } } := by
  unfold cemit
  simp only [hb]
  rw [if_pos hr, if_neg (by omega)]
  simp only [emit, hb, enc_length]

/-- A `cemit` without room: BufferOverflow, and the build has failed (R210). -/
theorem cemit_overflows {i : Instr} {s : State} {b : BuildState} (hb : s.build = some b) (hr : b.status = .building)
    (hf : b.cap < b.off + i.size) :
    cemit i s = deliver (.bufferOverflow b.needed b.cap b.off)
      { s with build := some { b with status := .failed } } := by
  unfold cemit
  simp only [hb, hr, if_true]
  rw [if_pos hf]

/-- A `cemit` of a build that is not running does nothing (R220). -/
theorem cemit_stopped {i : Instr} {s : State} (h : buildRunning s = false) : cemit i s = s := by
  unfold buildRunning at h
  unfold cemit
  cases hb : s.build with
  | none => rfl
  | some b =>
    rw [hb] at h
    have : b.status ≠ .building := by simpa using h
    simp [this]

/-- A running build. -/
theorem buildRunning_iff (s : State) : buildRunning s = true ↔ ∃ b, s.build = some b ∧ b.status = .building := by
  unfold buildRunning
  cases s.build <;> simp

end Sys2Proof.Machine
end

