-- ==== Sys2Proof/Laws/Builder.lean ====
section
/-! SUPPORT. What builder operations lay out, said once: a list of operations either emits its instructions whole, or stops
at the first that does not fit (R210 to R220); such lists compose, so a loop and a whole program follow from their
lines. -/

namespace Sys2Proof.Machine

theorem programBytes_append (xs ys : List Instr) : programBytes (xs ++ ys) = programBytes xs ++ programBytes ys := by
  simp [programBytes]

@[simp] theorem programBytes_nil : programBytes [] = [] := rfl

theorem programBytes_singleton (i : Instr) : programBytes [i] = enc i := by
  simp [programBytes]

/-- The build state after `bytes` more bytes. -/
def advance (b : BuildState) (bytes : Nat) : BuildState := { b with off := b.off + bytes }

/-- `ops` lay out the instructions `is` and take the build registers from `b` to `b'`: with room for all of `is`, their
bytes are written and the registers are `b'`; without, the instructions before the first that does not fit are written and
the build has failed with BufferOverflow. -/
def Lays (ops : List BuildOp) (is : List Instr) (b b' : BuildState) : Prop :=
  b.status = .building → ∀ s : State, s.build = some b →
    (b.off + (programBytes is).length ≤ b.cap →
      runOps ops s
        = { memWriteBytes (b.bufBase + BitVec.ofNat 32 b.off) (programBytes is) s with build := some b' })
    ∧ (b.cap < b.off + (programBytes is).length → b.off ≤ b.cap →
      ∃ done i rest b'', is = done ++ i :: rest
        ∧ b.off + (programBytes done).length ≤ b.cap
        ∧ b.cap < b.off + (programBytes done).length + i.size
        ∧ b''.status = .failed
        ∧ runOps ops s = deliver (.bufferOverflow b.needed b.cap (b.off + (programBytes done).length))
            { memWriteBytes (b.bufBase + BitVec.ofNat 32 b.off) (programBytes done) s with build := some b'' })

/-- `b'` is `b` but for the cursor, the frames and the remaining count; the cursor is past `is`. -/
structure Follows (is : List Instr) (b b' : BuildState) : Prop where
  off : b'.off = b.off + (programBytes is).length
  bufBase : b'.bufBase = b.bufBase
  cap : b'.cap = b.cap
  status : b'.status = b.status
  needed : b'.needed = b.needed

theorem runOps_append (xs ys : List BuildOp) (s : State) : runOps (xs ++ ys) s = runOps ys (runOps xs s) := by
  induction xs generalizing s with
  | nil => rfl
  | cons op xs ih => exact ih (runOp op s)

/-- After a failure no operation has an effect (R220). -/
theorem runOp_failed (op : BuildOp) {s : State} {b : BuildState} (hb : s.build = some b) (hf : b.status = .failed) :
    runOp op s = s := by
  have hr : buildRunning s = false := by simp [buildRunning, hb, hf]
  cases op with
  | put i => exact cemit_stopped hr
  | mark c => simp [runOp, markFrame, hb, hf]
  | close c =>
    simp only [runOp, closeLoop, hb]
    cases getFrame c b with
    | none => rfl
    | some f => simp [cemit_stopped hr, clearFrame, hb, hf]
  | moved n => simp [runOp, countMoved, hb, hf]

theorem runOps_failed (ops : List BuildOp) {s : State} {b : BuildState} (hb : s.build = some b)
    (hf : b.status = .failed) : runOps ops s = s := by
  induction ops with
  | nil => rfl
  | cons op ops ih =>
    show runOps ops (runOp op s) = s
    rw [runOp_failed op hb hf, ih]

/-- Nothing laid out. -/
theorem Lays.nil (b : BuildState) : Lays [] [] b b := by
  intro _ s hs
  refine ⟨fun _ => ?_, fun h1 h2 => ?_⟩
  · cases s
    simp at hs
    simp [runOps, hs]
  · simp at h1
    omega

/-- One list of operations after another. -/
theorem Lays.append {ops ops' : List BuildOp} {is is' : List Instr} {b b' b'' : BuildState}
    (h : Lays ops is b b') (hf : Follows is b b') (h' : Lays ops' is' b' b'') :
    Lays (ops ++ ops') (is ++ is') b b'' := by
  intro hb s hs
  rw [programBytes_append, List.length_append]
  have addr : b'.bufBase + BitVec.ofNat 32 b'.off
      = b.bufBase + BitVec.ofNat 32 b.off + BitVec.ofNat 32 (programBytes is).length := by
    rw [hf.bufBase, hf.off, BitVec.ofNat_add, BitVec.add_assoc]
  refine ⟨fun hfit => ?_, fun hover hoff => ?_⟩
  · rw [runOps_append, (h hb s hs).1 (by omega)]
    rw [(h' (hf.status.trans hb) _ rfl).1 (by rw [hf.off, hf.cap]; omega), memWriteBytes_setBuild, addr,
      memWriteBytes_append]
  · by_cases hfit : b.off + (programBytes is).length ≤ b.cap
    · obtain ⟨done, i, rest, c, hd, h1, h2, h3, h4⟩ :=
        (h' (hf.status.trans hb) { memWriteBytes (b.bufBase + BitVec.ofNat 32 b.off) (programBytes is) s with
          build := some b' } rfl).2 (by rw [hf.off, hf.cap]; omega) (by rw [hf.off, hf.cap]; omega)
      refine ⟨is ++ done, i, rest, c, by rw [hd, List.append_assoc], ?_, ?_, h3, ?_⟩
      · rw [programBytes_append, List.length_append]
        rw [hf.off, hf.cap] at h1
        omega
      · rw [programBytes_append, List.length_append]
        rw [hf.off, hf.cap] at h2
        omega
      · rw [runOps_append, (h hb s hs).1 hfit, h4, memWriteBytes_setBuild, addr, programBytes_append,
          memWriteBytes_append, hf.needed, hf.cap, hf.off, List.length_append, Nat.add_assoc]
    · obtain ⟨done, i, rest, c, hd, h1, h2, h3, h4⟩ := (h hb s hs).2 (by omega) hoff
      refine ⟨done, i, rest ++ is', c, by rw [hd]; simp, h1, h2, h3, ?_⟩
      rw [runOps_append, h4]
      exact runOps_failed ops' rfl h3

theorem Follows.refl (b : BuildState) : Follows [] b b where
  off := by simp
  bufBase := rfl
  cap := rfl
  status := rfl
  needed := rfl

theorem Follows.append {is is' : List Instr} {b b' b'' : BuildState} (h : Follows is b b') (h' : Follows is' b' b'') :
    Follows (is ++ is') b b'' where
  off := by rw [h'.off, h.off, programBytes_append, List.length_append, Nat.add_assoc]
  bufBase := h'.bufBase.trans h.bufBase
  cap := h'.cap.trans h.cap
  status := h'.status.trans h.status
  needed := h'.needed.trans h.needed

/-! ### The four operations -/

theorem Follows.put (i : Instr) (b : BuildState) : Follows [i] b (advance b i.size) where
  off := by simp [advance, programBytes_singleton, enc_length]
  bufBase := rfl
  cap := rfl
  status := rfl
  needed := rfl

/-- A checked emit lays out its instruction. -/
theorem Lays.put (i : Instr) (b : BuildState) : Lays [.put i] [i] b (advance b i.size) := by
  intro hb s hs
  rw [programBytes_singleton, enc_length]
  refine ⟨fun hfit => ?_, fun hover hoff => ?_⟩
  · exact cemit_fits hs hb hfit
  · refine ⟨[], i, [], { b with status := .failed }, rfl, by simpa using hoff, by simpa using hover, rfl, ?_⟩
    exact cemit_overflows hs hb hover

/-- Setting a frame lays out nothing. -/
theorem Lays.mark (c : Counter) (b : BuildState) : Lays [.mark c] [] b (setFrame c (some b.off) b) := by
  intro hb s hs
  refine ⟨fun _ => ?_, fun h1 h2 => ?_⟩
  · simp [runOps, runOp, markFrame, hs, hb]
  · simp at h1
    omega

theorem Follows.mark (c : Counter) (f : Option Nat) (b : BuildState) : Follows [] b (setFrame c f b) := by
  cases c <;> exact ⟨by simp [setFrame], rfl, rfl, rfl, rfl⟩

/-- The remaining count going down lays out nothing. -/
theorem Lays.moved (n : Nat) (b : BuildState) : Lays [.moved n] [] b { b with rem := b.rem - n } := by
  intro hb s hs
  refine ⟨fun _ => ?_, fun h1 h2 => ?_⟩
  · simp [runOps, runOp, countMoved, hs, hb]
  · simp at h1
    omega

theorem Follows.moved (n : Nat) (b : BuildState) : Follows [] b { b with rem := b.rem - n } :=
  ⟨by simp, rfl, rfl, rfl, rfl⟩

/-- Every counted loop end is two bytes (R80). -/
theorem lpendInstr_size (c : Counter) (d : Nat) : (lpendInstr c d).size = 2 := by
  cases c <;> rfl

theorem lpInstr_size (c : Counter) (n : Nat) : (lpInstr c n).size = 2 := by
  cases c <;> rfl

/-- The loop end of an open frame lays out an LPEND that jumps back to the frame, and clears the frame (R26, R212). -/
theorem Lays.close {c : Counter} {b : BuildState} {f : Nat} (hfr : getFrame c b = some f) :
    Lays [.close c] [lpendInstr c (b.off - f)] b (setFrame c none (advance b 2)) := by
  intro hb s hs
  rw [programBytes_singleton, enc_length, lpendInstr_size]
  have e : runOps [.close c] s = clearFrame c (cemit (lpendInstr c (b.off - f)) s) := by
    simp [runOps, runOp, closeLoop, hs, hfr]
  rw [e]
  refine ⟨fun hfit => ?_, fun hover hoff => ?_⟩
  · rw [cemit_fits hs hb (by rw [lpendInstr_size]; exact hfit), lpendInstr_size]
    simp [clearFrame, hb, advance]
  · refine ⟨[], _, [], { b with status := .failed }, rfl, by simpa using hoff, ?_, rfl, ?_⟩
    · simp [lpendInstr_size]
      exact hover
    · rw [cemit_overflows hs hb (by rw [lpendInstr_size]; exact hover)]
      simp [clearFrame]

theorem Follows.close (c : Counter) (d : Nat) (b : BuildState) :
    Follows [lpendInstr c d] b (setFrame c none (advance b 2)) := by
  cases c <;> exact ⟨by simp [setFrame, advance, programBytes_singleton, enc_length, lpendInstr_size], rfl, rfl, rfl, rfl⟩

/-- Several checked emits. -/
theorem Lays.puts (is : List Instr) (b : BuildState) :
    Lays (is.map .put) is b (advance b (programBytes is).length)
      ∧ Follows is b (advance b (programBytes is).length) := by
  induction is generalizing b with
  | nil =>
    have e : advance b (programBytes []).length = b := rfl
    rw [e]
    exact ⟨Lays.nil b, Follows.refl b⟩
  | cons i is ih =>
    have e : advance b (programBytes (i :: is)).length = advance (advance b i.size) (programBytes is).length := by
      have : programBytes (i :: is) = enc i ++ programBytes is := rfl
      simp [advance, this, enc_length, Nat.add_assoc]
    rw [e]
    obtain ⟨h1, h2⟩ := ih (advance b i.size)
    exact ⟨(Lays.put i b).append (Follows.put i b) h1, (Follows.put i b).append h2⟩

/-! ### A whole build command -/

/-- The build registers at a build's first instruction (R23). -/
def openRegs (bufBase : Word) (cap size needed : Nat) : BuildState :=
  ⟨bufBase, cap, 0, none, none, size, .building, needed⟩

/-- A build with room for its whole listing (R219). -/
theorem runBuild_fits {ops : List BuildOp} {is : List Instr} {b' : BuildState} {bufBase : Word} {cap needed : Nat}
    (s : State) (residual : Nat) (data : DataRanges) (h : Lays ops is (openRegs bufBase cap data.size needed) b')
    (hf : Follows is (openRegs bufBase cap data.size needed) b') (hcap : (programBytes is).length ≤ cap) :
    runBuild ops residual data needed bufBase cap s
      = { memWriteBytes bufBase (programBytes is) s with
          build := none
          result := some (.okProgram ⟨bufBase, cap, (programBytes is).length, residual⟩)
          programs := ⟨⟨bufBase, cap, (programBytes is).length, residual⟩, data⟩ :: s.programs } := by
  have e := (h rfl (openBuild bufBase cap data.size needed s) rfl).1 (by simpa [openRegs] using hcap)
  have h1 := hf.status
  have h2 := hf.off
  have h3 := hf.bufBase
  have h4 := hf.cap
  simp only [openRegs, Nat.zero_add] at h1 h2 h3 h4
  rw [runBuild, e]
  simp [endBuild, h1, finishBuild, h2, h3, h4, deliver, openBuild, openRegs, memWriteBytes_setBuild]
  rw [(memOnly_memWriteBytes bufBase (programBytes is) s).programs]

/-- A build without that room: it stops at the first instruction that does not fit (R220). -/
theorem runBuild_overflows {ops : List BuildOp} {is : List Instr} {b' : BuildState} {bufBase : Word}
    {cap needed : Nat} (s : State) (residual : Nat) (data : DataRanges)
    (h : Lays ops is (openRegs bufBase cap data.size needed) b') (hcap : cap < (programBytes is).length) :
    ∃ done i rest, is = done ++ i :: rest ∧ (programBytes done).length ≤ cap
      ∧ cap < (programBytes done).length + i.size
      ∧ runBuild ops residual data needed bufBase cap s
        = { memWriteBytes bufBase (programBytes done) s with
            build := none
            result := some (.bufferOverflow needed cap (programBytes done).length) } := by
  obtain ⟨done, i, rest, b'', h1, h2, h3, h4, h5⟩ :=
    (h rfl (openBuild bufBase cap data.size needed s) rfl).2 (by simpa [openRegs] using hcap) (Nat.zero_le _)
  simp only [openRegs, Nat.zero_add] at h2 h3
  refine ⟨done, i, rest, h1, h2, h3, ?_⟩
  rw [runBuild, h5]
  simp [endBuild, h4, deliver, openBuild, openRegs, memWriteBytes_setBuild]

end Sys2Proof.Machine
end

