-- ==== Sys2Proof/Laws/Registers.lean ====
section
/-! SUPPORT. The DMAC's registers and its answers: what a register holds after another took a value, which answers are
still to come after a read, and one lemma per access saying all it does (R9, R301, R302). -/

namespace Sys2Proof.Machine

/-! ### Banks -/

/-- A bank's entry after one entry was written. -/
theorem getD_setIfInBounds {α : Type} {n : Nat} (v : Vector α n) (i j : Nat) (x d : α) :
    (v.setIfInBounds i x).getD j d = if i = j ∧ j < n then x else v.getD j d := by
  by_cases hj : j < n
  · simp only [Vector.getD]
    by_cases h : i = j
    · subst h
      simp [hj]
    · simp [h]
  · have h : ¬ (i = j ∧ j < n) := fun h => hj h.2
    simp [Vector.getD, hj]

/-- A register that is not written keeps its contents. -/
theorem getReg_putReg_of_ne {q r : DmacReg} (v : Word) (d : DmacRegs) (h : r ≠ q) :
    getReg r (putReg q v d) = getReg r d := by
  cases q <;> cases r <;> first
    | rfl
    | exact absurd rfl h
    | (simp only [getReg, putReg, getD_setIfInBounds]
       rw [if_neg]
       rintro ⟨rfl, -⟩
       exact h rfl)

/-- A register of which the DMAC has one holds the value written. -/
@[simp] theorem getReg_putReg_dbgCmd (v : Word) (d : DmacRegs) : (putReg .dbgCmd v d).dbgCmd = v := rfl
@[simp] theorem getReg_putReg_dbgInst0 (v : Word) (d : DmacRegs) : (putReg .dbgInst0 v d).dbgInst0 = v := rfl
@[simp] theorem getReg_putReg_dbgInst1 (v : Word) (d : DmacRegs) : (putReg .dbgInst1 v d).dbgInst1 = v := rfl

/-! ### Registers that a transfer reaches into -/

/-- The registers the model holds are those it lists. -/
theorem mem_dmacRegs_iff (r : DmacReg) : r ∈ dmacRegs ↔ inBank r = true := by
  unfold dmacRegs
  cases r <;> simp [inBank, regChannel]

/-- A register that takes a value holds what it has room for. -/
theorem getReg_putReg_self {r : DmacReg} (v : Word) (d : DmacRegs) (h : inBank r = true) :
    getReg r (putReg r v d) = regField r v := by
  have h8 : ∀ x : Word, (x.setWidth 8).setWidth 32 = x &&& 0xFF := fun x => by
    apply BitVec.eq_of_getLsbD_eq
    intro i hi
    interval_cases i <;> simp
  cases r <;> first
    | rfl
    | (simp only [inBank, regChannel, decide_eq_true_eq] at h
       simp only [getReg, putReg, regField, getD_setIfInBounds]
       rw [if_pos ⟨trivial, h⟩]
       try exact h8 v)

/-- What the registers hold after some of a list took values. -/
theorem getReg_foldl (p : DmacReg → Bool) (f : DmacReg → Word) (r : DmacReg) :
    ∀ (l : List DmacReg) (d : DmacRegs),
      (p r = false → getReg r (l.foldl (fun d q => if p q then putReg q (f q) d else d) d) = getReg r d)
      ∧ (p r = true → inBank r = true → r ∈ l →
          getReg r (l.foldl (fun d q => if p q then putReg q (f q) d else d) d) = regField r (f r)) := by
  intro l
  have step : ∀ (q : DmacReg) (d : DmacRegs), r ≠ q →
      getReg r (if p q then putReg q (f q) d else d) = getReg r d := fun q d h => by
    split_ifs
    · exact getReg_putReg_of_ne _ _ h
    · rfl
  have twice : ∀ (l : List DmacReg) (d : DmacRegs), p r = true → inBank r = true → getReg r d = regField r (f r) →
      getReg r (l.foldl (fun d q => if p q then putReg q (f q) d else d) d) = regField r (f r) := by
    intro l
    induction l with
    | nil => exact fun d _ _ h => h
    | cons q l ih =>
      intro d hp hb h
      refine ih _ hp hb ?_
      by_cases hq : r = q
      · subst hq
        simp only [hp, if_true]
        exact getReg_putReg_self _ _ hb
      · rw [step q d hq, h]
  induction l with
  | nil => exact fun d => ⟨fun _ => rfl, fun _ _ h => absurd h (List.not_mem_nil)⟩
  | cons q l ih =>
    intro d
    by_cases hq : r = q
    · subst hq
      refine ⟨fun hp => ?_, fun hp hb _ => ?_⟩
      · rw [List.foldl_cons]
        simp only [hp, Bool.false_eq_true, if_false]
        exact (ih d).1 hp
      · rw [List.foldl_cons]
        simp only [hp, if_true]
        exact twice l _ hp hb (getReg_putReg_self _ _ hb)
    · refine ⟨fun hp => ?_, fun hp hb hm => ?_⟩
      · rw [List.foldl_cons, (ih _).1 hp, step q d hq]
      · exact (ih _).2 hp hb ((List.mem_cons.1 hm).resolve_left hq)

/-- Every register of the map lies in the frame. -/
theorem regOffset_lt {r : DmacReg} (h : inBank r = true) : regOffset r + 4 ≤ Config.frameBytes := by
  cases r <;> simp [inBank, regChannel] at h <;> simp [regOffset, Config.frameBytes] <;> omega

/-- What meets four bytes inside a range of `m` bytes meets the range. -/
theorem near_base {a base off : Word} {n m : Nat} (ho : off.toNat + 4 ≤ m)
    (h : (base + off - a).toNat < n ∨ (a - (base + off)).toNat < 4) : (base - a).toNat < n ∨ (a - base).toNat < m := by
  have h1 := base.isLt
  have h3 := a.isLt
  have h4 := off.isLt
  simp only [BitVec.toNat_sub, BitVec.toNat_add] at h ⊢
  generalize base.toNat = b at *
  generalize a.toNat = a at *
  generalize off.toNat = o at *
  norm_num at *
  omega

/-- A range that reaches into a register reaches into its frame. -/
theorem rangesMeet_frame {a base : Word} {n : Nat} {r : DmacReg} (hb : inBank r = true)
    (h : rangesMeet a n (regAddr base r) 4 = true) : rangesMeet a n base Config.frameBytes = true := by
  have hoff := regOffset_lt hb
  simp only [rangesMeet, inRange, regAddr, Bool.and_eq_true, Bool.or_eq_true, decide_eq_true_eq, bne_iff_ne] at h ⊢
  refine ⟨⟨h.1.1, by decide⟩, ?_⟩
  refine near_base (off := BitVec.ofNat 32 (regOffset r)) ?_ (by simpa using h.2)
  rw [BitVec.toNat_ofNat]
  omega

/-- So some transfer reaches into a frame. -/
theorem registersHit_of_regMay {s : State} {r : DmacReg} (hb : inBank r = true) (h : regMay s r = true) :
    registersHit s = true := by
  obtain ⟨i, hi, h⟩ := List.any_eq_true.1 h
  simp only [Bool.and_eq_true] at h
  obtain ⟨g, hg, h2⟩ := List.any_eq_true.1 h.2
  refine List.any_eq_true.2 ⟨i, hi, ?_⟩
  simp only [Bool.and_eq_true]
  refine ⟨h.1, List.any_eq_true.2 ⟨g, hg, ?_⟩⟩
  simp only [meetsRegisters, Bool.or_eq_true] at h2 ⊢
  exact h2.imp (rangesMeet_frame hb) (rangesMeet_frame hb)

/-- Settling leaves a register that no transfer reaches into, and gives every other one a free value (U14). -/
theorem getReg_settleRegs {s : State} {r : DmacReg} (h : regMay s r = false) :
    getReg r (settleRegs s).dmac = getReg r s.dmac := by
  unfold settleRegs
  split_ifs
  · exact (getReg_foldl _ _ _ _ _).1 h
  · rfl

theorem settleRegs_free {s : State} {r : DmacReg} (hb : inBank r = true) (h : regMay s r = true) :
    ∃ k, getReg r (settleRegs s).dmac = regField r (Config.freeReg k (regOffset r)) := by
  refine ⟨s.regFrees, ?_⟩
  unfold settleRegs
  rw [if_pos (registersHit_of_regMay hb h)]
  exact (getReg_foldl _ _ _ _ _).2 h hb ((mem_dmacRegs_iff r).2 hb)

/-- Settling changes the registers and the count of its changes, and nothing else. -/
theorem settleRegs_frame (s : State) : { settleRegs s with dmac := s.dmac, regFrees := s.regFrees } = s := by
  unfold settleRegs
  split_ifs <;> rfl

/-- So transfers reach into the same registers after it. -/
theorem regMay_settleRegs (s : State) (r : DmacReg) : regMay (settleRegs s) r = regMay s r :=
  regMay_congr (settleRegs_chans s) (settleRegs_issues s) (settleRegs_cfg s) r

/-! ### Answers still to come -/

@[simp] theorem drawStream_zero (s : State) : drawStream s 0 = nextDraw s := by
  unfold drawStream nextDraw
  cases s.draws <;> simp

/-- A read uses up one answer. -/
theorem drawStream_takeDraw (s : State) (k : Nat) : drawStream (takeDraw s) k = drawStream s (k + 1) := by
  unfold takeDraw drawStream
  rcases h : s.draws with _ | ⟨v, rest⟩
  · simp
    congr 1
    omega
  · simp

/-- The answers still to come depend on the listed draws and the count of the unlisted ones only. -/
theorem drawStream_congr {s t : State} (hd : t.draws = s.draws) (hc : t.drawCount = s.drawCount) (k : Nat) :
    drawStream t k = drawStream s k := by
  unfold drawStream
  rw [hd, hc]

theorem nextDraw_congr {s t : State} (hd : t.draws = s.draws) (hc : t.drawCount = s.drawCount) :
    nextDraw t = nextDraw s := by
  unfold nextDraw
  rw [hd, hc]

/-! ### Reads -/

/-- The value of a read is the one presented. -/
@[simp] theorem read32_value (base : Word) (r : DmacReg) (s : State) : (read32 base r s).1 = presented r s := rfl

@[simp] theorem read32_draws (base : Word) (r : DmacReg) (s : State) :
    (read32 base r s).2.draws = (takeDraw s).draws := by
  simp [read32]

@[simp] theorem read32_drawCount (base : Word) (r : DmacReg) (s : State) :
    (read32 base r s).2.drawCount = (takeDraw s).drawCount := by
  simp [read32]

theorem read32_chans (base : Word) (r : DmacReg) (s : State) :
    (read32 base r s).2.chans = (noteRead r (presented r s) (takeDraw s)).chans := rfl

/-- A read uses up one answer, whichever register it reads. -/
theorem drawStream_read32 (base : Word) (r : DmacReg) (s : State) (k : Nat) :
    drawStream (read32 base r s).2 k = drawStream s (k + 1) := by
  rw [← drawStream_takeDraw]
  exact drawStream_congr (read32_draws base r s) (read32_drawCount base r s) k

/-- A read of a register that ENV_PROTOCOL does not bind presents the DMAC's next answer as it is (R301). -/
theorem presented_of_free {r : DmacReg} (s : State) (h : ∀ n, r ≠ .csr n) (hd : r ≠ .dbgStatus) :
    presented r s = nextDraw s := by
  cases r <;> first | rfl | exact absurd rfl (h _) | exact absurd rfl hd

/-- Without ENV_PROTOCOL, or after a disturbance, every read presents the DMAC's next answer as it is (R301, U1). -/
theorem presented_of_off {s : State} (r : DmacReg) (h : protocolOn s = false) : presented r s = nextDraw s := by
  cases r <;> simp [presented, chanProtocol, h]

/-- What a read of DBGSTATUS presents (R302). -/
theorem presented_dbgStatus (s : State) : presented .dbgStatus s = dbgShown s 0 0 := by
  unfold presented dbgShown debugFilter
  by_cases h : protocolOn s = true <;> simp [h]

/-- A read changes only the answers to come, the register read, what is known of the DMAC, and the accesses. -/
theorem read32_frame (base : Word) (r : DmacReg) (s : State) :
    { (read32 base r s).2 with draws := s.draws, drawCount := s.drawCount, dmac := s.dmac, chans := s.chans,
                               dbgEnv := s.dbgEnv, bus := s.bus } = s := by
  cases s
  simp [read32]

/-- A read of DBGSTATUS tells ENV_PROTOCOL whether the busy run goes on (R302). -/
theorem read32_dbgStatus_dbgEnv (base : Word) (s : State) :
    (read32 base .dbgStatus s).2.dbgEnv = s.dbgEnv.shown (dbgBusy (presented .dbgStatus s)) := by
  show (takeDraw s).dbgEnv.shown _ = _
  rw [takeDraw_dbgEnv]

/-- A read of any other register tells nothing of DBGSTATUS. -/
theorem read32_dbgEnv {r : DmacReg} (base : Word) (s : State) (h : r ≠ .dbgStatus) :
    (read32 base r s).2.dbgEnv = s.dbgEnv := by
  have : (read32 base r s).2.dbgEnv = (takeDraw s).dbgEnv := by
    cases r <;> first | rfl | exact absurd rfl h
  rw [this, takeDraw_dbgEnv]

/-- A read of a register that is no channel's status tells nothing of the channels. -/
theorem read32_chans_kept {r : DmacReg} (base : Word) (s : State) (h : ∀ n, r ≠ .csr n) :
    (read32 base r s).2.chans = s.chans := by
  have : (read32 base r s).2.chans = (takeDraw s).chans := by
    cases r <;> first | rfl | exact absurd rfl (h _)
  rw [this, takeDraw_chans]

/-- Every register but the one read keeps its contents. -/
theorem getReg_read32 {q r : DmacReg} (base : Word) (s : State) (h : q ≠ r) :
    getReg q (read32 base r s).2.dmac = getReg q s.dmac := by
  rw [read32_dmac, getReg_putReg_of_ne _ _ h]

/-! ### Status reads -/

theorem readState_eq (ctx : ExecutionContext) (s : State) :
    readState ctx s = (oracleShows ctx s, (read32 ctx.regBase (statusReg ctx) s).2) := rfl

@[simp] theorem readState_value (ctx : ExecutionContext) (s : State) :
    (readState ctx s).1 = oracleShows ctx s := rfl

theorem readState_bus_eq (ctx : ExecutionContext) (s : State) :
    (readState ctx s).2.bus = s.bus ++ [statusEvent ctx s] := by
  rw [readState_bus]
  rfl

theorem drawStream_readState (ctx : ExecutionContext) (s : State) (k : Nat) :
    drawStream (readState ctx s).2 k = drawStream s (k + 1) := drawStream_read32 _ _ _ _

theorem statusReg_ne_dbgStatus (ctx : ExecutionContext) : statusReg ctx ≠ .dbgStatus := by
  unfold statusReg
  split_ifs <;> simp

/-- A status read tells nothing of DBGSTATUS. -/
theorem readState_dbgEnv (ctx : ExecutionContext) (s : State) : (readState ctx s).2.dbgEnv = s.dbgEnv :=
  read32_dbgEnv _ _ (statusReg_ne_dbgStatus ctx)

theorem readState_frame (ctx : ExecutionContext) (s : State) :
    { (readState ctx s).2 with draws := s.draws, drawCount := s.drawCount, dmac := s.dmac, chans := s.chans,
                               bus := s.bus } = s := by
  have h := read32_frame ctx.regBase (statusReg ctx) s
  rw [← read32_dbgEnv ctx.regBase s (statusReg_ne_dbgStatus ctx)] at h
  exact h

theorem getReg_readState {q : DmacReg} (ctx : ExecutionContext) (s : State) (h : q ≠ statusReg ctx) :
    getReg q (readState ctx s).2.dmac = getReg q s.dmac := getReg_read32 _ _ h

/-! ### Writes -/

theorem drawStream_write32 (base : Word) (r : DmacReg) (v : Word) (s : State) (k : Nat) :
    drawStream (write32 base r v s) k = drawStream s k := drawStream_congr (by simp) (by simp) k

/-- The registers after one was written: settled after the value was put in. -/
theorem storeReg_dmac (r : DmacReg) (v : Word) (s : State) :
    (storeReg r v s).dmac = (settleRegs { s with dmac := putReg r v s.dmac }).dmac := by
  cases r <;> first | rfl | (unfold storeReg; dsimp only; split_ifs <;> simp)

theorem write32_dmac (base : Word) (r : DmacReg) (v : Word) (s : State) :
    (write32 base r v s).dmac = (settleRegs { s with dmac := putReg r v s.dmac }).dmac := storeReg_dmac r v s

/-- A register no transfer reaches into, after a write of a register. -/
theorem getReg_write32 {base : Word} {q r : DmacReg} {v : Word} {s : State} (h : regMay s q = false) :
    getReg q (write32 base r v s).dmac = getReg q (putReg r v s.dmac) := by
  rw [write32_dmac, getReg_settleRegs]
  rw [← h]
  exact regMay_congr rfl rfl rfl q

/-- One a transfer reaches into, after a write of any register (U14). -/
theorem write32_free {base : Word} {q r : DmacReg} {v : Word} {s : State} (hb : inBank q = true)
    (h : regMay s q = true) :
    ∃ k, getReg q (write32 base r v s).dmac = regField q (Config.freeReg k (regOffset q)) := by
  rw [write32_dmac]
  exact settleRegs_free hb (by rw [← h]; exact regMay_congr rfl rfl rfl q)

/-- A write changes only the registers, what is known of the DMAC, and the accesses. -/
theorem write32_frame (base : Word) (r : DmacReg) (v : Word) (s : State) :
    { write32 base r v s with dmac := s.dmac, regFrees := s.regFrees, chans := s.chans, dbgEnv := s.dbgEnv,
                              bus := s.bus } = s := by
  cases s
  simp [write32]

/-- A write of any register but DBGCMD tells nothing of the channels (R66). -/
theorem write32_chans {r : DmacReg} (base : Word) (v : Word) (s : State) (h : r ≠ .dbgCmd) :
    (write32 base r v s).chans = s.chans := by
  cases r <;> first
    | exact settleRegs_chans _
    | exact absurd rfl h

/-- Nor of the debug interface. -/
theorem write32_dbgEnv {r : DmacReg} (base : Word) (v : Word) (s : State) (h : r ≠ .dbgCmd) :
    (write32 base r v s).dbgEnv = s.dbgEnv := by
  cases r <;> first
    | exact settleRegs_dbgEnv _
    | exact absurd rfl h

/-- A register's write makes an instruction pending where it starts one (R66). -/
theorem storeReg_dbgEnv (r : DmacReg) (v : Word) (s : State) :
    (storeReg r v s).dbgEnv
      = { s.dbgEnv with pending := s.dbgEnv.pending || (r == .dbgCmd && dbgCmdField v == 0) } := by
  by_cases hr : r = .dbgCmd
  · subst hr
    by_cases hv : dbgCmdField v = 0
    · have h : (dbgCmdField v == 0) = true := beq_iff_eq.2 hv
      simp only [storeReg, if_pos hv, noteInjection_dbgEnv, settleRegs_dbgEnv, h, beq_self_eq_true, Bool.and_self,
        Bool.or_true]
    · have h : (dbgCmdField v == 0) = false := beq_eq_false_iff_ne.2 hv
      simp only [storeReg, if_neg hv, settleRegs_dbgEnv, h, Bool.and_false, Bool.or_false]
  · have h : (r == DmacReg.dbgCmd) = false := beq_eq_false_iff_ne.2 hr
    have e : (storeReg r v s).dbgEnv = s.dbgEnv := by
      cases r <;> first
        | exact settleRegs_dbgEnv _
        | exact absurd rfl hr
    simp only [e, h, Bool.false_and, Bool.or_false]

/-- A write of DBGCMD with 0 starts the instruction: it is pending. -/
theorem write32_dbgCmd_dbgEnv (base : Word) (s : State) :
    (write32 base .dbgCmd 0 s).dbgEnv = { s.dbgEnv with pending := true } := by
  show (storeReg .dbgCmd 0 s).dbgEnv = _
  rw [storeReg_dbgEnv]
  simp [dbgCmdField]

/-! ### What is known of the channels -/

/-- The channels after something became known of one. -/
theorem chanEnv_noteChan (n m : Nat) (f : ChannelEnv → ChannelEnv) (s : State) :
    chanEnv (noteChan n f s) m = if n = m ∧ m < 8 then f (chanEnv s n) else chanEnv s m := by
  unfold chanEnv
  rw [noteChan_chans, getD_setIfInBounds]
  rfl

theorem shownTo_nil (e : ChannelEnv) : shownTo [] e = e := rfl

/-- Reads that show one run of states and then another. -/
theorem shownTo_append (xs ys : List ChannelState) (e : ChannelEnv) :
    shownTo ys (shownTo xs e) = shownTo (xs ++ ys) e := by
  unfold shownTo
  rw [List.getLast?_append]
  cases hy : ys.getLast? with
  | none =>
    rw [List.getLast?_eq_none_iff] at hy
    simp [hy]
  | some st =>
    cases hx : xs.getLast? with
    | none =>
      rw [List.getLast?_eq_none_iff] at hx
      simp [hx]
    | some st' => simp [Bool.or_assoc]

theorem shownTo_singleton (st : ChannelState) (e : ChannelEnv) : shownTo [st] e = e.shown st := by
  simp [shownTo, ChannelEnv.shown]

theorem chansBecome_refl (ctx : ExecutionContext) (s : State) : chansBecome ctx (shownTo []) s s := by
  intro n
  simp [shownTo_nil]

theorem chansBecome.trans {ctx : ExecutionContext} {f g : ChannelEnv → ChannelEnv} {s t u : State}
    (h1 : chansBecome ctx f s t) (h2 : chansBecome ctx g t u) : chansBecome ctx (fun e => g (f e)) s u := by
  intro n
  rw [h2 n, h1 n]
  split_ifs <;> rfl

/-- What is known of the channels depends on `chans` only. -/
theorem chansBecome.congr {ctx : ExecutionContext} {f : ChannelEnv → ChannelEnv} {s t s' t' : State}
    (h : chansBecome ctx f s t) (hs : s'.chans = s.chans) (ht : t'.chans = t.chans) : chansBecome ctx f s' t' := by
  intro n
  rw [chanEnv_congr ht, h n, chanEnv_congr hs]

/-- The same entry, written another way. -/
theorem chansBecome.of_eq {ctx : ExecutionContext} {f g : ChannelEnv → ChannelEnv} {s t : State}
    (h : chansBecome ctx f s t) (e : ∀ x, f x = g x) : chansBecome ctx g s t := by
  intro n
  rw [h n, e]

/-- A context that may be used has a channel the model holds an entry for. -/
def usable (ctx : ExecutionContext) : Prop := ctx.isManager = false → ctx.chan < 8

/-- A status read tells what it shows of the context's channel, and of no other (R290, R302). -/
theorem chansBecome_readState {ctx : ExecutionContext} (hu : usable ctx) (s : State) :
    chansBecome ctx (shownTo [oracleShows ctx s]) s (readState ctx s).2 := by
  intro n
  cases hm : ctx.isManager with
  | true =>
    have h : (readState ctx s).2.chans = s.chans :=
      read32_chans_kept _ _ fun n => by simp [statusReg, hm]
    rw [chanEnv_congr h]
    simp
  | false =>
    have hr : statusReg ctx = .csr ctx.chan := by simp [statusReg, hm]
    have h : (readState ctx s).2.chans
        = (noteChan ctx.chan (fun e => e.shown (oracleShows ctx s)) (takeDraw s)).chans := by
      show (read32 ctx.regBase (statusReg ctx) s).2.chans = _
      rw [read32_chans]
      simp only [oracleShows, hr, hm]
      rfl
    rw [chanEnv_congr h, chanEnv_noteChan, chanEnv_congr (takeDraw_chans s), chanEnv_congr (takeDraw_chans s)]
    have := hu hm
    by_cases hn : n = ctx.chan
    · subst hn
      simp [this, shownTo_singleton]
    · simp [hn, Ne.symm hn]

end Sys2Proof.Machine
end

