-- ==== Sys2Proof/Laws/Debug.lean ====
section
/-! SUPPORT. The bounded wait for the debug interface and the debug injection (R250 to R254): one lemma for each way they
end, saying all they do. -/

namespace Sys2Proof.Machine

/-! ### What an access to the DMAC leaves alone -/

/-- `t` with the fields a register access touches put back: the answers to come, the registers, what is known of the
DMAC, and the accesses. -/
def envBack (s t : State) : State :=
  { t with draws := s.draws, drawCount := s.drawCount, dmac := s.dmac, regFrees := s.regFrees, chans := s.chans,
           dbgEnv := s.dbgEnv, bus := s.bus }

/-- `t` differs from `s` at most in what a register access touches. -/
def EnvOnly (s t : State) : Prop := envBack s t = s

theorem EnvOnly.refl (s : State) : EnvOnly s s := rfl

theorem EnvOnly.trans {s t u : State} (h1 : EnvOnly s t) (h2 : EnvOnly t u) : EnvOnly s u :=
  (congrArg (envBack s) h2).trans h1

theorem EnvOnly.cfg {s t : State} (h : EnvOnly s t) : t.cfg = s.cfg :=
  (congrArg State.cfg h : (envBack s t).cfg = s.cfg)
theorem EnvOnly.mem {s t : State} (h : EnvOnly s t) : t.mem = s.mem :=
  (congrArg State.mem h : (envBack s t).mem = s.mem)
theorem EnvOnly.wild {s t : State} (h : EnvOnly s t) : t.wild = s.wild :=
  (congrArg State.wild h : (envBack s t).wild = s.wild)
theorem EnvOnly.ctxs {s t : State} (h : EnvOnly s t) : t.ctxs = s.ctxs :=
  (congrArg State.ctxs h : (envBack s t).ctxs = s.ctxs)
theorem EnvOnly.programs {s t : State} (h : EnvOnly s t) : t.programs = s.programs :=
  (congrArg State.programs h : (envBack s t).programs = s.programs)
theorem EnvOnly.issues {s t : State} (h : EnvOnly s t) : t.issues = s.issues :=
  (congrArg State.issues h : (envBack s t).issues = s.issues)
theorem EnvOnly.build {s t : State} (h : EnvOnly s t) : t.build = s.build :=
  (congrArg State.build h : (envBack s t).build = s.build)
theorem EnvOnly.active {s t : State} (h : EnvOnly s t) : t.active = s.active :=
  (congrArg State.active h : (envBack s t).active = s.active)
theorem EnvOnly.emitPort {s t : State} (h : EnvOnly s t) : t.emitPort = s.emitPort :=
  (congrArg State.emitPort h : (envBack s t).emitPort = s.emitPort)
theorem EnvOnly.inbox {s t : State} (h : EnvOnly s t) : t.inbox = s.inbox :=
  (congrArg State.inbox h : (envBack s t).inbox = s.inbox)
theorem EnvOnly.result {s t : State} (h : EnvOnly s t) : t.result = s.result :=
  (congrArg State.result h : (envBack s t).result = s.result)

theorem EnvOnly.protocolOn {s t : State} (h : EnvOnly s t) : protocolOn t = protocolOn s := by
  unfold Sys2Proof.Machine.protocolOn
  rw [h.cfg, h.wild]

/-- Where nothing has become known of the channels, transfers reach into the same registers. -/
theorem EnvOnly.regMay {s t : State} (h : EnvOnly s t) (hc : t.chans = s.chans) (q : DmacReg) : regMay t q = regMay s q :=
  regMay_congr hc h.issues h.cfg q

theorem EnvOnly.byteAt {s t : State} (h : EnvOnly s t) (a : Word) : byteAt t a = byteAt s a :=
  byteAt_congr h.mem a

/-- Where nothing has become known of DBGSTATUS and no register was settled, as after status reads, those fields stay too. -/
theorem EnvOnly.status {s t : State} (h : EnvOnly s t) (hd : t.dbgEnv = s.dbgEnv) (hr : t.regFrees = s.regFrees) :
    { t with draws := s.draws, drawCount := s.drawCount, dmac := s.dmac, chans := s.chans, bus := s.bus } = s := by
  have h' := h
  rw [EnvOnly, envBack, ← hd, ← hr] at h'
  exact h'

theorem envOnly_read32 (base : Word) (r : DmacReg) (s : State) : EnvOnly s (read32 base r s).2 :=
  (congrArg (fun x => envBack s x) (read32_frame base r s) : _)

theorem envOnly_readState (ctx : ExecutionContext) (s : State) : EnvOnly s (readState ctx s).2 := envOnly_read32 _ _ s

theorem envOnly_write32 (base : Word) (r : DmacReg) (v : Word) (s : State) : EnvOnly s (write32 base r v s) :=
  (congrArg (fun x => envBack s x) (write32_frame base r v s) : _)

theorem envOnly_delay (s : State) : EnvOnly s (delay s) := rfl

theorem envOnly_noteInjection (s : State) : EnvOnly s (noteInjection s) := by
  cases s
  simp [EnvOnly, envBack]

theorem drawStream_delay (s : State) (k : Nat) : drawStream (delay s) k = drawStream s k := rfl

/-! ### The wait -/

/-- The accesses of DBGSTATUS reads that answer these words busy, each followed by a delay. -/
def busyEvents (base : Word) (busy : List Word) : List BusEvent :=
  busy.flatMap fun v => [.read32 (regAddr base .dbgStatus) v, .delay]

/-- What `waitDebugIdle` leaves after reads that show these words busy and then `last`. -/
structure Waits (base : Word) (busy : List Word) (last : Word) (s t : State) : Prop where
  env : EnvOnly s t
  bus : t.bus = s.bus ++ busyEvents base busy ++ [.read32 (regAddr base .dbgStatus) last]
  draws : ∀ m, drawStream t m = drawStream s (busy.length + 1 + m)
  regs : ∀ r, r ≠ .dbgStatus → getReg r t.dmac = getReg r s.dmac
  chans : t.chans = s.chans
  dbg : t.dbgEnv = (afterBusy s.dbgEnv busy.length).shown (dbgBusy last)

/-- One DBGSTATUS read. -/
theorem waits_one (base : Word) (s : State) :
    Waits base [] (dbgShown s 0 0) s (read32 base .dbgStatus s).2 where
  env := envOnly_read32 _ _ _
  bus := by simp [busyEvents, presented_dbgStatus]
  draws m := by
    rw [drawStream_read32]
    congr 1
    simp
    omega
  regs _ h := getReg_read32 base s h
  chans := read32_chans_kept _ _ (by simp)
  dbg := by
    rw [read32_dbgStatus_dbgEnv, presented_dbgStatus]
    rfl

/-- A busy read and a delay before others. -/
theorem Waits.cons {base : Word} {s t : State} {busy : List Word} {last : Word}
    (h0 : dbgBusy (dbgShown s 0 0) = true) (h : Waits base busy last (delay (read32 base .dbgStatus s).2) t) :
    Waits base (dbgShown s 0 0 :: busy) last s t where
  env := ((waits_one base s).env.trans (envOnly_delay _)).trans h.env
  bus := by
    rw [h.bus, delay_bus, (waits_one base s).bus]
    simp [busyEvents]
  draws m := by
    rw [h.draws, drawStream_delay, drawStream_read32]
    congr 1
    simp
    omega
  regs r hr := by
    rw [h.regs r hr, delay_dmac, (waits_one base s).regs r hr]
  chans := by rw [h.chans, delay_chans, (waits_one base s).chans]
  dbg := by
    rw [h.dbg, delay_dbgEnv, (waits_one base s).dbg, h0]
    simp [afterBusy, DebugEnv.shown, Nat.sub_sub, Nat.add_comm]

/-- The next DBGSTATUS reads of a state whose answers, disturbances and busy run are those of another. -/
theorem dbgShown_congr {s t : State} {d : Nat} (h : ∀ k, drawStream t k = drawStream s (d + k))
    (hp : protocolOn t = protocolOn s) (he : t.dbgEnv = s.dbgEnv) (m j : Nat) :
    dbgShown t m j = dbgShown s (d + m) j := by
  unfold dbgShown
  rw [h, hp, he, Nat.add_assoc]

/-- The reads after a busy one. -/
theorem dbgShown_next {base : Word} {s : State} (h0 : dbgBusy (dbgShown s 0 0) = true) (j : Nat) :
    dbgShown (delay (read32 base .dbgStatus s).2) 0 j = dbgShown s 0 (j + 1) := by
  have hd : drawStream (delay (read32 base .dbgStatus s).2) (0 + j) = drawStream s (0 + (j + 1)) := by
    rw [drawStream_delay, drawStream_read32]
    congr 1
  have hp : protocolOn (delay (read32 base .dbgStatus s).2) = protocolOn s :=
    (envOnly_read32 base .dbgStatus s).protocolOn
  have he : (delay (read32 base .dbgStatus s).2).dbgEnv.left = s.dbgEnv.left - 1 := by
    rw [delay_dbgEnv, (waits_one base s).dbg, h0]
    rfl
  unfold dbgShown
  rw [hd, hp, he]
  simp only [Nat.sub_le_iff_le_add]

/-- `n + 1` reads: one, and `n` more. -/
theorem dbgAnswers_succ (s : State) (m n : Nat) :
    dbgAnswers s m (n + 1) = dbgShown s m 0 :: (List.range n).map fun j => dbgShown s m (j + 1) := by
  unfold dbgAnswers
  rw [List.range_succ_eq_map, List.map_cons, List.map_map]
  rfl

@[simp] theorem dbgAnswers_length (s : State) (m n : Nat) : (dbgAnswers s m n).length = n := by
  simp [dbgAnswers]

/-- The wait ends at the first idle answer, if it comes within the bound (R253). -/
theorem waitDebugIdle_ready {base : Word} {k : Nat} :
    ∀ {left n : Nat} {s : State}, k ≤ left → idleAfter s 0 k →
      ∃ t, waitDebugIdle base left n s = .ready t ∧ Waits base (dbgAnswers s 0 k) (dbgShown s 0 k) s t := by
  induction k with
  | zero =>
    intro left n s _ hi
    have hi := hi.2
    refine ⟨(read32 base .dbgStatus s).2, ?_, waits_one base s⟩
    unfold waitDebugIdle
    simp [presented_dbgStatus, hi]
  | succ k ih =>
    intro left n s hk hi
    obtain ⟨left, rfl⟩ : ∃ l, left = l + 1 := ⟨left - 1, by omega⟩
    have h0 : dbgBusy (dbgShown s 0 0) = true := hi.1 0 (by omega)
    have hn := dbgShown_next (base := base) h0
    obtain ⟨t, ht, hw⟩ := ih (left := left) (n := n + 1) (s := delay (read32 base .dbgStatus s).2) (by omega)
      ⟨fun j hj => by rw [hn]; exact hi.1 (j + 1) (by omega), by rw [hn]; exact hi.2⟩
    refine ⟨t, ?_, ?_⟩
    · rw [← ht]
      conv_lhs => unfold waitDebugIdle
      simp [presented_dbgStatus, h0]
    · rw [dbgAnswers_succ]
      apply Waits.cons h0
      rw [dbgAnswers, funext hn] at hw
      exact hw

/-- The wait runs out of polls when every answer within the bound is busy (R253). -/
theorem waitDebugIdle_timedOut {base : Word} :
    ∀ {left n : Nat} {s : State}, busyFor s 0 (left + 1) →
      ∃ t, waitDebugIdle base left n s = .timedOut (n + left + 1) t
        ∧ Waits base (dbgAnswers s 0 left) (dbgShown s 0 left) s t := by
  intro left
  induction left with
  | zero =>
    intro n s hb
    have h0 : dbgBusy (dbgShown s 0 0) = true := hb 0 (by omega)
    refine ⟨(read32 base .dbgStatus s).2, ?_, waits_one base s⟩
    unfold waitDebugIdle
    simp [presented_dbgStatus, h0]
  | succ left ih =>
    intro n s hb
    have h0 : dbgBusy (dbgShown s 0 0) = true := hb 0 (by omega)
    have hn := dbgShown_next (base := base) h0
    obtain ⟨t, ht, hw⟩ := ih (n := n + 1) (s := delay (read32 base .dbgStatus s).2)
      (fun j hj => by rw [hn]; exact hb (j + 1) (by omega))
    refine ⟨t, ?_, ?_⟩
    · rw [show n + (left + 1) + 1 = n + 1 + left + 1 by omega, ← ht]
      conv_lhs => unfold waitDebugIdle
      simp [presented_dbgStatus, h0]
    · rw [dbgAnswers_succ]
      apply Waits.cons h0
      rw [dbgAnswers, funext hn] at hw
      exact hw

/-- However the wait ends, it makes reads and delays only: it ends at the first idle answer within the bound, or every
answer within it is busy. -/
theorem waitDebugIdle_cases (base : Word) (left n : Nat) (s : State) :
    (∃ k t, k ≤ left ∧ idleAfter s 0 k ∧ waitDebugIdle base left n s = .ready t
        ∧ Waits base (dbgAnswers s 0 k) (dbgShown s 0 k) s t)
    ∨ ∃ t, busyFor s 0 (left + 1) ∧ waitDebugIdle base left n s = .timedOut (n + left + 1) t
        ∧ Waits base (dbgAnswers s 0 left) (dbgShown s 0 left) s t := by
  by_cases h : ∃ k, k ≤ left ∧ dbgBusy (dbgShown s 0 k) = false
  · classical
    let k := Nat.find h
    obtain ⟨hk, hi⟩ : k ≤ left ∧ dbgBusy (dbgShown s 0 k) = false := Nat.find_spec h
    have hidle : idleAfter s 0 k := ⟨fun j hj => by
      have := Nat.find_min h hj
      have hj' : j ≤ left := le_of_lt (lt_of_lt_of_le hj hk)
      simpa [hj'] using this, hi⟩
    obtain ⟨t, ht, hw⟩ := waitDebugIdle_ready (base := base) (n := n) hk hidle
    exact Or.inl ⟨k, t, hk, hidle, ht, hw⟩
  · have hb : busyFor s 0 (left + 1) := fun j hj => by
      by_contra hc
      exact h ⟨j, by omega, by simpa using hc⟩
    obtain ⟨t, ht, hw⟩ := waitDebugIdle_timedOut (base := base) (n := n) hb
    exact Or.inr ⟨t, hb, ht, hw⟩

/-! ### The injection -/

/-- The state in which the wait of a debug injection begins: both instruction words are written (R250). -/
def debugLoaded (ctx : ExecutionContext) (toManager : Bool) (insn : List Byte) (s : State) : State :=
  write32 ctx.regBase .dbgInst1 (dbgInst1Word insn)
    (write32 ctx.regBase .dbgInst0 (dbgInst0Word ctx.chan toManager insn) s)

theorem debugLoaded_bus (ctx : ExecutionContext) (m : Bool) (insn : List Byte) (s : State) :
    (debugLoaded ctx m insn s).bus = s.bus ++ debugWrites ctx m insn := by
  simp [debugLoaded, debugWrites]

theorem debugLoaded_env (ctx : ExecutionContext) (m : Bool) (insn : List Byte) (s : State) :
    EnvOnly s (debugLoaded ctx m insn s) := (envOnly_write32 _ _ _ _).trans (envOnly_write32 _ _ _ _)

theorem debugLoaded_draws (ctx : ExecutionContext) (m : Bool) (insn : List Byte) (s : State) (k : Nat) :
    drawStream (debugLoaded ctx m insn s) k = drawStream s k := by
  simp only [debugLoaded, drawStream_write32]

theorem debugLoaded_chans (ctx : ExecutionContext) (m : Bool) (insn : List Byte) (s : State) :
    (debugLoaded ctx m insn s).chans = s.chans := by
  simp [debugLoaded, write32_chans]

theorem debugLoaded_dbgEnv (ctx : ExecutionContext) (m : Bool) (insn : List Byte) (s : State) :
    (debugLoaded ctx m insn s).dbgEnv = s.dbgEnv := by
  simp [debugLoaded, write32_dbgEnv]

/-- Loading the two words changes nothing in what the DBGSTATUS reads will show. -/
theorem debugLoaded_shown (ctx : ExecutionContext) (m : Bool) (insn : List Byte) (s : State) (j : Nat) :
    dbgShown (debugLoaded ctx m insn s) 0 j = dbgShown s 0 j :=
  dbgShown_congr (d := 0) (fun k => by rw [debugLoaded_draws, Nat.zero_add]) (debugLoaded_env ctx m insn s).protocolOn
    (debugLoaded_dbgEnv ctx m insn s) 0 j

/-- Nor in which registers a transfer reaches into. -/
theorem debugLoaded_regMay (ctx : ExecutionContext) (m : Bool) (insn : List Byte) (s : State) (q : DmacReg) :
    regMay (debugLoaded ctx m insn s) q = regMay s q :=
  (debugLoaded_env ctx m insn s).regMay (debugLoaded_chans ctx m insn s) q

/-- A register no transfer reaches into, after the two words are written. -/
theorem getReg_debugLoaded (ctx : ExecutionContext) (m : Bool) (insn : List Byte) {s : State} {q : DmacReg}
    (h : regMay s q = false) :
    getReg q (debugLoaded ctx m insn s).dmac
      = getReg q (putReg .dbgInst1 (dbgInst1Word insn)
          (putReg .dbgInst0 (dbgInst0Word ctx.chan m insn) s.dmac)) := by
  have h1 : regMay (write32 ctx.regBase .dbgInst0 (dbgInst0Word ctx.chan m insn) s) q = false := by
    rw [(envOnly_write32 _ _ _ s).regMay (write32_chans _ _ _ (by simp)), h]
  have h2 := getReg_write32 (base := ctx.regBase) (r := .dbgInst0) (v := dbgInst0Word ctx.chan m insn) h
  unfold debugLoaded
  rw [getReg_write32 h1]
  by_cases hq : q = .dbgInst1
  · subst hq
    rfl
  · rw [getReg_putReg_of_ne _ _ hq, h2, getReg_putReg_of_ne _ _ hq]

/-- One a transfer reaches into (U14). -/
theorem debugLoaded_free (ctx : ExecutionContext) (m : Bool) (insn : List Byte) {s : State} {q : DmacReg}
    (hb : inBank q = true) (h : regMay s q = true) :
    ∃ k, getReg q (debugLoaded ctx m insn s).dmac = regField q (Config.freeReg k (regOffset q)) :=
  write32_free hb (by rw [(envOnly_write32 _ _ _ s).regMay (write32_chans _ _ _ (by simp)), h])

theorem debugLoaded_inst0 (ctx : ExecutionContext) (m : Bool) (insn : List Byte) {s : State}
    (h : regMay s .dbgInst0 = false) : (debugLoaded ctx m insn s).dmac.dbgInst0 = dbgInst0Word ctx.chan m insn :=
  getReg_debugLoaded ctx m insn h

theorem debugLoaded_inst1 (ctx : ExecutionContext) (m : Bool) (insn : List Byte) {s : State}
    (h : regMay s .dbgInst1 = false) : (debugLoaded ctx m insn s).dmac.dbgInst1 = dbgInst1Word insn :=
  getReg_debugLoaded ctx m insn h

theorem debugLoaded_regs (ctx : ExecutionContext) (m : Bool) (insn : List Byte) {s : State} {r : DmacReg}
    (h : regMay s r = false) (h0 : r ≠ .dbgInst0) (h1 : r ≠ .dbgInst1) :
    getReg r (debugLoaded ctx m insn s).dmac = getReg r s.dmac := by
  rw [getReg_debugLoaded ctx m insn h, getReg_putReg_of_ne _ _ h1, getReg_putReg_of_ne _ _ h0]

/-- A debug injection, whichever way it ends: the two words are written, DBGSTATUS is polled within the bound; when it
answers idle DBGCMD is written with 0, and when it does not DBGCMD is not written, and the pending instruction may run with
the new bytes (R250, R253, R254, U5). -/
theorem debugExec_eq (ctx : ExecutionContext) (m : Bool) (insn : List Byte) (s : State) :
    debugExec ctx m insn s =
      match waitDebugIdle ctx.regBase s.cfg.dbgPollLimitLess1 0 (debugLoaded ctx m insn s) with
      | .ready t => .ready (write32 ctx.regBase .dbgCmd 0 t)
      | .timedOut n t => .timedOut n (noteInjection t) := rfl

/-- The injection when DBGSTATUS shows idle after `k` busy reads, within the bound. -/
theorem debugExec_ready {ctx : ExecutionContext} {m : Bool} {insn : List Byte} {s : State} {k : Nat}
    (hk : k < s.cfg.dbgPollLimit) (hi : idleAfter s 0 k) :
    ∃ t, debugExec ctx m insn s = .ready (write32 ctx.regBase .dbgCmd 0 t)
      ∧ Waits ctx.regBase (dbgAnswers s 0 k) (dbgShown s 0 k) (debugLoaded ctx m insn s) t := by
  have hd := debugLoaded_shown ctx m insn s
  obtain ⟨t, ht, hw⟩ := waitDebugIdle_ready (base := ctx.regBase) (left := s.cfg.dbgPollLimitLess1) (n := 0)
    (s := debugLoaded ctx m insn s) (k := k) (by unfold Config.Params.dbgPollLimit at hk; omega)
    ⟨fun j hj => by rw [hd]; exact hi.1 j hj, by rw [hd]; exact hi.2⟩
  refine ⟨t, by rw [debugExec_eq, ht], ?_⟩
  rw [dbgAnswers, funext hd] at hw
  exact hw

/-- The injection when every DBGSTATUS read within the bound shows busy. -/
theorem debugExec_timedOut {ctx : ExecutionContext} {m : Bool} {insn : List Byte} {s : State}
    (hb : busyFor s 0 s.cfg.dbgPollLimit) :
    ∃ t, debugExec ctx m insn s = .timedOut s.cfg.dbgPollLimit (noteInjection t)
      ∧ Waits ctx.regBase (dbgAnswers s 0 (s.cfg.dbgPollLimit - 1)) (dbgShown s 0 (s.cfg.dbgPollLimit - 1))
          (debugLoaded ctx m insn s) t := by
  have hd := debugLoaded_shown ctx m insn s
  obtain ⟨t, ht, hw⟩ := waitDebugIdle_timedOut (base := ctx.regBase) (left := s.cfg.dbgPollLimitLess1) (n := 0)
    (s := debugLoaded ctx m insn s) (fun j hj => by rw [hd]; exact hb j hj)
  refine ⟨t, ?_, ?_⟩
  · rw [debugExec_eq, ht]
    simp [Config.Params.dbgPollLimit]
  · rw [dbgAnswers, funext hd] at hw
    exact hw

/-- The two ways a debug injection ends. -/
theorem debugExec_cases (ctx : ExecutionContext) (m : Bool) (insn : List Byte) (s : State) :
    (∃ k t, debugExec ctx m insn s = .ready (write32 ctx.regBase .dbgCmd 0 t)
        ∧ Waits ctx.regBase (dbgAnswers s 0 k) (dbgShown s 0 k) (debugLoaded ctx m insn s) t)
    ∨ ∃ k t, debugExec ctx m insn s = .timedOut s.cfg.dbgPollLimit (noteInjection t)
        ∧ Waits ctx.regBase (dbgAnswers s 0 k) (dbgShown s 0 k) (debugLoaded ctx m insn s) t := by
  have hd := debugLoaded_shown ctx m insn s
  rcases waitDebugIdle_cases ctx.regBase s.cfg.dbgPollLimitLess1 0 (debugLoaded ctx m insn s) with
    ⟨k, t, hk, hi, -, -⟩ | ⟨t, hb, -, -⟩
  · obtain ⟨u, hu, hw⟩ := debugExec_ready (ctx := ctx) (m := m) (insn := insn) (s := s) (k := k)
      (by unfold Config.Params.dbgPollLimit; omega)
      ⟨fun j hj => by rw [← hd]; exact hi.1 j hj, by rw [← hd]; exact hi.2⟩
    exact Or.inl ⟨k, u, hu, hw⟩
  · obtain ⟨u, hu, hw⟩ := debugExec_timedOut (ctx := ctx) (m := m) (insn := insn) (s := s)
      fun j hj => by rw [← hd]; exact hb j hj
    exact Or.inr ⟨_, u, hu, hw⟩

/-- What an instruction makes known depends on DBGINST0 and on what was known. -/
theorem noteInjection_chans_congr {s t : State} (h0 : t.dmac.dbgInst0 = s.dmac.dbgInst0) (hc : t.chans = s.chans) :
    (noteInjection t).chans = (noteInjection s).chans := by
  unfold noteInjection
  rw [h0]
  cases goChannel s.dmac.dbgInst0 with
  | some n => rw [noteChan_chans, noteChan_chans, hc, chanEnv_congr hc]
  | none =>
    cases killChannel s.dmac.dbgInst0 with
    | some n => rw [noteChan_chans, noteChan_chans, hc, chanEnv_congr hc]
    | none => exact hc

/-- A write of DBGCMD makes known what DBGINST0 holds once the registers are settled (R66, R302, U14). -/
theorem write32_dbgCmd_chans (base : Word) (s : State) :
    (write32 base .dbgCmd 0 s).chans = (noteInjection (settleRegs { s with dmac := putReg .dbgCmd 0 s.dmac })).chans :=
  noteInjection_chans_congr rfl rfl

/-- Where no transfer reaches into DBGINST0 that is what it held before. -/
theorem chanEnv_write32_dbgCmd (base : Word) {s : State} (h : regMay s .dbgInst0 = false) (n : Nat) :
    chanEnv (write32 base .dbgCmd 0 s) n = chanEnv (noteInjection s) n := by
  rw [chanEnv_congr (write32_dbgCmd_chans base s)]
  refine chanEnv_congr (noteInjection_chans_congr (s := s) ?_ (by rw [settleRegs_chans])) n
  exact getReg_settleRegs (r := .dbgInst0) (s := { s with dmac := putReg .dbgCmd 0 s.dmac }) h

/-- What an instruction that runs makes known: a GO of its channel, a KILL of the channel it kills, of anything else
nothing (R66, R302). -/
theorem chanEnv_noteInjection (s : State) {n : Nat} (hn : n < 8) :
    chanEnv (noteInjection s) n =
      if goChannel s.dmac.dbgInst0 = some n then (chanEnv s n).gone
      else if goChannel s.dmac.dbgInst0 = none ∧ killChannel s.dmac.dbgInst0 = some n then (chanEnv s n).killed
      else chanEnv s n := by
  unfold noteInjection
  cases goChannel s.dmac.dbgInst0 with
  | some m =>
    rw [chanEnv_noteChan]
    by_cases h : m = n
    · subst h
      simp [hn]
    · simp [h]
  | none =>
    cases killChannel s.dmac.dbgInst0 with
    | some m =>
      rw [chanEnv_noteChan]
      by_cases h : m = n
      · subst h
        simp [hn]
      · simp [h]
    | none => simp

/-- No instruction is both a GO and a KILL: they run on different threads. -/
theorem killChannel_of_goChannel {w : Word} {n : Nat} (h : goChannel w = some n) : killChannel w = none := by
  unfold goChannel at h
  unfold killChannel
  split_ifs at h with hg
  rw [if_neg]
  exact fun hk => hk.1 hg.1

/-- Where the model finds a GO is where the word is one. -/
theorem goChannel_iff (w : Word) (n : Nat) : goChannel w = some n ↔ wordGo w n = true := by
  have h0 : ∀ x : BitVec 1, (x = 0) ↔ x.toNat = 0 := by decide
  unfold goChannel wordGo
  by_cases h : dbgThread w = 0 ∧ (dbgByte0 w = 0xA0 ∨ dbgByte0 w = 0xA2)
  · rw [if_pos h]
    simp_all [dbgThread, dbgByte0, dbgByte1]
  · rw [if_neg h]
    simp_all [dbgThread, dbgByte0]

/-- Where it finds a KILL is where the word is one. -/
theorem killChannel_iff (w : Word) (n : Nat) : killChannel w = some n ↔ wordKill w n = true := by
  have h0 : ∀ x : BitVec 1, (¬ x = 0) ↔ x = 1 := by decide
  unfold killChannel wordKill
  by_cases h : dbgThread w ≠ 0 ∧ dbgByte0 w = 0x01
  · rw [if_pos h]
    simp_all [dbgThread, dbgByte0, dbgChan]
  · rw [if_neg h]
    simp_all [dbgThread, dbgByte0]

/-- An instruction that runs is noted by the word in DBGINST0, whichever it is (R66, R302). -/
theorem chanEnv_noteInjection_word (s : State) {n : Nat} (hn : n < 8) :
    chanEnv (noteInjection s) n = wordNoted s.dmac.dbgInst0 n (chanEnv s n) := by
  rw [chanEnv_noteInjection s hn]
  have hg := goChannel_iff s.dmac.dbgInst0 n
  have hk := killChannel_iff s.dmac.dbgInst0 n
  unfold wordNoted
  by_cases h1 : goChannel s.dmac.dbgInst0 = some n
  · have h2 : wordKill s.dmac.dbgInst0 n = false := by
      rw [← Bool.not_eq_true, ← hk, killChannel_of_goChannel h1]
      simp
    rw [if_pos h1, hg.1 h1, h2]
    simp [ChannelEnv.gone]
  · have h3 : wordGo s.dmac.dbgInst0 n = false := by
      rw [← Bool.not_eq_true, ← hg]
      exact h1
    rw [if_neg h1, h3]
    by_cases h2 : killChannel s.dmac.dbgInst0 = some n
    · have h4 : goChannel s.dmac.dbgInst0 = none := by
        cases h : goChannel s.dmac.dbgInst0 with
        | none => rfl
        | some m =>
          rw [killChannel_of_goChannel h] at h2
          cases h2
      rw [if_pos ⟨h4, h2⟩, hk.1 h2]
      simp [ChannelEnv.killed]
    · have h4 : wordKill s.dmac.dbgInst0 n = false := by
        rw [← Bool.not_eq_true, ← hk]
        exact h2
      rw [if_neg fun h => h2 h.2, h4]
      simp

/-- So one instruction is noted. -/
theorem oneNoted_noteInjection (s : State) : oneNoted s (noteInjection s) :=
  ⟨s.dmac.dbgInst0, fun _ hn => chanEnv_noteInjection_word s hn⟩

theorem oneNoted_write32_dbgCmd (base : Word) (s : State) : oneNoted s (write32 base .dbgCmd 0 s) := by
  refine ⟨(settleRegs { s with dmac := putReg .dbgCmd 0 s.dmac }).dmac.dbgInst0, fun n hn => ?_⟩
  rw [chanEnv_congr (write32_dbgCmd_chans base s), chanEnv_noteInjection_word _ hn]
  congr 1
  exact chanEnv_congr (settleRegs_chans _) n

/-- Noting an instruction brings no channel to rest. -/
theorem channelIdle_of_wordNoted {w : Word} {n : Nat} {e : ChannelEnv} (h : channelIdle (wordNoted w n e) = true) :
    channelIdle e = true := by
  revert h
  simp only [channelIdle, wordNoted, Bool.and_eq_true, Bool.or_eq_true, Bool.not_eq_true', Bool.or_eq_false_iff]
  tauto

/-- The GO that START writes is one for its channel (R251, R258). -/
theorem goChannel_goBytes (ctx : ExecutionContext) (addr : Word) (h : ctx.chan < 8) :
    goChannel (dbgInst0Word ctx.chan true (goBytes ctx addr)) = some ctx.chan := by
  have key : ∀ sec, ∀ m : Fin 8, goChannel (dbgInst0Word m.val true (encGo sec m.val 0)) = some m.val := by
    intro sec
    cases sec <;> decide
  exact key ctx.security ⟨ctx.chan, h⟩

/-- The KILL that a channel's KILL writes is no GO, and one of its channel (R251, R263). -/
theorem killBytes_channel {n : Nat} (h : n < 8) :
    goChannel (dbgInst0Word n false killBytes) = none ∧ killChannel (dbgInst0Word n false killBytes) = some n := by
  have key : ∀ m : Fin 8, goChannel (dbgInst0Word m.val false killBytes) = none
      ∧ killChannel (dbgInst0Word m.val false killBytes) = some m.val := by decide
  exact key ⟨n, h⟩

/-- The KILL that the manager's KILL writes is neither (R251, R263). -/
theorem killBytes_manager (n : Nat) :
    goChannel (dbgInst0Word n true killBytes) = none ∧ killChannel (dbgInst0Word n true killBytes) = none := by
  have key : goChannel (dbgInst0Word 0 true killBytes) = none ∧ killChannel (dbgInst0Word 0 true killBytes) = none := by
    decide
  exact key

/-- Where DBGINST0 holds the GO of a START, it is noted of that channel. -/
theorem chanEnv_noteGo {ctx : ExecutionContext} {addr : Word} {s : State} (h : ctx.chan < 8)
    (hi : s.dmac.dbgInst0 = dbgInst0Word ctx.chan true (goBytes ctx addr)) (n : Nat) :
    chanEnv (noteInjection s) n = if n = ctx.chan then (chanEnv s n).gone else chanEnv s n := by
  unfold noteInjection
  rw [hi, goChannel_goBytes ctx addr h]
  dsimp only
  rw [chanEnv_noteChan]
  by_cases hn : n = ctx.chan
  · subst hn
    simp [h]
  · simp [hn, Ne.symm hn]

/-- Where DBGINST0 holds the KILL of a context, it is noted of the context's channel; a manager has none. -/
theorem chanEnv_noteKill {ctx : ExecutionContext} {s : State} (hu : usable ctx)
    (hi : s.dmac.dbgInst0 = dbgInst0Word ctx.chan ctx.isManager killBytes) (n : Nat) :
    chanEnv (noteInjection s) n
      = if ctx.isManager = false ∧ n = ctx.chan then (chanEnv s n).killed else chanEnv s n := by
  unfold noteInjection
  cases hm : ctx.isManager with
  | true =>
    rw [hi, hm, (killBytes_manager ctx.chan).1, (killBytes_manager ctx.chan).2]
    simp
  | false =>
    have h := hu hm
    rw [hi, hm, (killBytes_channel h).1, (killBytes_channel h).2]
    dsimp only
    rw [chanEnv_noteChan]
    by_cases hn : n = ctx.chan
    · subst hn
      simp [h]
    · simp [hn, Ne.symm hn]

end Sys2Proof.Machine
end

