-- ==== Sys2Proof/Laws/Polls.lean ====
section
/-! SUPPORT. Polling: what a number of status polls leaves, and how the loops of kill() and finish() end (R261, R295). -/

namespace Sys2Proof.Machine

/-! ### A number of polls -/

/-- One more poll, at the end. -/
theorem afterPolls_succ (ctx : ExecutionContext) (k : Nat) (s : State) :
    afterPolls ctx (k + 1) s = delay (readState ctx (afterPolls ctx k s)).2 := by
  induction k generalizing s with
  | zero => rfl
  | succ k ih => exact ih (delay (readState ctx s).2)

theorem afterPolls_env (ctx : ExecutionContext) (k : Nat) (s : State) : EnvOnly s (afterPolls ctx k s) := by
  induction k with
  | zero => exact EnvOnly.refl s
  | succ k ih =>
    rw [afterPolls_succ]
    exact (ih.trans (envOnly_readState _ _)).trans (envOnly_delay _)

theorem pollEvents_succ (ctx : ExecutionContext) (k : Nat) (s : State) :
    pollEvents ctx (k + 1) s = pollEvents ctx k s ++ [statusEvent ctx (afterPolls ctx k s), .delay] := by
  simp [pollEvents, List.range_succ]

theorem afterPolls_bus (ctx : ExecutionContext) (k : Nat) (s : State) :
    (afterPolls ctx k s).bus = s.bus ++ pollEvents ctx k s := by
  induction k with
  | zero => simp [afterPolls, pollEvents]
  | succ k ih => rw [afterPolls_succ, delay_bus, readState_bus_eq, ih, pollEvents_succ]; simp

theorem drawStream_afterPolls (ctx : ExecutionContext) (k m : Nat) (s : State) :
    drawStream (afterPolls ctx k s) m = drawStream s (k + m) := by
  induction k generalizing m with
  | zero => simp [afterPolls]
  | succ k ih =>
    rw [afterPolls_succ, drawStream_delay, drawStream_readState, ih]
    congr 1
    omega

theorem getReg_afterPolls (ctx : ExecutionContext) (k : Nat) (s : State) (r : DmacReg) (h : r ≠ statusReg ctx) :
    getReg r (afterPolls ctx k s).dmac = getReg r s.dmac := by
  induction k with
  | zero => rfl
  | succ k ih => rw [afterPolls_succ, delay_dmac, getReg_readState ctx _ h, ih]

theorem afterPolls_dbgEnv (ctx : ExecutionContext) (k : Nat) (s : State) : (afterPolls ctx k s).dbgEnv = s.dbgEnv := by
  induction k with
  | zero => rfl
  | succ k ih => rw [afterPolls_succ, delay_dbgEnv, readState_dbgEnv, ih]

theorem afterPolls_regFrees (ctx : ExecutionContext) (k : Nat) (s : State) : (afterPolls ctx k s).regFrees = s.regFrees := by
  induction k with
  | zero => rfl
  | succ k ih => rw [afterPolls_succ, delay_regFrees, readState_regFrees, ih]

theorem polledStates_succ (ctx : ExecutionContext) (k : Nat) (s : State) :
    polledStates ctx (k + 1) s = polledStates ctx k s ++ [polled ctx k s] := by
  simp [polledStates, List.range_succ]

/-- What polls make known of the channels. -/
theorem chansBecome_afterPolls {ctx : ExecutionContext} (hu : usable ctx) (k : Nat) (s : State) :
    chansBecome ctx (shownTo (polledStates ctx k s)) s (afterPolls ctx k s) := by
  induction k with
  | zero => exact chansBecome_refl ctx s
  | succ k ih =>
    rw [afterPolls_succ, polledStates_succ]
    refine (ih.trans ((chansBecome_readState hu (afterPolls ctx k s)).congr rfl (delay_chans _))).of_eq fun e => ?_
    exact shownTo_append _ _ e

/-- What the last of several polls makes known, with those before it. -/
theorem chansBecome_lastPoll {ctx : ExecutionContext} (hu : usable ctx) (k : Nat) (s : State) :
    chansBecome ctx (shownTo (polledStates ctx (k + 1) s)) s (readState ctx (afterPolls ctx k s)).2 :=
  (chansBecome_afterPolls hu (k + 1) s).congr rfl (by rw [afterPolls_succ, delay_chans])

/-! ### The loop of kill() -/

/-- The wait ends at the first poll that shows FAULTING or KILLING, if it comes within the bound. -/
theorem killWaitLoop_settled {ctx : ExecutionContext} {k : Nat} :
    ∀ {left w : Nat} {s : State}, k ≤ left →
      (∀ j, j < k → polled ctx j s ∉ [ChannelState.faulting, .killing]) →
      polled ctx k s ∈ [ChannelState.faulting, .killing] →
      killWaitLoop ctx left w s = .settled (polled ctx k s) (readState ctx (afterPolls ctx k s)).2 := by
  induction k with
  | zero =>
    intro left w s _ _ hi
    have hi' : oracleShows ctx s = .faulting ∨ oracleShows ctx s = .killing := by
      simpa [polled, afterPolls] using hi
    unfold killWaitLoop
    simp [hi', polled, afterPolls]
  | succ k ih =>
    intro left w s hk hb hi
    obtain ⟨left, rfl⟩ : ∃ l, left = l + 1 := ⟨left - 1, by omega⟩
    have h0 : ¬ (oracleShows ctx s = .faulting ∨ oracleShows ctx s = .killing) := by
      simpa [polled, afterPolls] using hb 0 (by omega)
    have h := ih (left := left) (w := w + 1) (s := delay (readState ctx s).2) (by omega)
      (fun j hj => hb (j + 1) (by omega)) hi
    conv_lhs => unfold killWaitLoop
    simp only [readState_value, h0, if_false]
    exact h

/-- The wait runs out of polls. -/
theorem killWaitLoop_timedOut {ctx : ExecutionContext} :
    ∀ {left w : Nat} {s : State}, (∀ j, j < left + 1 → polled ctx j s ∉ [ChannelState.faulting, .killing]) →
      killWaitLoop ctx left w s = .timedOut (w + left) (readState ctx (afterPolls ctx left s)).2 := by
  intro left
  induction left with
  | zero =>
    intro w s hb
    have h0 : ¬ (oracleShows ctx s = .faulting ∨ oracleShows ctx s = .killing) := by
      simpa [polled, afterPolls] using hb 0 (by omega)
    unfold killWaitLoop
    simp only [readState_value, h0, if_false]
    rfl
  | succ left ih =>
    intro w s hb
    have h0 : ¬ (oracleShows ctx s = .faulting ∨ oracleShows ctx s = .killing) := by
      simpa [polled, afterPolls] using hb 0 (by omega)
    have h := ih (w := w + 1) (s := delay (readState ctx s).2) (fun j hj => hb (j + 1) (by omega))
    conv_lhs => unfold killWaitLoop
    simp only [readState_value, h0, if_false]
    rw [h, show w + 1 + left = w + (left + 1) by omega]
    rfl

/-- The two ways the wait of kill() ends. -/
theorem killWaitLoop_cases (ctx : ExecutionContext) (left w : Nat) (s : State) :
    (∃ k, k ≤ left ∧ killWaitLoop ctx left w s
        = .settled (polled ctx k s) (readState ctx (afterPolls ctx k s)).2)
    ∨ killWaitLoop ctx left w s = .timedOut (w + left) (readState ctx (afterPolls ctx left s)).2 := by
  by_cases h : ∃ k, k ≤ left ∧ polled ctx k s ∈ [ChannelState.faulting, .killing]
  · classical
    obtain ⟨hk, hi⟩ := Nat.find_spec h
    refine Or.inl ⟨Nat.find h, hk, killWaitLoop_settled hk (fun j hj hc => ?_) hi⟩
    exact Nat.find_min h hj ⟨by omega, hc⟩
  · exact Or.inr (killWaitLoop_timedOut fun j hj hc => h ⟨j, by omega, hc⟩)

/-! ### The loop of finish() -/

/-- A poll that shows neither STOPPED nor FAULTING ends nothing. -/
theorem finishPoll_running {c : Nat} {ctx : ExecutionContext} {s : State}
    (h : oracleShows ctx s ∉ [ChannelState.stopped, .faulting]) :
    finishPoll c ctx s = (false, (readState ctx s).2) := by
  simp only [List.mem_cons, List.not_mem_nil, or_false, not_or] at h
  simp [finishPoll, h]

theorem finishPoll_stopped {c : Nat} {ctx : ExecutionContext} {s : State} (h : oracleShows ctx s = .stopped) :
    finishPoll c ctx s = (true, deliver .okUnit (closeTransfer c ctx (readState ctx s).2)) := by
  simp [finishPoll, h]

theorem finishPoll_faulting {c : Nat} {ctx : ExecutionContext} {s : State} (h : oracleShows ctx s = .faulting) :
    finishPoll c ctx s = (true, reportFault c ctx (readState ctx s).2) := by
  simp [finishPoll, h]

/-- The loop ends at the first poll that shows STOPPED or FAULTING, if it comes within the bound. -/
theorem finishLoop_ends {c : Nat} {ctx : ExecutionContext} {k : Nat} :
    ∀ {left n : Nat} {s : State}, k ≤ left →
      (∀ j, j < k → polled ctx j s ∉ [ChannelState.stopped, .faulting]) →
      polled ctx k s ∈ [ChannelState.stopped, .faulting] →
      finishLoop c ctx left n s = (finishPoll c ctx (afterPolls ctx k s)).2 := by
  induction k with
  | zero =>
    intro left n s _ _ hi
    have hi' : oracleShows ctx s = .stopped ∨ oracleShows ctx s = .faulting := by
      simpa [polled, afterPolls] using hi
    unfold finishLoop
    rcases hi' with h | h
    · simp [finishPoll_stopped h, afterPolls]
    · simp [finishPoll_faulting h, afterPolls]
  | succ k ih =>
    intro left n s hk hb hi
    obtain ⟨left, rfl⟩ : ∃ l, left = l + 1 := ⟨left - 1, by omega⟩
    have h0 : finishPoll c ctx s = (false, (readState ctx s).2) := finishPoll_running (hb 0 (by omega))
    have h := ih (left := left) (n := n + 1) (s := delay (readState ctx s).2) (by omega)
      (fun j hj => hb (j + 1) (by omega)) hi
    conv_lhs => unfold finishLoop
    simp only [h0]
    exact h

/-- The loop runs out of polls. -/
theorem finishLoop_timedOut {c : Nat} {ctx : ExecutionContext} :
    ∀ {left n : Nat} {s : State}, (∀ j, j < left + 1 → polled ctx j s ∉ [ChannelState.stopped, .faulting]) →
      finishLoop c ctx left n s
        = deliver (.timeout .finish (n + left + 1)) (readState ctx (afterPolls ctx left s)).2 := by
  intro left
  induction left with
  | zero =>
    intro n s hb
    have h0 : finishPoll c ctx s = (false, (readState ctx s).2) := finishPoll_running (hb 0 (by omega))
    unfold finishLoop
    simp only [h0]
    rfl
  | succ left ih =>
    intro n s hb
    have h0 : finishPoll c ctx s = (false, (readState ctx s).2) := finishPoll_running (hb 0 (by omega))
    have h := ih (n := n + 1) (s := delay (readState ctx s).2) (fun j hj => hb (j + 1) (by omega))
    conv_lhs => unfold finishLoop
    simp only [h0]
    rw [show n + (left + 1) + 1 = n + 1 + left + 1 by omega]
    exact h

/-- The two ways the loop of finish() ends. -/
theorem finishLoop_cases (c : Nat) (ctx : ExecutionContext) (left n : Nat) (s : State) :
    (∃ k, k ≤ left ∧ polled ctx k s ∈ [ChannelState.stopped, .faulting]
        ∧ finishLoop c ctx left n s = (finishPoll c ctx (afterPolls ctx k s)).2)
    ∨ finishLoop c ctx left n s
        = deliver (.timeout .finish (n + left + 1)) (readState ctx (afterPolls ctx left s)).2 := by
  by_cases h : ∃ k, k ≤ left ∧ polled ctx k s ∈ [ChannelState.stopped, .faulting]
  · classical
    obtain ⟨hk, hi⟩ := Nat.find_spec h
    refine Or.inl ⟨Nat.find h, hk, hi, finishLoop_ends hk (fun j hj hc => ?_) hi⟩
    exact Nat.find_min h hj ⟨by omega, hc⟩
  · exact Or.inr (finishLoop_timedOut fun j hj hc => h ⟨j, by omega, hc⟩)

end Sys2Proof.Machine
end

