-- ==== Sys2Proof/Laws/Commands.lean ====
section
/-! SUPPORT. What each controller command can do, said once: every way it ends, with the state it leaves (R255 to R268,
R294 to R297). -/

namespace Sys2Proof.Machine

/-! ### START -/

/-- What the beginning of transfers leaves (R371): the transfers marked by the state they make, no byte known which one of
them may write, the registers they reach into free, and nothing else changed. -/
theorem transfersBegin_spec (is : List Issue) (s : State) :
    let t := transfersBegin is s
    t.issues = is.map (markHazards t)
    ∧ t.wild = (s.wild || transfersDisturb t)
    ∧ onlyForgetsDma s t
    ∧ (∀ r, regMay t r = false → getReg r t.dmac = getReg r s.dmac) ∧ regsFree t t
    ∧ { t with issues := s.issues, wild := s.wild, mem := s.mem, dmac := s.dmac, regFrees := s.regFrees } = s := by
  intro t
  let u : State := { s with
    issues := is.map (markHazards { s with issues := is })
    wild := s.wild || transfersDisturb { s with issues := is } }
  let v : State := { u with mem := Memory.forget (dmaMay u) u.mem }
  have ht : t = settleRegs v := rfl
  have hi : t.issues = is.map (markHazards { s with issues := is }) := by rw [ht, settleRegs_issues]
  have hw : t.wild = (s.wild || transfersDisturb { s with issues := is }) := by rw [ht, settleRegs_wild]
  obtain ⟨hm, hd⟩ := hazards_congr (s := { s with issues := is }) (t := t) (markHazards { s with issues := is })
    (fun i => ⟨rfl, rfl, rfl, rfl⟩) hi (by rw [ht, settleRegs_chans]) (by rw [ht, settleRegs_cfg])
  refine ⟨by rw [hm, hi], by rw [hd, hw], fun a => ?_, fun r hr => ?_, fun r hb _ hr => ?_, ?_⟩
  · have hmem : t.mem = Memory.forget (dmaMay u) s.mem := by rw [ht, settleRegs_mem]
    rw [byteAt_def, byteAt_def, hmem, Memory.read_forget, dmaMay_congr (s := u) (t := t) (by rw [ht, settleRegs_chans])
      hi]
  · rw [ht, regMay_settleRegs] at hr
    rw [ht]
    exact getReg_settleRegs hr
  · rw [ht, regMay_settleRegs] at hr
    rw [ht]
    exact settleRegs_free hb hr
  · rw [ht]
    exact congrArg (fun x : State => { x with issues := s.issues, wild := s.wild, mem := s.mem }) (settleRegs_frame v)

@[simp] theorem transfersBegin_cfg (is : List Issue) (s : State) : (transfersBegin is s).cfg = s.cfg :=
  settleRegs_cfg _
@[simp] theorem transfersBegin_chans (is : List Issue) (s : State) : (transfersBegin is s).chans = s.chans :=
  settleRegs_chans _
@[simp] theorem transfersBegin_dbgEnv (is : List Issue) (s : State) : (transfersBegin is s).dbgEnv = s.dbgEnv :=
  settleRegs_dbgEnv _
@[simp] theorem transfersBegin_draws (is : List Issue) (s : State) : (transfersBegin is s).draws = s.draws :=
  settleRegs_draws _
@[simp] theorem transfersBegin_drawCount (is : List Issue) (s : State) : (transfersBegin is s).drawCount = s.drawCount :=
  settleRegs_drawCount _
@[simp] theorem transfersBegin_ctxs (is : List Issue) (s : State) : (transfersBegin is s).ctxs = s.ctxs :=
  settleRegs_ctxs _
@[simp] theorem transfersBegin_programs (is : List Issue) (s : State) : (transfersBegin is s).programs = s.programs :=
  settleRegs_programs _
@[simp] theorem transfersBegin_build (is : List Issue) (s : State) : (transfersBegin is s).build = s.build :=
  settleRegs_build _
@[simp] theorem transfersBegin_active (is : List Issue) (s : State) : (transfersBegin is s).active = s.active :=
  settleRegs_active _
@[simp] theorem transfersBegin_emitPort (is : List Issue) (s : State) : (transfersBegin is s).emitPort = s.emitPort :=
  settleRegs_emitPort _
@[simp] theorem transfersBegin_inbox (is : List Issue) (s : State) : (transfersBegin is s).inbox = s.inbox :=
  settleRegs_inbox _
@[simp] theorem transfersBegin_result (is : List Issue) (s : State) : (transfersBegin is s).result = s.result :=
  settleRegs_result _
@[simp] theorem transfersBegin_bus (is : List Issue) (s : State) : (transfersBegin is s).bus = s.bus :=
  settleRegs_bus _

/-- What the GO leaves (R259, R371): as the beginning of its transfers does, with the context in flight at the program. -/
theorem goIssued_spec (c : Nat) (ctx : ExecutionContext) (p : Microprogram) (kept : List Issue) (s : State) :
    let t := goIssued c ctx p kept s
    t.ctxs = s.ctxs.set c { ctx with progBase := p.base, inflight := true }
    ∧ t.issues = (newIssues s true c ctx.chan p ++ kept).map (markHazards t)
    ∧ t.wild = (s.wild || transfersDisturb t)
    ∧ onlyForgetsDma s t
    ∧ (∀ r, regMay t r = false → getReg r t.dmac = getReg r s.dmac) ∧ regsFree t t
    ∧ { t with ctxs := s.ctxs, issues := s.issues, wild := s.wild, mem := s.mem, dmac := s.dmac,
               regFrees := s.regFrees } = s := by
  intro t
  obtain ⟨h1, h2, h3, h4, h5, h6⟩ := transfersBegin_spec (newIssues s true c ctx.chan p ++ kept)
    (setContext c { ctx with progBase := p.base, inflight := true } s)
  exact ⟨congrArg State.ctxs h6, h1, h2, h3, h4, h5, congrArg (fun x : State => { x with ctxs := s.ctxs }) h6⟩

/-- Where the transfers before the GO reach into a register, those after it do: START drops none that may be executing. -/
theorem regMay_openIssues {r t : State} {q : DmacReg} {new : List Issue} {chan : Nat} (hc : t.cfg = r.cfg)
    (hi : t.issues = (new ++ openIssues r chan).map (markHazards t))
    (hn : ∀ n, channelIdle (chanEnv t n) = true → channelIdle (chanEnv r n) = true) (h : regMay r q = true) :
    regMay t q = true := by
  obtain ⟨i, him, h⟩ := List.any_eq_true.1 h
  obtain ⟨hr, hg⟩ := Bool.and_eq_true _ _ ▸ h
  refine List.any_eq_true.2 ⟨markHazards t i, ?_, ?_⟩
  · rw [hi]
    refine List.mem_map.2 ⟨i, List.mem_append_right _ (List.mem_filter.2 ⟨him, ?_⟩), rfl⟩
    rw [hr, Bool.or_true]
  · have hrun : mayRun t (markHazards t i) = true := by
      unfold mayRun at hr ⊢
      rw [Bool.or_eq_true] at hr ⊢
      refine hr.imp id fun h => ?_
      rw [Bool.not_eq_true', ← Bool.not_eq_true] at h ⊢
      exact fun h' => h (hn _ h')
    rw [hrun, hc]
    exact hg

/-- START with a usable context: busy without an access, busy after one read, a GO injected, or out of polls. -/
theorem startChannel_cases (c : Nat) (ctx : ExecutionContext) (p : Microprogram) (s : State) :
    (ctx.inflight = true ∧ startChannel c ctx p s = deliver (.busyError none) s)
    ∨ (ctx.inflight = false ∧ oracleShows ctx s ≠ .stopped
        ∧ startChannel c ctx p s = deliver (.busyError (some (oracleShows ctx s))) (readState ctx s).2)
    ∨ (ctx.inflight = false ∧ oracleShows ctx s = .stopped ∧ ∃ busy idle t,
        Waits ctx.regBase busy idle (debugLoaded ctx true (goBytes ctx p.base) (readState ctx s).2) t
        ∧ startChannel c ctx p s = deliver .okUnit (goIssued c ctx p (openIssues (readState ctx s).2 ctx.chan)
            (write32 ctx.regBase .dbgCmd 0 t)))
    ∨ (ctx.inflight = false ∧ oracleShows ctx s = .stopped ∧ ∃ busy last t,
        Waits ctx.regBase busy last (debugLoaded ctx true (goBytes ctx p.base) (readState ctx s).2) t
        ∧ startChannel c ctx p s = deliver (.timeout .debug s.cfg.dbgPollLimit)
            (goOverwrote c ctx p (openIssues (readState ctx s).2 ctx.chan) (noteInjection t))) := by
  by_cases hf : ctx.inflight = true
  · exact Or.inl ⟨hf, by simp [startChannel, hf]⟩
  · rw [Bool.not_eq_true] at hf
    by_cases hs : oracleShows ctx s = .stopped
    · rcases debugExec_cases ctx true (goBytes ctx p.base) (readState ctx s).2 with ⟨k, t, ht, hw⟩ | ⟨k, t, ht, hw⟩
      · exact Or.inr (Or.inr (Or.inl ⟨hf, hs, _, _, t, hw, by simp [startChannel, hf, hs, ht]⟩))
      · refine Or.inr (Or.inr (Or.inr ⟨hf, hs, _, _, t, hw, ?_⟩))
        rw [readState_cfg] at ht
        simp [startChannel, hf, hs, ht]
    · exact Or.inr (Or.inl ⟨hf, hs, by simp [startChannel, hf, hs]⟩)

/-- START, whatever its operands. -/
theorem execStart_cases (c : Nat) (p : Microprogram) (s : State) :
    execStart c p s = .next (deliver (.validationError .badContext) s)
    ∨ execStart c p s = .refused .foreignProgram
    ∨ ∃ ctx, s.ctxs[c]? = some ctx ∧ ctx.isManager = false ∧ ctx.chan < s.cfg.numChannels
        ∧ programKnown s p = true ∧ execStart c p s = .next (startChannel c ctx p s) := by
  unfold execStart
  split
  · exact Or.inl rfl
  · rename_i ctx hc
    split_ifs with hn hk
    · exact Or.inl rfl
    · have hn' : ctx.isManager = false ∧ ctx.chan < s.cfg.numChannels := by simpa [notChannelContext] using hn
      exact Or.inr (Or.inr ⟨ctx, hc, hn'.1, hn'.2, hk, rfl⟩)
    · exact Or.inr (Or.inl rfl)

/-! ### POLL -/

/-- POLL, whatever its operand. -/
theorem execPoll_cases (c : Nat) (s : State) :
    execPoll c s = .next (deliver (.validationError .badContext) s)
    ∨ ∃ ctx, s.ctxs[c]? = some ctx ∧ badChannel s.cfg ctx = false
        ∧ execPoll c s = .next (deliver (.okState (oracleShows ctx s)) (readState ctx s).2) := by
  unfold execPoll
  split
  · exact Or.inl rfl
  · rename_i ctx hc
    split_ifs with hn
    · exact Or.inl rfl
    · exact Or.inr ⟨ctx, hc, by simpa using hn, rfl⟩

/-! ### KILL -/

/-- The wait of kill(): the first read, or the last of the reads that wait FAULT_COMPLETING out. `r` is the state before
the last read. -/
theorem killWait_cases (ctx : ExecutionContext) (s : State) :
    (∃ r, EnvOnly s r ∧ (r = s ∨ ∃ k, r = afterPolls ctx k (readState ctx s).2)
        ∧ killWait ctx s = .settled (oracleShows ctx r) (readState ctx r).2)
    ∨ ∃ k, killWait ctx s = .timedOut s.cfg.killWaitLimit (readState ctx (afterPolls ctx k (readState ctx s).2)).2 := by
  by_cases h : oracleShows ctx s = .faultCompleting
  · have e : killWait ctx s = killWaitLoop ctx s.cfg.killWaitLimitLess1 1 (readState ctx s).2 := by
      simp [killWait, h]
    rcases killWaitLoop_cases ctx s.cfg.killWaitLimitLess1 1 (readState ctx s).2 with ⟨k, -, hk⟩ | hk
    · exact Or.inl ⟨afterPolls ctx k (readState ctx s).2, (envOnly_readState ctx s).trans (afterPolls_env ctx k _),
        Or.inr ⟨k, rfl⟩, by rw [e, hk]; rfl⟩
    · refine Or.inr ⟨s.cfg.killWaitLimitLess1, ?_⟩
      rw [e, hk]
      simp [Config.Params.killWaitLimit, Nat.add_comm]
  · exact Or.inl ⟨s, EnvOnly.refl s, Or.inl rfl, by simp [killWait, h]⟩

/-- kill() after its wait: nothing injected, a KILL injected, or out of polls. -/
theorem killSettled_cases (c : Nat) (ctx : ExecutionContext) (st : ChannelState) (s : State) :
    (killIsNoOp st = true ∧ killSettled c ctx st s
        = deliver .okUnit (clearInflight c ctx (if st = .stopped then s else forgetKilled ctx s)))
    ∨ (killIsNoOp st = false ∧ ∃ busy idle t, Waits ctx.regBase busy idle (debugLoaded ctx ctx.isManager killBytes s) t
        ∧ killSettled c ctx st s
          = deliver .okUnit (clearInflight c ctx (forgetKilled ctx (write32 ctx.regBase .dbgCmd 0 t))))
    ∨ (killIsNoOp st = false ∧ ∃ busy last t, Waits ctx.regBase busy last (debugLoaded ctx ctx.isManager killBytes s) t
        ∧ killSettled c ctx st s
          = deliver (.timeout .debug s.cfg.dbgPollLimit) (forgetKilled ctx (noteInjection t))) := by
  by_cases h : killIsNoOp st = true
  · exact Or.inl ⟨h, by simp [killSettled, h]⟩
  · rw [Bool.not_eq_true] at h
    rcases debugExec_cases ctx ctx.isManager killBytes s with ⟨k, t, ht, hw⟩ | ⟨k, t, ht, hw⟩
    · exact Or.inr (Or.inl ⟨h, _, _, t, hw, by simp [killSettled, h, ht]⟩)
    · exact Or.inr (Or.inr ⟨h, _, _, t, hw, by simp [killSettled, h, ht]⟩)

/-- The command KILL, whatever its operand. -/
theorem execKillCommand_cases (c : Nat) (s : State) :
    execKillCommand c s = .next (deliver (.validationError .badContext) s)
    ∨ ∃ ctx, s.ctxs[c]? = some ctx ∧ badChannel s.cfg ctx = false
        ∧ execKillCommand c s = .next (killThread c ctx s) := by
  unfold execKillCommand
  split
  · exact Or.inl rfl
  · rename_i ctx hc
    split_ifs with hn
    · exact Or.inl rfl
    · exact Or.inr ⟨ctx, hc, by simpa using hn, rfl⟩

/-! ### FINISH -/

/-- FINISH with a usable context: it ends at a poll that shows STOPPED or FAULTING, it runs out of polls, or, without a
bound, it stays active. `k` polls come before the last one. -/
theorem execFinish_cases (c : Nat) (tmo : Option Nat) (s : State) :
    execFinish c tmo s = .next (deliver (.validationError .badContext) s)
    ∨ ∃ ctx k, s.ctxs[c]? = some ctx ∧ ctx.isManager = false ∧ ctx.chan < s.cfg.numChannels
        ∧ ((oracleShows ctx (afterPolls ctx k s) = .stopped ∧ execFinish c tmo s
              = .next (deliver .okUnit (closeTransfer c ctx (readState ctx (afterPolls ctx k s)).2)))
          ∨ (oracleShows ctx (afterPolls ctx k s) = .faulting ∧ execFinish c tmo s
              = .next (reportFault c ctx (readState ctx (afterPolls ctx k s)).2))
          ∨ (∃ t, tmo = some t ∧ execFinish c tmo s
              = .next (deliver (.timeout .finish (max t 1)) (readState ctx (afterPolls ctx k s)).2))
          ∨ (tmo = none ∧ k = 0 ∧ execFinish c tmo s
              = .next { delay (readState ctx s).2 with active := some (.finish c none), result := none })) := by
  unfold execFinish
  split
  · exact Or.inl rfl
  · rename_i ctx hc
    split_ifs with hn
    · exact Or.inl rfl
    · obtain ⟨h1, h2⟩ : ctx.isManager = false ∧ ctx.chan < s.cfg.numChannels := by simpa [notChannelContext] using hn
      refine Or.inr ?_
      have ends : ∀ u : State, oracleShows ctx u ∈ [ChannelState.stopped, .faulting] →
          (oracleShows ctx u = .stopped
              ∧ (finishPoll c ctx u).2 = deliver .okUnit (closeTransfer c ctx (readState ctx u).2))
          ∨ (oracleShows ctx u = .faulting ∧ (finishPoll c ctx u).2 = reportFault c ctx (readState ctx u).2) := by
        intro u hu
        rcases List.mem_cons.1 hu with h | h
        · exact Or.inl ⟨h, by rw [finishPoll_stopped h]⟩
        · rw [List.mem_singleton] at h
          exact Or.inr ⟨h, by rw [finishPoll_faulting h]⟩
      cases tmo with
      | some t =>
        rcases finishLoop_cases c ctx (max t 1 - 1) 0 s with ⟨k, -, hs, hk⟩ | hk
        · refine ⟨ctx, k, hc, h1, h2, ?_⟩
          rcases ends _ hs with ⟨h, e⟩ | ⟨h, e⟩
          · exact Or.inl ⟨h, by simp only [hk, e]⟩
          · exact Or.inr (Or.inl ⟨h, by simp only [hk, e]⟩)
        · refine ⟨ctx, max t 1 - 1, hc, h1, h2, Or.inr (Or.inr (Or.inl ⟨t, rfl, ?_⟩))⟩
          simp only [hk]
          rw [show 0 + (max t 1 - 1) + 1 = max t 1 by omega]
      | none =>
        refine ⟨ctx, 0, hc, h1, h2, ?_⟩
        by_cases hs : oracleShows ctx s ∈ [ChannelState.stopped, .faulting]
        · rcases ends _ hs with ⟨h, e⟩ | ⟨h, e⟩
          · refine Or.inl ⟨h, ?_⟩
            simp [finishUnbounded, finishPoll_stopped h, afterPolls]
          · refine Or.inr (Or.inl ⟨h, ?_⟩)
            simp [finishUnbounded, finishPoll_faulting h, afterPolls]
        · refine Or.inr (Or.inr (Or.inr ⟨rfl, rfl, ?_⟩))
          simp [finishUnbounded, finishPoll_running hs]

end Sys2Proof.Machine
end

