-- ==== Sys2Proof/Laws/Micro.lean ====
section
/-! SUPPORT. Every microinstruction's meaning is the emitter's checked form with what the builder does after it (R110,
R140, R141, R210); and the two ways such a meaning ends. -/

namespace Sys2Proof.Machine

/-- What the builder does after a microinstruction: LP opens its counter's frame, LPEND clears it, the others do
nothing. -/
def afterEmit : Instr → State → State
  | .lpLc0 _ => markFrame .lc0
  | .lpLc1 _ => markFrame .lc1
  | .lpendLc0 _ => clearFrame .lc0
  | .lpendLc1 _ => clearFrame .lc1
  | _ => id

/-- The meaning of a microinstruction. -/
theorem exec_micro {i : Instr} (h : isMicro i = true) (s : State) : exec i s = emitMeaning i (afterEmit i) s := by
  cases i <;> first | rfl | simp [isMicro] at h

/-- An operand outside its domain is refused, whatever the state (R110, U7). -/
theorem emitMeaning_illFormed {i : Instr} {post : State → State} {s : State} (h : i.wf = false) :
    emitMeaning i post s = .refused .operandOutOfDomain := by
  simp [emitMeaning, h]

/-- An emit with no build in progress is refused. -/
theorem emitMeaning_noBuild {i : Instr} {post : State → State} {s : State} (hw : i.wf = true)
    (hr : buildRunning s = false) : emitMeaning i post s = .refused .noBuildInProgress := by
  simp [emitMeaning, hw, hr]

/-- An emit in a running build. -/
theorem emitMeaning_running {i : Instr} {post : State → State} {s : State} (hw : i.wf = true)
    (hr : buildRunning s = true) : emitMeaning i post s = .next (settleBuild (post (cemit i s))) := by
  simp [emitMeaning, hw, hr]

/-- A frame is set or cleared only in a build that runs. -/
theorem afterEmit_failed (i : Instr) {s : State} {b : BuildState} (hb : s.build = some b)
    (hf : b.status = .failed) : afterEmit i s = s := by
  cases i <;> simp [afterEmit, markFrame, clearFrame, hb, hf]

/-- In a running build it leaves the cursor, the buffer and the status as they are. -/
theorem afterEmit_running (i : Instr) (x : BuildState) (u : State) (hx : x.status = .building) :
    ∃ y : BuildState, y.off = x.off ∧ y.cap = x.cap ∧ y.bufBase = x.bufBase ∧ y.status = .building
      ∧ afterEmit i { u with build := some x } = { u with build := some y } := by
  cases i
  case lpLc0 n => exact ⟨setFrame .lc0 (some x.off) x, rfl, rfl, rfl, hx, by simp [afterEmit, markFrame, hx]⟩
  case lpLc1 n => exact ⟨setFrame .lc1 (some x.off) x, rfl, rfl, rfl, hx, by simp [afterEmit, markFrame, hx]⟩
  case lpendLc0 d => exact ⟨setFrame .lc0 none x, rfl, rfl, rfl, hx, by simp [afterEmit, clearFrame, hx]⟩
  case lpendLc1 d => exact ⟨setFrame .lc1 none x, rfl, rfl, rfl, hx, by simp [afterEmit, clearFrame, hx]⟩
  all_goals exact ⟨x, rfl, rfl, rfl, hx, rfl⟩

/-- The two ways a microinstruction that answers a next state ends: its bytes are emitted, or the build it is emitted into
is over with BufferOverflow. -/
theorem exec_micro_next {i : Instr} {s t : State} (hm : isMicro i = true) (he : exec i s = .next t) :
    i.wf = true ∧ ∃ b, s.build = some b ∧ b.status = .building ∧
      ((b.off + i.size ≤ b.cap ∧ ∃ b', b'.off = b.off + i.size ∧ b'.cap = b.cap ∧ b'.bufBase = b.bufBase
          ∧ b'.status = .building
          ∧ t = { memWriteBytes (b.bufBase + BitVec.ofNat 32 b.off) (enc i) s with build := some b' })
        ∨ (b.cap < b.off + i.size
          ∧ t = { s with
                  result := some (.bufferOverflow b.needed b.cap b.off), build := none, emitPort := [] })) := by
  rw [exec_micro hm] at he
  by_cases hw : i.wf = true
  · refine ⟨hw, ?_⟩
    by_cases hr : buildRunning s = true
    · rw [emitMeaning_running hw hr] at he
      cases he
      obtain ⟨b, hb, hst⟩ := (buildRunning_iff s).1 hr
      refine ⟨b, hb, hst, ?_⟩
      by_cases hc : b.off + i.size ≤ b.cap
      · refine Or.inl ⟨hc, ?_⟩
        rw [cemit_fits hb hst hc]
        obtain ⟨y, h1, h2, h3, h4, h5⟩ := afterEmit_running i { b with off := b.off + i.size }
          (memWriteBytes (b.bufBase + BitVec.ofNat 32 b.off) (enc i) s) hst
        refine ⟨y, h1, h2, h3, h4, ?_⟩
        rw [h5]
        simp [settleBuild, h4]
      · refine Or.inr ⟨by omega, ?_⟩
        rw [cemit_overflows hb hst (by omega), afterEmit_failed i (b := { b with status := .failed }) rfl rfl]
        simp [settleBuild, deliver]
    · rw [Bool.not_eq_true] at hr
      rw [emitMeaning_noBuild hw hr] at he
      cases he
  · rw [Bool.not_eq_true] at hw
    rw [emitMeaning_illFormed hw] at he
    cases he

end Sys2Proof.Machine
end

