-- ==== Sys2Proof/Laws/PerInstr.lean ====
section
/-! SUPPORT. One statement for every instruction, one lemma per constructor: the carrier of an instruction is as long as
its length in R80 says, which is 1, 2 or 6 bytes for a microinstruction and none for a command (R92). -/

namespace Sys2Proof.Laws.EncodedSize

/-- The encoding of an instruction has its tabled length. -/
def Statement (i : Instr) : Prop :=
  (enc i).length = i.size
    ∧ (Sys2Proof.Machine.isMicro i = true → i.size = 1 ∨ i.size = 2 ∨ i.size = 6)
    ∧ (Sys2Proof.Machine.isMicro i = false → i.size = 0)

theorem movSar (imm : Word) : Statement (.movSar imm) :=
  ⟨rfl, fun _ => Or.inr (Or.inr rfl), nofun⟩

theorem movCcr (imm : Word) : Statement (.movCcr imm) :=
  ⟨rfl, fun _ => Or.inr (Or.inr rfl), nofun⟩

theorem movDar (imm : Word) : Statement (.movDar imm) :=
  ⟨rfl, fun _ => Or.inr (Or.inr rfl), nofun⟩

theorem ld : Statement .ld :=
  ⟨rfl, fun _ => Or.inl rfl, nofun⟩

theorem lds : Statement .lds :=
  ⟨rfl, fun _ => Or.inl rfl, nofun⟩

theorem ldb : Statement .ldb :=
  ⟨rfl, fun _ => Or.inl rfl, nofun⟩

theorem st : Statement .st :=
  ⟨rfl, fun _ => Or.inl rfl, nofun⟩

theorem sts : Statement .sts :=
  ⟨rfl, fun _ => Or.inl rfl, nofun⟩

theorem stb : Statement .stb :=
  ⟨rfl, fun _ => Or.inl rfl, nofun⟩

theorem stz : Statement .stz :=
  ⟨rfl, fun _ => Or.inl rfl, nofun⟩

theorem stps (p : Nat) : Statement (.stps p) :=
  ⟨rfl, fun _ => Or.inr (Or.inl rfl), nofun⟩

theorem stpb (p : Nat) : Statement (.stpb p) :=
  ⟨rfl, fun _ => Or.inr (Or.inl rfl), nofun⟩

theorem flushp (p : Nat) : Statement (.flushp p) :=
  ⟨rfl, fun _ => Or.inr (Or.inl rfl), nofun⟩

theorem wfpSingle (p : Nat) : Statement (.wfpSingle p) :=
  ⟨rfl, fun _ => Or.inr (Or.inl rfl), nofun⟩

theorem wfpBurst (p : Nat) : Statement (.wfpBurst p) :=
  ⟨rfl, fun _ => Or.inr (Or.inl rfl), nofun⟩

theorem wfpPeriph (p : Nat) : Statement (.wfpPeriph p) :=
  ⟨rfl, fun _ => Or.inr (Or.inl rfl), nofun⟩

theorem lpLc0 (n : Nat) : Statement (.lpLc0 n) :=
  ⟨rfl, fun _ => Or.inr (Or.inl rfl), nofun⟩

theorem lpLc1 (n : Nat) : Statement (.lpLc1 n) :=
  ⟨rfl, fun _ => Or.inr (Or.inl rfl), nofun⟩

theorem lpendLc0 (d : Nat) : Statement (.lpendLc0 d) :=
  ⟨rfl, fun _ => Or.inr (Or.inl rfl), nofun⟩

theorem lpendLc1 (d : Nat) : Statement (.lpendLc1 d) :=
  ⟨rfl, fun _ => Or.inr (Or.inl rfl), nofun⟩

theorem endp : Statement .endp :=
  ⟨rfl, fun _ => Or.inl rfl, nofun⟩

theorem nop : Statement .nop :=
  ⟨rfl, fun _ => Or.inl rfl, nofun⟩

theorem kill : Statement .kill :=
  ⟨rfl, fun _ => Or.inl rfl, nofun⟩

theorem goSecure (c : Nat) (a : Word) : Statement (.goSecure c a) :=
  ⟨rfl, fun _ => Or.inr (Or.inr rfl), nofun⟩

theorem goNs (c : Nat) (a : Word) : Statement (.goNs c a) :=
  ⟨rfl, fun _ => Or.inr (Or.inr rfl), nofun⟩

theorem rmb : Statement .rmb :=
  ⟨rfl, fun _ => Or.inl rfl, nofun⟩

theorem wmb : Statement .wmb :=
  ⟨rfl, fun _ => Or.inl rfl, nofun⟩

theorem sev (e : Nat) : Statement (.sev e) :=
  ⟨rfl, fun _ => Or.inr (Or.inl rfl), nofun⟩

theorem build (req : TransferRequest) (bufBase : Word) (cap : Nat) : Statement (.build req bufBase cap) :=
  ⟨rfl, nofun, fun _ => rfl⟩

theorem buildZf (dst : Word) (size : Nat) (bufBase : Word) (cap : Nat) : Statement (.buildZf dst size bufBase cap) :=
  ⟨rfl, nofun, fun _ => rfl⟩

theorem start (c : Nat) (p : Microprogram) : Statement (.start c p) :=
  ⟨rfl, nofun, fun _ => rfl⟩

theorem poll (c : Nat) : Statement (.poll c) :=
  ⟨rfl, nofun, fun _ => rfl⟩

theorem finish (c : Nat) (t : Option Nat) : Statement (.finish c t) :=
  ⟨rfl, nofun, fun _ => rfl⟩

theorem killCommand (c : Nat) : Statement (.killCommand c) :=
  ⟨rfl, nofun, fun _ => rfl⟩

end Sys2Proof.Laws.EncodedSize
end

