-- ==== Sys2Proof/Laws/Step.lean ====
section
/-! SUPPORT. The step: what it does when it finds an instruction, something that is over at once, or bytes that are no
instruction; several steps; and what an outside write of a register leaves alone. -/

namespace Sys2Proof.Machine

theorem step_run {s u : State} {i : Instr} (h : fetch s = .run i u) : step s = exec i u := by
  simp [step, h]

theorem step_done {s u : State} (h : fetch s = .done u) : step s = .next u := by
  simp [step, h]

theorem step_bad {s : State} {f : Fault} (h : fetch s = .bad f) : step s = .fault f := by
  simp [step, h]

/-- A step that ends in a next state ran an instruction or was over without one. -/
theorem step_next_cases {s t : State} (h : step s = .next t) :
    (∃ i u, fetch s = .run i u ∧ exec i u = .next t) ∨ fetch s = .done t := by
  unfold step at h
  split at h
  · exact Or.inl ⟨_, _, ‹_›, h⟩
  · cases h
    exact Or.inr ‹_›
  · cases h

/-- With nothing active and nothing at the emitter's port, the step looks at the outside world. -/
theorem fetch_event {s : State} (ha : s.active = none) (he : s.emitPort = []) : fetch s = fetchEvent s := by
  simp [fetch, ha, he]

/-- One step and then others. -/
theorem run_succ (M : Host.Core) (k : Nat) {s s' : M.State} (h : M.step s = .next s') :
    M.run (k + 1) s = M.run k s' := by
  simp [Host.Core.run, h]

/-- A written register changes the registers and what ENV_PROTOCOL knows, and nothing else. -/
theorem storeReg_frame (r : DmacReg) (v : Word) (s : State) :
    { storeReg r v s with dmac := s.dmac, regFrees := s.regFrees, chans := s.chans, dbgEnv := s.dbgEnv } = s := by
  have h := congrArg (fun x : State => { x with bus := s.bus }) (write32_frame 0 r v s)
  have hb : (storeReg r v s).bus = s.bus := by simp
  unfold write32 at h
  cases s
  simp_all

end Sys2Proof.Machine
end

