-- ==== Sys2Proof/Tests/Slice0.lean ====
section
/-! SUPPORT. Tests on fixed values: an ill-formed term for each check of WellFormed, every constructor's decoding from a
word written out from the spec's encoding of it, a few vectors and programs of 95_test_vectors.md, and for every
obligation with hypotheses a state and operands that meet them (`witness_` theorems). Expected values are the spec's. -/

namespace Sys2Proof.Machine.Tests

/-! ### WellFormed -/

theorem test_wf_refuses_periph_32 :
    (Instr.stps 32).wf = false ∧ (Instr.stpb 32).wf = false ∧ (Instr.flushp 32).wf = false := by decide
theorem test_wf_refuses_wfp_periph_32 :
    (Instr.wfpSingle 32).wf = false ∧ (Instr.wfpBurst 32).wf = false ∧ (Instr.wfpPeriph 32).wf = false := by decide
theorem test_wf_refuses_count_0 : (Instr.lpLc0 0).wf = false ∧ (Instr.lpLc1 0).wf = false := by decide
theorem test_wf_refuses_count_257 : (Instr.lpLc0 257).wf = false ∧ (Instr.lpLc1 257).wf = false := by decide
theorem test_wf_refuses_bjump_256 : (Instr.lpendLc0 256).wf = false ∧ (Instr.lpendLc1 256).wf = false := by decide
theorem test_wf_refuses_chan_8 : (Instr.goSecure 8 0).wf = false ∧ (Instr.goNs 8 0).wf = false := by decide
theorem test_wf_refuses_event_32 : (Instr.sev 32).wf = false := by decide
theorem test_wf_admits_the_extremes :
    (Instr.stpb 31).wf = true ∧ (Instr.lpLc0 1).wf = true ∧ (Instr.lpLc1 256).wf = true ∧ (Instr.lpendLc0 0).wf = true
      ∧ (Instr.lpendLc1 255).wf = true ∧ (Instr.goNs 7 0).wf = true ∧ (Instr.sev 31).wf = true := by decide

/-! ### Decoding: bytes from R82, R86 and R87, and the vectors V-EN and V-DE -/

theorem test_decode_movSar : decode [0b10111100, 0x00, 0x78, 0x56, 0x34, 0x12] = .instr (.movSar 0x12345678) 6 := by decide
theorem test_decode_movCcr : decode [0b10111100, 0x01, 0xF7, 0xC8, 0x3D, 0x02] = .instr (.movCcr 0x023DC8F7) 6 := by decide
theorem test_decode_movDar : decode [0b10111100, 0x02, 0xFF, 0xFF, 0xFF, 0x7F] = .instr (.movDar 0x7FFFFFFF) 6 := by decide
theorem test_decode_ld : decode [0b00000100] = .instr .ld 1 := by decide
theorem test_decode_lds : decode [0b00000101] = .instr .lds 1 := by decide
theorem test_decode_ldb : decode [0b00000111] = .instr .ldb 1 := by decide
theorem test_decode_st : decode [0b00001000] = .instr .st 1 := by decide
theorem test_decode_sts : decode [0b00001001] = .instr .sts 1 := by decide
theorem test_decode_stb : decode [0b00001011] = .instr .stb 1 := by decide
theorem test_decode_stz : decode [0b00001100] = .instr .stz 1 := by decide
theorem test_decode_stps : decode [0b00101001, 0b00101000] = .instr (.stps 5) 2 := by decide
theorem test_decode_stpb : decode [0b00101011, 0b11111000] = .instr (.stpb 31) 2 := by decide
theorem test_decode_flushp : decode [0b00110101, 0b10000000] = .instr (.flushp 16) 2 := by decide
theorem test_decode_wfpSingle : decode [0b00110000, 0b00101000] = .instr (.wfpSingle 5) 2 := by decide
theorem test_decode_wfpBurst : decode [0b00110010, 0b00001000] = .instr (.wfpBurst 1) 2 := by decide
theorem test_decode_wfpPeriph : decode [0b00110001, 0b11111000] = .instr (.wfpPeriph 31) 2 := by decide
theorem test_decode_lpLc0 : decode [0b00100000, 0xFF] = .instr (.lpLc0 256) 2 := by decide
theorem test_decode_lpLc1 : decode [0b00100010, 0x01] = .instr (.lpLc1 2) 2 := by decide
theorem test_decode_lpendLc0 : decode [0b00111000, 0xFF] = .instr (.lpendLc0 255) 2 := by decide
theorem test_decode_lpendLc1 : decode [0b00111100, 0x0B] = .instr (.lpendLc1 11) 2 := by decide
theorem test_decode_endp : decode [0b00000000] = .instr .endp 1 := by decide
theorem test_decode_nop : decode [0b00011000] = .instr .nop 1 := by decide
theorem test_decode_kill : decode [0b00000001] = .instr .kill 1 := by decide
theorem test_decode_goSecure : decode [0b10100000, 0x00, 0x00, 0x00, 0x30, 0x00] = .instr (.goSecure 0 0x00300000) 6 := by
  decide
theorem test_decode_goNs : decode [0b10100010, 0x07, 0x78, 0x56, 0x34, 0x12] = .instr (.goNs 7 0x12345678) 6 := by decide
theorem test_decode_rmb : decode [0b00010010] = .instr .rmb 1 := by decide
theorem test_decode_wmb : decode [0b00010011] = .instr .wmb 1 := by decide
theorem test_decode_sev : decode [0b00110100, 0b00011000] = .instr (.sev 3) 2 := by decide
theorem test_decode_rejects :
    [[0x02], [0x06], [0x33, 0x28], [0xBC, 0x03, 0, 0, 0, 0], [0x30, 0x29], [0xA0, 0x08, 0, 0, 0, 0], [0xBC, 0x00, 0x01]].map decode
      = [.unknown 0x02, .unknown 0x06, .unknown 0x33, .unknown2 0xBC 0x03, .unknown2 0x30 0x29, .unknown2 0xA0 0x08,
         .truncated] := by decide

/-- A transaction with every operand field different from zero. -/
def fullTransaction (code : Byte) : Transaction where
  code := code
  req := { (default : TransferRequest) with size := 3 }
  dst := 4
  size := 5
  bufBase := 6
  cap := 7
  ctx := 8
  program := ⟨9, 10, 11, 12⟩
  timeout := some 13

theorem test_decode_build :
    decodeCommand (fullTransaction 0x01) = some (.build { (default : TransferRequest) with size := 3 } 6 7) := by decide
theorem test_decode_buildZf : decodeCommand (fullTransaction 0x02) = some (.buildZf 4 5 6 7) := by decide
theorem test_decode_start : decodeCommand (fullTransaction 0x03) = some (.start 8 ⟨9, 10, 11, 12⟩) := by decide
theorem test_decode_poll : decodeCommand (fullTransaction 0x04) = some (.poll 8) := by decide
theorem test_decode_finish : decodeCommand (fullTransaction 0x05) = some (.finish 8 (some 13)) := by decide
theorem test_decode_killCommand : decodeCommand (fullTransaction 0x06) = some (.killCommand 8) := by decide
theorem test_decode_reserved_codes :
    decodeCommand (fullTransaction 0x00) = none ∧ decodeCommand (fullTransaction 0x07) = none
      ∧ decodeCommand (fullTransaction 0xFF) = none := by decide

/-- Words as the opcode table numbers their bits; the last three are command codes that are no microinstruction. -/
theorem test_table_words :
    decodeTableWord 8 0x04 = some .ld ∧ decodeTableWord 16 0x2835 = some (.flushp 5)
      ∧ decodeTableWord 16 0x02BC = some (.movDar 0) ∧ decodeTableWord 16 0x07A2 = some (.goNs 7 0)
      ∧ decodeTableWord 8 0x02 = some (.buildZf 0 0 0 0) ∧ decodeTableWord 8 0x03 = some (.start 0 ⟨0, 0, 0, 0⟩)
      ∧ decodeTableWord 8 0x06 = some (.killCommand 0) := by decide

/-! ### States: the parameters of 95_test_vectors.md -/

/-- The example parameters of 95_test_vectors.md. -/
def cfg : Config.Params where
  numChannelsLess1 := 7
  maxBurstExp := 4
  secRegBaseHi := 0x3FF80400
  nsRegBaseHi := 0x3FF80000
  dbgPollLimitLess1 := 2
  killWaitLimitLess1 := 1
  envProtocol := false

theorem test_bases : cfg.secRegBase = 0xFFE01000 ∧ cfg.nsRegBase = 0xFFE00000 := by decide

/-- Scenario A. -/
def reqA : TransferRequest where
  src := 0x80000000
  dst := 0x80100000
  size := 4096
  bsz := 3
  blen := 16
  ssz := 0
  periph := 0
  kind := .mem2mem
  cache := false
  security := .secure

/-- Program P2. -/
def reqB : TransferRequest :=
  { reqA with src := 0x00200000, dst := 0xFFD00000, size := 9607, bsz := 2, blen := 4, periph := 5, kind := .mem2periph }

/-- The validation base request. -/
def reqV : TransferRequest := { reqA with src := 0x1000, dst := 0x2000, size := 64, bsz := 2, blen := 4 }

/-- The record of program P1. -/
def recA : Microprogram := ⟨0x00300000, 64, 33, 0⟩

/-- Its data ranges. -/
def dataA : DataRanges := ⟨some 0x80000000, 0x80100000, 4096⟩

/-- A secure context. -/
def secureCtx (chan : Nat) (isManager : Bool) : ExecutionContext := newContext cfg chan isManager .secure

/-- Program P1 built, these contexts, these answers of the DMAC to come. -/
def st (ctxs : List ExecutionContext) (draws : List Word) : State :=
  { State.reset with cfg := cfg, ctxs := ctxs, draws := draws, programs := [⟨recA, dataA⟩] }

/-- A context on channel 1, in flight or not. -/
def ctx1 (inflight : Bool) : ExecutionContext :=
  { secureCtx 1 false with inflight := inflight, progBase := if inflight then 0x00300000 else 0 }

/-- A build of `cap` bytes with the cursor at `off`. -/
def building (cap off : Nat) : BuildState where
  bufBase := 0xFFFFFFF0
  cap := cap
  off := off
  frame0 := none
  frame1 := none
  rem := 0
  status := .building
  needed := 33

/-- That build running. -/
def stBuild (cap off : Nat) : State := { st [] [] with build := some (building cap off) }

/-- Program P1 issued on channel 1 for the first context, with these data ranges, and open. -/
def issueA (d : DataRanges) : Issue :=
  { ctx := some 0, chan := 1, record := recA, data := d, isOpen := true, disturbed := false, overlaps := false }

/-- A channel nothing is known of, with nothing injected. -/
def freshEnv : ChannelEnv := { last := none, goSeen := false, killSeen := false, ran := false, lifted := false }

/-- What a next state shows. -/
def shows {α : Type} (f : State → α) (o : Host.Outcome State Fault Refusal) : Option α :=
  match o with
  | .next t => some (f t)
  | .fault _ => none
  | .refused _ => none

/-! ### Steps -/

/-- R111: the byte at the end of the address space, and the cursor. -/
theorem test_movSar :
    shows (fun t => (t.mem, t.build.map BuildState.off)) (exec (.movSar 0x12345678) (stBuild 16 10))
      = some ([(0xFFFFFFFA, 0xBC), (0xFFFFFFFB, 0x00), (0xFFFFFFFC, 0x78), (0xFFFFFFFD, 0x56), (0xFFFFFFFE, 0x34),
          (0xFFFFFFFF, 0x12)], some 16) := by decide
theorem test_stpb : shows (fun t => t.mem) (exec (.stpb 31) (stBuild 16 0)) = some [(0xFFFFFFF0, 0x2B), (0xFFFFFFF1, 0xF8)] := by
  decide
theorem test_lpLc0_marks :
    shows (fun t => (t.mem, t.build.map BuildState.frame0)) (exec (.lpLc0 256) (stBuild 16 2))
      = some ([(0xFFFFFFF2, 0x20), (0xFFFFFFF3, 0xFF)], some (some 4)) := by decide
theorem test_goNs_bytes :
    shows (fun t => t.mem.map fun c => c.2) (exec (.goNs 7 0xFFFFFFFF) (stBuild 6 0))
      = some [0xA2, 0x07, 0xFF, 0xFF, 0xFF, 0xFF] := by decide
theorem test_overflow_writes_nothing :
    shows (fun t => (t.mem, t.result, t.build)) (exec (.movCcr 0) (stBuild 16 11))
      = some ([], some (.bufferOverflow 33 16 11), none) := by decide

/-- Program P1: the 33 bytes and the record. -/
theorem test_build_P1 :
    shows (fun t => (t.mem.map (fun c => c.2), t.result)) (exec (.build reqA 0x00300000 64) (st [] []))
      = some ([0xBC, 0x00, 0x00, 0x00, 0x00, 0x80, 0xBC, 0x02, 0x00, 0x00, 0x10, 0x80, 0xBC, 0x01, 0xF7, 0xC8, 0x3D, 0x02,
          0x20, 0x1F, 0x04, 0x12, 0x08, 0x13, 0x38, 0x04, 0xBC, 0x01, 0x01, 0x48, 0x00, 0x02, 0x00],
        some (.okProgram recA)) := by decide +kernel

/-- Program P2: the peripheral form with both frames and a tail; and V-OV-6. -/
theorem test_build_P2 :
    shows (fun t => ((t.mem.map (fun c => c.2)).drop 12, t.result)) (exec (.build reqB 0x00400000 64) (st [] []))
      = some ([0x35, 0x28, 0xBC, 0x01, 0x35, 0x08, 0x0D, 0x02, 0x22, 0x01, 0x20, 0xFF, 0x32, 0x28, 0x04, 0x12, 0x2B, 0x28,
          0x13, 0x38, 0x07, 0x3C, 0x0B, 0x20, 0x57, 0x32, 0x28, 0x04, 0x12, 0x2B, 0x28, 0x13, 0x38, 0x07, 0xBC, 0x01, 0x01,
          0x08, 0x00, 0x02, 0x20, 0x06, 0x30, 0x28, 0x04, 0x12, 0x29, 0x28, 0x13, 0x38, 0x07, 0x00],
        some (.okProgram ⟨0x00400000, 64, 64, 0⟩)) := by decide +kernel

/-- Program P3 in part, with MAX_BURST_EXP 3. -/
theorem test_buildZf_P3 :
    shows (fun t => (t.mem.map (fun c => c.2)).take 25)
        (exec (.buildZf 0x00400000 1000 0x00500000 40) { st [] [] with cfg := { cfg with maxBurstExp := 3 } })
      = some [0xBC, 0x02, 0x00, 0x00, 0x40, 0x00, 0xBC, 0x01, 0xF6, 0xC8, 0x3D, 0x02, 0x20, 0x06, 0x12, 0x0C, 0x13, 0x38,
          0x03, 0xBC, 0x01, 0x00, 0x48, 0x00, 0x02] := by decide +kernel

/-- V-CC-3 to V-CC-5, V-CC-10. -/
theorem test_ccr :
    ccrValue 4 16 1 1 1 1 0 = 0x023E48F9 ∧ ccrValue 4 16 1 1 7 7 2 = 0x0EBE7AF9 ∧ ccrValue 2 4 1 0 7 1 0 = 0x020D3835
      ∧ ccrValue 4 1 0 1 1 1 2 = 0x02824A08 := by decide

/-- V-PH-5, V-PH-8, V-PH-12. -/
theorem test_split :
    phase 257 1 = ([⟨256, some 1⟩, ⟨1, none⟩], 0) ∧ phase 65535 1 = ([⟨256, some 255⟩, ⟨255, none⟩], 0) ∧ phase 200000 1
      = ([⟨256, some 256⟩, ⟨256, some 256⟩, ⟨256, some 256⟩, ⟨256, some 13⟩, ⟨64, none⟩], 0) := by decide +kernel

/-- V-ST-1. -/
theorem test_start :
    shows (fun t => (t.bus, t.result, t.ctxs)) (exec (.start 0 recA) (st [ctx1 false] [0, 0]))
      = some ([.read32 0xFFE01108 0, .write32 0xFFE01D08 0x01A00000, .write32 0xFFE01D0C 0x00300000, .read32 0xFFE01D00 0,
          .write32 0xFFE01D04 0], some .okUnit, [ctx1 true]) := by decide

/-- R371: a destination over the program, over a register frame, over the source, and one that wraps; program P1's own
ranges are apart. -/
theorem test_overlap :
    ([⟨none, 0x00300020, 1⟩, ⟨none, 0xFFE00E00, 256⟩, ⟨some 0x1000, 0x1010, 32⟩, ⟨none, 0xFFFFFFF0, 17⟩, dataA]
        : List DataRanges).map (fun d => overlapHazard cfg (issueA d))
      = [true, true, true, true, false] := by decide

/-- R371, U14: the GO of a transfer whose destination holds the last byte of another running program marks both, and a byte
of that program that was known is known no longer. -/
theorem test_overlap_running_program :
    shows (fun t => (t.wild, t.issues.map Issue.overlaps, byteAt t 0x00300000))
        (exec (.start 1 ⟨0x00500000, 64, 20, 0⟩)
          { st [ctx1 true, secureCtx 2 false] [0, 0] with
            mem := [(0x00300000, 0xBC)]
            programs := [⟨⟨0x00500000, 64, 20, 0⟩, ⟨none, 0x00300020, 16⟩⟩]
            issues := [issueA dataA] })
      = some (true, [true, true], none) := by decide

/-- A transfer that moves this range onto DBGINST0 of the secure frame, open. -/
def stOverInst0 : State := { st [ctx1 false] [] with issues := [issueA ⟨none, 0xFFE01D08, 4⟩] }

/-- R371, U14: a destination or a source over one byte of DBGINST0, and a program over CR0 of the other frame, lift
ENV_PROTOCOL and reach into that register only. -/
theorem test_overlap_registers :
    [(recA, (⟨none, 0xFFE01D0B, 1⟩ : DataRanges)), (recA, ⟨some 0xFFE01D0B, 0x1000, 1⟩),
        (⟨0xFFE00DE3, 64, 33, 0⟩, dataA)].map (fun x =>
          shows (fun t => (t.wild, regMay t .dbgInst0, regMay t (.cr 0), regMay t .dbgInst1, t.dmac.dbgInst1))
            (exec (.start 0 x.1) { st [ctx1 false] [0, 0] with programs := [⟨x.1, x.2⟩] }))
      = [some (true, true, false, false, 0x00300000), some (true, true, false, false, 0x00300000),
         some (true, false, true, false, 0xFFE00DE3)] := by decide

/-- R371, U14: such a register holds a free value after any write, and that is the word a write of DBGCMD starts. -/
theorem test_settle_registers :
    (storeReg .dbgInst0 0x07A20000 stOverInst0).dmac.dbgInst0 = Config.freeReg 0 0xD08
      ∧ chanEnv (storeReg .dbgCmd 0 stOverInst0) 7 = wordNoted (Config.freeReg 0 0xD08) 7 (chanEnv stOverInst0 7) := by
  refine ⟨rfl, ?_⟩
  have h : (storeReg .dbgCmd 0 stOverInst0).chans = _ := write32_dbgCmd_chans 0 stOverInst0
  rw [chanEnv_congr h, chanEnv_noteInjection_word _ (by decide)]
  rfl

/-- R41: a write of LC0 leaves 8 bits. -/
theorem test_loop_counter : getReg (.lc0 3) (putReg (.lc0 3) 0x1FF launchRegs) = 0xFF := by decide

/-- R302: under ENV_PROTOCOL a busy run of at most one read: the second busy answer shows idle. -/
theorem test_debug_busy_run :
    shows (fun t => (t.bus.drop 3, t.result)) (exec (.start 0 recA)
        { st [ctx1 false] [0, 0xFFFFFFFF, 0xFFFFFFFF] with
          cfg := { cfg with envProtocol := true }, dbgEnv := ⟨1, 5, false⟩ })
      = some ([.read32 0xFFE01D00 0xFFFFFFFF, .delay, .read32 0xFFE01D00 0xFFFFFFFE, .write32 0xFFE01D04 0],
          some .okUnit) := by decide

/-- V-ST-5. -/
theorem test_start_times_out :
    shows (fun t => (t.bus.drop 3, t.result, t.ctxs)) (exec (.start 0 recA) (st [ctx1 false] [0, 1, 1, 1]))
      = some ([.read32 0xFFE01D00 1, .delay, .read32 0xFFE01D00 1, .delay, .read32 0xFFE01D00 1],
        some (.timeout .debug 3), [ctx1 false]) := by decide

/-- R369, U5: after the Timeout the program of the START may run: its destination is known no longer, the channel has seen
a GO, and nothing is open or in flight. -/
theorem test_start_overwrites_pending :
    shows (fun t => (byteAt t 0x80100000, (chanEnv t 1).goSeen, t.issues.map Issue.isOpen))
        (exec (.start 0 recA) { st [ctx1 false] [0, 1, 1, 1] with mem := [(0x80100000, 5)] })
      = some (none, true, [false]) := by decide

/-- R365: the program of a transfer that was closed, and is still remembered, may be written when its context starts
another. -/
theorem test_closed_program :
    shows (fun t => (t.issues.map Issue.isOpen, (memWrite8 0x00300000 7 t).wild))
        (exec (.start 0 ⟨0x00500000, 64, 20, 0⟩)
          { st [ctx1 false] [0, 0] with
            chans := Vector.replicate 8 { freshEnv with last := some .stopped, goSeen := true }
            programs := [⟨⟨0x00500000, 64, 20, 0⟩, ⟨none, 0x90000000, 16⟩⟩]
            issues := [{ issueA dataA with isOpen := false }] })
      = some ([true, false], false) := by decide

/-- R365: a block reset closes no transfer; FINISH with a new context of its channel does. -/
theorem test_block_reset :
    shows (fun t => (t.issues.map Issue.isOpen, (memWrite8 0x00300000 7 t).wild))
          (step { st [ctx1 true] [] with inbox := [.blockReset], issues := [issueA dataA] })
        = some ([true], true)
      ∧ shows (fun t => t.issues.map Issue.isOpen)
          (exec (.finish 0 none) { st [ctx1 false] [0] with issues := [{ issueA dataA with ctx := none }] })
        = some [false] := by decide

/-- V-FI-2. -/
theorem test_finish_faulting :
    shows (fun t => (t.bus, t.result, t.ctxs.map ExecutionContext.inflight))
        (exec (.finish 0 (some 10)) (st [ctx1 true] [15, 0x00010000, 0x00300014]))
      = some ([.read32 0xFFE01108 15, .read32 0xFFE01044 0x00010000, .read32 0xFFE0110C 0x00300014],
        some (.faultError 0x14 0x00010000 0x00300014 [.instrFetchErr]), [false]) := by decide

/-- V-FI-6. -/
theorem test_finish_bound_0 :
    shows (fun t => (t.bus, t.result)) (exec (.finish 0 (some 0)) (st [ctx1 true] [1]))
      = some ([.read32 0xFFE01108 1], some (.timeout .finish 1)) := by decide

/-- V-KL-3: FAULT_COMPLETING waited out, then V-KL-2. -/
theorem test_kill_after_wait :
    shows (fun t => (t.bus, t.result)) (exec (.killCommand 0) (st [ctx1 true] [14, 15, 0]))
      = some ([.read32 0xFFE01108 14, .read32 0xFFE01108 15, .write32 0xFFE01D08 0x00010101, .write32 0xFFE01D0C 0,
          .read32 0xFFE01D00 0, .write32 0xFFE01D04 0], some .okUnit) := by decide

/-- V-KL-6: the manager thread. -/
theorem test_kill_manager :
    shows (fun t => t.bus) (exec (.killCommand 0) (st [secureCtx 0 true] [1, 0]))
      = some [.read32 0xFFE01000 1, .write32 0xFFE01D08 0x00010000, .write32 0xFFE01D0C 0, .read32 0xFFE01D00 0,
          .write32 0xFFE01D04 0] := by decide

/-- R69, R365: a BUILD's byte in a running program: a residual byte of the destination, known before, is known no longer,
and a KILL that reads STOPPED brings no byte back. -/
theorem test_build_into_running_program :
    shows (fun t => (t.wild, byteAt t 0x90000000, byteAt t 0x00300000))
        (exec (.killCommand 0)
          { memWrite8 0x00300000 7 { st [ctx1 true] [0] with
              mem := [(0x90000000, 1)]
              issues := [{ issueA ⟨none, 0x90000000, 1⟩ with record := { recA with residual := 1 } }] } with result := none })
      = some (true, none, some 7) := by decide

/-- V-PO-1 and V-PO-2. -/
theorem test_poll :
    shows (fun t => t.result) (exec (.poll 0) (st [ctx1 true] [0x107])) = some (some (.okState .wfp))
      ∧ shows (fun t => t.result) (exec (.poll 0) (st [secureCtx 8 false] []))
        = some (some (.validationError .badContext)) := by decide

/-! ### Witnesses: a state and operands that meet the hypotheses of each obligation, one for each clause -/

theorem witness_EmittedMicroinstructionsDecodeBack :
    (isMicro (.lpLc1 256) = true ∧ (Instr.lpLc1 256).wf = true)
      ∧ (∀ i ∈ [Instr.goNs 7 0xFFFFFFFF, .stps 31, .endp], isMicro i = true ∧ i.wf = true) := by decide
theorem witness_EveryInstructionSurvivesItsCarrier :
    (Instr.wfpPeriph 31).wf = true ∧ (Instr.finish 3 (some 0)).wf = true := by decide
theorem witness_DecodedBytesAreTheEncoding : decode [0x3C, 0xFF, 0x00] = .instr (.lpendLc1 255) 2 := by decide

/-- No microinstruction begins with the byte 0x02 (V-DE-2). -/
theorem witness_DecoderRejectsByName_unknown :
    ∀ i, isMicro i = true → i.wf = true → (enc i).head? ≠ some 0x02 := by
  intro i hm _
  cases i <;> first
    | exact Bool.noConfusion hm
    | simp [enc, encMov, encGo, encLp, encLpend, ldStBits, wfpBits, stpBits, lpBits, lpendBits, nsBits]
theorem witness_DecoderRejectsByName_truncated :
    isMicro (.goSecure 0 0) = true ∧ (Instr.goSecure 0 0).wf = true ∧ 5 < (Instr.goSecure 0 0).size
      ∧ 0 < Instr.size .endp := by decide
theorem witness_DecoderRejectsByName_byte1 :
    (0x35 : Byte) ∈ [(0x29 : Byte), 0x2B, 0x30, 0x31, 0x32, 0x34, 0x35] ∧ (0x01 : Byte).toNat % 8 ≠ 0
      ∧ 3 ≤ (0x03 : Byte).toNat ∧ (0xA2 : Byte) ∈ [(0xA0 : Byte), 0xA2] ∧ 8 ≤ (0x08 : Byte).toNat := by decide
theorem witness_LengthsAreAsTabled :
    isMicro (.lpLc0 1) = true ∧ isMicro (.lpLc0 2) = true ∧ (enc (.lpLc0 1)).head? = (enc (.lpLc0 2)).head? := by decide
theorem witness_StepRunsTheDecodedInstruction_active :
    ({ st [] [] with active := some (.finish 0 none) } : State).active = some (.finish 0 none) := rfl
theorem witness_StepRunsTheDecodedInstruction_emit :
    ({ st [] [] with emitPort := [0x20, 0xFF, 0x00] } : State).active = none
      ∧ decode ({ st [] [] with emitPort := [0x20, 0xFF, 0x00] } : State).emitPort = .instr (.lpLc0 256) 2 := by decide
/-- A state whose outside world does this next. -/
def stInbox (e : HostEvent) : State := { st [ctx1 true] [] with inbox := [e] }

theorem witness_StepRunsTheDecodedInstruction_command :
    (stInbox (.command (fullTransaction 0x06))).active = none ∧ (stInbox (.command (fullTransaction 0x06))).emitPort = []
      ∧ decodeCommand (fullTransaction 0x06) = some (.killCommand 8) := by decide
theorem witness_ReservedCodeReturnsRefused :
    (stInbox (.command (fullTransaction 0x00))).active = none ∧ (fullTransaction 0x00).code.toNat < 1
      ∧ 6 < (fullTransaction 0x07).code.toNat ∧ 6 < (fullTransaction 0xFF).code.toNat := by decide
theorem witness_ResetAndContextCreation :
    (stInbox .blockReset).inbox = [.blockReset] ∧ (stInbox .blockReset).active = none
      ∧ (stInbox .blockReset).emitPort = []
      ∧ (stInbox (.create 7 true .nonsecure)).inbox = [.create 7 true .nonsecure] := by decide

/-- A running build with room for exactly one, two and six bytes: for the four statements made of `EmitsBytes`. -/
theorem witness_EmitsBytes :
    (stBuild 16 15).build = some (building 16 15) ∧ (building 16 15).status = .building
      ∧ (building 16 15).off + [(0x04 : Byte)].length ≤ (building 16 15).cap
      ∧ (building 16 14).off + [(0x20 : Byte), 0x00].length ≤ (building 16 14).cap
      ∧ (building 16 10).off + (enc (.movSar 0)).length ≤ (building 16 10).cap := by decide
/-- The first and the last operand of each range the same four statements, and DebugWordsHoldTheInstruction and
FaultNamesAreTheSetBits, name: a peripheral or event, a channel, a count, a distance, an FTR bit. -/
theorem witness_operands :
    (∀ p ∈ [0, 31], p ≤ 31) ∧ (∀ c ∈ [0, 7], c ≤ 7 ∧ c < 8) ∧ (∀ n ∈ [1, 256], 1 ≤ n ∧ n ≤ 256)
      ∧ (∀ d ∈ [0, 255], d ≤ 255) ∧ (∀ k ∈ [0, 31], k < 32) ∧ 2 ∉ [0, 1, 5, 6, 7, 12, 13, 16, 17, 18, 30, 31] := by decide
theorem witness_UnfittingMicroinstructionWritesNothing :
    isMicro (.movSar 0) = true ∧ (Instr.movSar 0).wf = true ∧ (stBuild 16 11).build = some (building 16 11)
      ∧ (building 16 11).status = .building ∧ (building 16 11).cap < (building 16 11).off + (Instr.movSar 0).size := by decide
theorem witness_EmitterRefusesWhatIsNeverPassed :
    isMicro (.lpLc0 257) = true ∧ (Instr.lpLc0 257).wf = false ∧ isMicro .endp = true ∧ Instr.endp.wf = true
      ∧ (st [] []).build = none := by decide

/-- V-VA-2 to V-VA-14: each cause of the table at a boundary of its range. -/
theorem witness_InvalidRequestChangesNothing :
    [({ reqV with bsz := 5 }, (0x00300000 : Word), 256), ({ reqV with ssz := 5 }, 0x00300000, 256),
      ({ reqV with ssz := 3 }, 0x00300000, 256), ({ reqV with blen := 0 }, 0x00300000, 256),
      ({ reqV with blen := 17 }, 0x00300000, 256), ({ reqV with kind := .mem2periph, periph := 32 }, 0x00300000, 256),
      ({ reqV with src := 0x1002, dst := 0x2001 }, 0x00300000, 256), ({ reqV with dst := 0x2002 }, 0x00300000, 256),
      ({ reqV with size := 4294967296 }, 0x00300000, 256), (reqV, 0xFFFFFFF0, 17), (reqV, 0xFFFFFFF0, 16)].map
        (fun x => firstFailing (requestChecks (st [] []).cfg x.1 x.2.1 x.2.2))
      = [some .badBurstSize, some .badSingleSize, some .badSingleSize, some .badBurstLen, some .badBurstLen, some .badPeriph,
         some .misalignedSrc, some .misalignedDst, some .badSize, some .badBuffer, none] := by decide +kernel
theorem witness_InvalidRequestChangesNothing_zeroFill :
    firstFailing (zeroFillChecks (st [] []).cfg 0x2008 10 0 16) = some .misalignedDst
      ∧ firstFailing (zeroFillChecks (st [] []).cfg 0x2000 4294967296 0 16) = some .badSize
      ∧ firstFailing (zeroFillChecks (st [] []).cfg 0x2000 10 0xFFFFFFF0 17) = some .badBuffer := by decide +kernel

/-- A planned request with burst loops of both forms and a tail; its program fits exactly, and by one byte not (V-OV-6).
For PlanCountsAndTotals, ResidualIsSizeModuloSingleUnit, TailIsAtMostOneSingleLoop, PlannedControlValueFields,
BuildLaysOutTheProgram, BuildStopsAtTheFirstOverflow and ProgramsEndOnceAndHoldNothingForeign. -/
theorem witness_planned :
    plan (st [] []).cfg reqB 0x00400000 64 = .ok (planRequest reqB) ∧ requiredSize reqB ≤ 64
      ∧ plan (st [] []).cfg reqB 0x00400000 63 = .ok (planRequest reqB) ∧ 63 < requiredSize reqB
      ∧ (planRequest reqB).burstPlans = [⟨256, some 2⟩, ⟨88, none⟩] ∧ (planRequest reqB).tailPlans = [⟨7, none⟩] := by
  have h : ∀ cap, cap ≤ 64 → validate cfg reqB 0x00400000 cap = none := by decide +kernel
  have h64 := h 64 (Nat.le_refl 64)
  have h63 := h 63 (by omega)
  refine ⟨?_, by decide +kernel, ?_, by decide +kernel, by decide +kernel, by decide +kernel⟩ <;>
    simp only [plan, st, h64, h63]
/-- For PlanCountsAndTotals, ZeroFillControlValueFields and ZeroFillLaysOutOrOverflows. -/
theorem witness_planned_zeroFill :
    planZf (st [] []).cfg 0x00400000 1000 0x00500000 40 = .ok (planZfGeometry cfg 1000)
      ∧ requiredSizeZf (st [] []).cfg 1000 ≤ 33 ∧ 32 < requiredSizeZf (st [] []).cfg 1000 := by
  have h : validateZf cfg 0x00400000 1000 0x00500000 40 = none := by decide +kernel
  refine ⟨by simp only [planZf, st, h], by decide +kernel, by decide +kernel⟩
theorem witness_BackwardJumpsAreTheFiveDistances :
    .lpendLc1 11 ∈ expectedProgram reqB ∧ .lpendLc0 7 ∈ expectedProgram reqB ∧ .lpendLc0 4 ∈ expectedProgram reqA
      ∧ .lpendLc0 3 ∈ expectedZeroFill cfg 0x00400000 1000 := by decide +kernel
/-- Both commands answer, with room and without; and the five distances occur in what they write. -/
theorem witness_BackwardJumpsAreTheFiveDistances_exec :
    [Instr.build reqA 0x00300000 64, .build reqA 0x00300000 25, .buildZf 0x00400000 1000 0x00500000 40].map
        (fun i => shows (fun t => t.bus.length) (exec i (st [] []))) = [some 33, some 24, some 33] := by decide +kernel
theorem witness_StoredBytesReadBack : (st [] []).issues = [] := rfl
theorem witness_LoopLeavesNoFrameOpen :
    (stBuild 16 1).build = some (building 16 1) ∧ (building 16 1).status = .building ∧ (building 16 1).frame0 = none ∧ (building 16 1).frame1 = none
      ∧ (building 16 1).off + loopLength (.periph 5) ⟨256, some 2⟩ ≤ (building 16 1).cap := by decide

theorem witness_ReadsAreDrawsOfTheEnvironment :
    protocolOn (st [] [7]) = false ∧ (DmacReg.ds ≠ .dbgStatus ∧ ∀ n, DmacReg.ds ≠ .csr n)
      ∧ protocolOn { st [] [7] with cfg := { cfg with envProtocol := true }, wild := true } = false
      ∧ protocolOn { st [] [7] with cfg := { cfg with envProtocol := true } } = true
      ∧ (chanEnv { st [] [7] with chans := Vector.replicate 8 { freshEnv with lifted := true } } 7).lifted = true := by
  refine ⟨by decide, ⟨by decide, ?_⟩, by decide, by decide, by decide⟩
  intro n h
  cases h

/-- ENV_PROTOCOL holds and channel 1 has read EXECUTING. -/
def stProtocol : State :=
  { st [ctx1 true] [0] with
    cfg := { cfg with envProtocol := true }
    chans := Vector.replicate 8 { freshEnv with last := some .executing, goSeen := true, ran := true } }

theorem witness_ProtocolReadsFollowTheGraph :
    (stProtocol.cfg.envProtocol = true ∧ stProtocol.wild = false ∧ (chanEnv stProtocol (ctx1 true).chan).lifted = false)
      ∧ (ctx1 true).isManager = false ∧ (ctx1 true).chan < 8 ∧ (chanEnv State.reset 7).last = none ∧ (chanEnv stProtocol (ctx1 true).chan).last = some .executing ∧ ChannelState.stopped ≠ .invalid
      ∧ protocolMove (chanEnv stProtocol 1).goSeen (chanEnv stProtocol 1).killSeen .executing .completing = true
      ∧ protocolMove (chanEnv stProtocol 1).goSeen (chanEnv stProtocol 1).killSeen .completing .stopped = true := by decide

/-- Context 0 is this channel context, which START, FINISH and the other commands can use. -/
abbrev Usable (s : State) (ctx : ExecutionContext) : Prop :=
  s.ctxs[0]? = some ctx ∧ ctx.isManager = false ∧ ctx.chan < s.cfg.numChannels

/-- What every START statement asks for. -/
abbrev Startable (s : State) (ctx : ExecutionContext) : Prop := Usable s ctx ∧ ∃ e ∈ s.programs, e.record = recA

/-- Idle at the last read the bound allows, and idle at the first. -/
theorem witness_StartInjectsGo :
    (Startable (st [ctx1 false] [0, 1, 1, 0]) (ctx1 false) ∧ (ctx1 false).inflight = false
      ∧ oracleShows (ctx1 false) (st [ctx1 false] [0, 1, 1, 0]) = .stopped
      ∧ idleAfter (st [ctx1 false] [0, 1, 1, 0]) 1 2 ∧ 2 < (st [ctx1 false] [0, 1, 1, 0]).cfg.dbgPollLimit)
    ∧ idleAfter (st [ctx1 false] [0, 0]) 1 0 := by
  unfold idleAfter
  decide
/-- After it, and after the START of `test_overlap_registers`; before its injection: no register reached into, and one. -/
theorem witness_StartInjectsGo_registers :
    shows (fun t => regMay t .dbgInst0 || regMay t .dbgInst1 || regMay t .dbgCmd)
        (exec (.start 0 recA) (st [ctx1 false] [0, 1, 1, 0])) = some false
      ∧ shows (fun t => regMay t .dbgInst0)
        (exec (.start 0 recA) { st [ctx1 false] [0, 0] with programs := [⟨recA, ⟨none, 0xFFE01D08, 4⟩⟩] }) = some true
      ∧ regMay (readState (ctx1 false) (st [ctx1 false] [0, 1, 1, 0])).2 .dbgInst0 = false := by decide
theorem witness_StartTimesOutOnBusyDebug :
    Startable (st [ctx1 false] [0, 1, 1, 1]) (ctx1 false) ∧ (ctx1 false).inflight = false
      ∧ oracleShows (ctx1 false) (st [ctx1 false] [0, 1, 1, 1]) = .stopped
      ∧ busyFor (st [ctx1 false] [0, 1, 1, 1]) 1 (st [ctx1 false] [0, 1, 1, 1]).cfg.dbgPollLimit := by
  unfold busyFor
  decide
theorem witness_StartInFlightIsBusy : Startable (st [ctx1 true] []) (ctx1 true) ∧ (ctx1 true).inflight = true := by decide
theorem witness_StartNeedsStopped :
    Startable (st [ctx1 false] [7]) (ctx1 false) ∧ (ctx1 false).inflight = false
      ∧ oracleShows (ctx1 false) (st [ctx1 false] [7]) ≠ .stopped := by decide
theorem witness_SecondStartIsBusy :
    ∃ t, exec (.start 0 recA) (st [ctx1 false] [0, 0]) = .next t ∧ t.result = some .okUnit
      ∧ ∃ e ∈ t.programs, e.record = recA := by
  have h : shows (fun t => (t.result, t.programs.map ProgramEntry.record)) (exec (.start 0 recA) (st [ctx1 false] [0, 0]))
      = some (some .okUnit, [recA]) := by decide
  match e : exec (.start 0 recA) (st [ctx1 false] [0, 0]), h with
  | .next t, h =>
    simp only [shows, Option.some.injEq, Prod.mk.injEq] at h
    exact ⟨t, rfl, h.1, List.mem_map.1 (h.2 ▸ List.mem_singleton.2 rfl)⟩
  | .fault _, h => simp [shows] at h
  | .refused _, h => simp [shows] at h
theorem witness_UnusableContextIsRejected :
    (∀ x, (st [secureCtx 0 true] []).ctxs[0]? = some x → x.isManager = true ∨ (st [] []).cfg.numChannels ≤ x.chan)
      ∧ (∀ x, (st [secureCtx 8 false] []).ctxs[0]? = some x → x.isManager = false ∧ (st [] []).cfg.numChannels ≤ x.chan)
      ∧ (∀ x, (st [] []).ctxs[0]? = some x → x.isManager = false ∧ (st [] []).cfg.numChannels ≤ x.chan) := by
  refine ⟨?_, ?_, ?_⟩ <;> intro x h <;> simp [st, secureCtx, newContext] at h <;> subst h <;> decide
theorem witness_PollReadsTheStatusOnce :
    (st [secureCtx 0 true] []).ctxs[0]? = some (secureCtx 0 true)
      ∧ ¬((secureCtx 0 true).isManager = false ∧ (st [] []).cfg.numChannels ≤ (secureCtx 0 true).chan)
      ∧ ¬((secureCtx 7 false).isManager = false ∧ (st [] []).cfg.numChannels ≤ (secureCtx 7 false).chan)
      ∧ (secureCtx 8 false).isManager = false ∧ (st [] []).cfg.numChannels ≤ (secureCtx 8 false).chan := by decide

/-- Each of the three states; a manager context has the first premise by its other side. -/
theorem witness_KillOfAnEndingChannelIsANoOp :
    Usable (st [ctx1 true] [0]) (ctx1 true)
      ∧ (oracleShows (ctx1 true) (st [ctx1 true] [9]) = .completing ∧ oracleShows (ctx1 true) (st [ctx1 true] [8]) = .killing
        ∧ oracleShows (ctx1 true) (st [ctx1 true] [0]) = .stopped)
      ∧ ((st [secureCtx 0 true] [0]).ctxs[0]? = some (secureCtx 0 true) ∧ (secureCtx 0 true).isManager = true
        ∧ oracleShows (secureCtx 0 true) (st [secureCtx 0 true] [0]) = .stopped) := by decide
theorem witness_KillInjectsKill :
    Usable (st [ctx1 true] [15, 1, 1, 0]) (ctx1 true)
      ∧ oracleShows (ctx1 true) (st [ctx1 true] [15, 1, 1, 0])
          ∉ [ChannelState.completing, .killing, .stopped, .faultCompleting]
      ∧ idleAfter (st [ctx1 true] [15, 1, 1, 0]) 1 2 ∧ 2 < (st [ctx1 true] [15, 1, 1, 0]).cfg.dbgPollLimit := by
  unfold idleAfter
  decide
/-- For both KILL statements: no register reached into, and one. -/
theorem witness_KillInjectsKill_registers :
    (∀ r ∈ [DmacReg.dbgInst0, .dbgInst1, .dbgCmd], regMay (readState (ctx1 true) (st [ctx1 true] [15, 1, 1, 0])).2 r = false)
      ∧ regMay (readState (ctx1 false) stOverInst0).2 .dbgInst0 = true := by decide
theorem witness_KillTimesOutOnBusyDebug :
    Usable (st [ctx1 true] [1, 1, 1, 1]) (ctx1 true)
      ∧ oracleShows (ctx1 true) (st [ctx1 true] [1, 1, 1, 1])
          ∉ [ChannelState.completing, .killing, .stopped, .faultCompleting]
      ∧ busyFor (st [ctx1 true] [1, 1, 1, 1]) 1 (st [ctx1 true] [1, 1, 1, 1]).cfg.dbgPollLimit := by
  unfold busyFor
  decide

/-- The wait of kill(): settled at its last poll, in each of the two ways, and out of polls. -/
theorem witness_KillWaitsOutFaultCompleting :
    (Usable (st [ctx1 true] [14, 14, 8]) (ctx1 true)
      ∧ oracleShows (ctx1 true) (st [ctx1 true] [14, 14, 8]) = .faultCompleting
      ∧ (∀ j, j < 1 → polled (ctx1 true) j (readState (ctx1 true) (st [ctx1 true] [14, 14, 8])).2
          ∉ [ChannelState.faulting, .killing])
      ∧ 1 < (st [ctx1 true] [14, 14, 8]).cfg.killWaitLimit
      ∧ polled (ctx1 true) 1 (readState (ctx1 true) (st [ctx1 true] [14, 14, 8])).2 = .killing)
    ∧ polled (ctx1 true) 0 (readState (ctx1 true) (st [ctx1 true] [14, 15])).2 = .faulting
    ∧ (oracleShows (ctx1 true) (st [ctx1 true] [14, 14, 14]) = .faultCompleting
      ∧ ∀ j, j < (st [ctx1 true] [14, 14, 14]).cfg.killWaitLimit →
        polled (ctx1 true) j (readState (ctx1 true) (st [ctx1 true] [14, 14, 14])).2
          ∉ [ChannelState.faulting, .killing]) := by decide

/-- The bound 3 with the last poll it allows, the bound 0 with its one poll, no bound with the first poll. -/
theorem witness_FinishEndsAtStopped :
    (Usable (st [ctx1 true] [1, 9, 0]) (ctx1 true) ∧ 2 < max 3 1
      ∧ (∀ j, j < 2 → polled (ctx1 true) j (st [ctx1 true] [1, 9, 0]) ∉ [ChannelState.stopped, .faulting])
      ∧ polled (ctx1 true) 2 (st [ctx1 true] [1, 9, 0]) = .stopped)
    ∧ (0 < max 0 1 ∧ polled (ctx1 true) 0 (st [ctx1 true] [0]) = .stopped) := by decide
theorem witness_FinishReportsTheFault :
    (Usable (st [ctx1 true] [1, 9, 15]) (ctx1 true) ∧ 2 < max 3 1
      ∧ (∀ j, j < 2 → polled (ctx1 true) j (st [ctx1 true] [1, 9, 15]) ∉ [ChannelState.stopped, .faulting])
      ∧ polled (ctx1 true) 2 (st [ctx1 true] [1, 9, 15]) = .faulting)
    ∧ (0 < max 0 1 ∧ polled (ctx1 true) 0 (st [ctx1 true] [15]) = .faulting) := by decide
theorem witness_FinishTimesOut :
    (Usable (st [ctx1 true] [1]) (ctx1 true)
      ∧ ∀ j, j < max 0 1 → polled (ctx1 true) j (st [ctx1 true] [1]) ∉ [ChannelState.stopped, .faulting])
    ∧ ∀ j, j < max 2 1 → polled (ctx1 true) j (st [ctx1 true] [14, 10]) ∉ [ChannelState.stopped, .faulting] := by decide
theorem witness_UnboundedFinishKeepsPolling :
    Usable { st [ctx1 true] [12, 14] with active := some (.finish 0 none) } (ctx1 true)
    ∧ ({ st [ctx1 true] [12, 14] with active := some (.finish 0 none) } : State).active = some (.finish 0 none)
      ∧ (∀ j, j < 1 + 1 → polled (ctx1 true) j { st [ctx1 true] [12, 14] with active := some (.finish 0 none) }
          ∉ [ChannelState.stopped, .faulting]) := by decide

/-- Channel 1 in flight with program P1, and this the next thing the outside world does. -/
def stRunning (e : HostEvent) (draws : List Word) : State :=
  { st [ctx1 true] draws with inbox := [e], issues := [issueA dataA] }

/-- POLL on the first context. -/
def txPoll : Transaction := { blankTransaction 0x04 with ctx := 0 }

theorem witness_StateWf : StateWf (stRunning (.command txPoll) [1]) where
  mem := rfl
  cursor b h := by simp [stRunning, st, State.reset] at h
  regBase := by decide
  programs := by
    intro e h
    simp only [stRunning, st, List.mem_singleton] at h
    subst h
    exact ⟨by decide, by decide, by decide⟩
  inflight := by
    intro c x h _
    match c, h with
    | 0, h =>
      simp only [stRunning, st, List.getElem?_cons_zero, Option.some.injEq] at h
      subst h
      exact ⟨rfl, by decide, _, List.mem_singleton.2 rfl, rfl, rfl, rfl, rfl⟩
    | c + 1, h => simp [stRunning, st] at h
  opened := by
    intro i hi _ c hc
    simp only [stRunning, List.mem_singleton] at hi
    subst hi
    obtain rfl : 0 = c := by simpa [issueA] using hc
    exact ⟨ctx1 true, rfl, rfl, rfl, rfl⟩
  active i h := by simp [stRunning, st, State.reset] at h

/-- `witness_StateWf` and this: for EveryStepKeepsTheInvariant, EveryAccessIsOneTheBlockMayMake and
NoStepChangesTheConfiguration. -/
theorem witness_EveryStepKeepsTheInvariant :
    shows (fun t => t.result) (step (stRunning (.command txPoll) [1])) = some (some (.okState .executing)) := by decide

/-- A flag that rises, one that FINISH clears and one that KILL clears. -/
theorem witness_InflightChangesOnlyAsStated :
    shows (fun t => t.ctxs[0]?.map ExecutionContext.inflight)
        (step (placeWire (encode (.start 0 recA)) (st [ctx1 false] [0, 0]))) = some (some true)
      ∧ shows (fun t => t.ctxs[0]?.map ExecutionContext.inflight)
        (step (placeWire (encode (.finish 0 none)) (st [ctx1 true] [0]))) = some (some false)
      ∧ shows (fun t => t.ctxs[0]?.map ExecutionContext.inflight)
        (step (placeWire (encode (.killCommand 0)) (st [ctx1 true] [9]))) = some (some false) := by decide

/-- Each command answers in these states. -/
theorem witness_CommandsReturnOnlyTheirOwnErrors :
    [Instr.build reqA 0 5, .buildZf 0 0 0 0, .start 0 recA, .poll 0, .finish 0 none, .killCommand 0].map
        (fun i => shows (fun t => t.result) (exec i (st [ctx1 false] [0, 0])))
      = [some (some (.bufferOverflow 33 5 0)), some (some (.bufferOverflow 19 0 0)), some (some .okUnit),
         some (some (.okState .stopped)), some (some .okUnit), some (some .okUnit)] := by decide +kernel
theorem witness_CommandsAlwaysAnswer :
    isMicro (.poll 0) = false ∧ (∀ c p, Instr.poll 0 ≠ .start c p) ∧ (∃ e ∈ (st [] []).programs, e.record = recA)
      ∧ (∀ e ∈ (st [] []).programs, e.record ≠ { recA with length := 32 }) := by
  refine ⟨rfl, ?_, by decide, by decide⟩
  intro c p h
  cases h

/-- The last byte of the running program, and the byte after it. -/
theorem witness_MutatingARunningProgramLiftsTheProtocol :
    (stRunning (.hostWrite 0x00300020 0) []).active = none ∧ (stRunning (.hostWrite 0x00300020 0) []).emitPort = []
      ∧ (∃ i ∈ (stRunning (.hostWrite 0x00300020 0) []).issues,
        i.isOpen = true ∧ inRange i.record.base i.record.length 0x00300020 = true
          ∧ inRange i.record.base i.record.length 0x00300021 = false)
      ∧ shows (fun t => t.wild) (step { stRunning (.hostWrite 0x00300020 0) [] with wild := true }) = some true := by
  decide
/-- A channel in flight, one whose last read was not STOPPED, one at rest; a GO and a KILL in DBGINST0. -/
theorem witness_AgentWritesDisturbOnlyTheirChannel :
    (1 < (st [] []).cfg.numChannels ∧ regChannel (.sar 1) = some 1
      ∧ (∃ i ∈ (stRunning (.agentWrite (.sar 1) 0) []).issues,
        i.isOpen = true ∧ i.chan = 1))
      ∧ (chanEnv (stRunning (.agentWrite (.sar 7) 0) []) 7).last ≠ some .stopped
      ∧ chanActive { st [] [] with chans := Vector.replicate 8 { freshEnv with last := some .stopped } } 7 = false
      ∧ inBank (.lc1 7) = true
      ∧ startsGo (st [] []) .dbgCmd 0 0x07A20000 7 = true ∧ startsKill (st [] []) .dbgCmd 0 0x00010701 7 = true
      ∧ startsGo (st [] []) .dbgInst0 0x07A20000 0x07A20000 7 = true
      ∧ startsGo { st [] [] with dbgEnv := ⟨0, 1, false⟩ } .dbgInst0 0x07A20000 0x07A20000 7 = false
      ∧ (regMay stOverInst0 .dbgInst0 = true ∧ regMay stOverInst0 .dbgInst1 = false
        ∧ inBank .dbgInst0 = true ∧ DmacReg.dbgInst0 ≠ .dbgStatus) := by decide
theorem witness_DmacResetAndIdlingKeepTheBlock :
    (stRunning .dmacReset []).active = none ∧ (stRunning .dmacReset []).emitPort = [] ∧ (st [] []).inbox = [] := by decide

end Sys2Proof.Machine.Tests
end

section
/-! PROOF. The step takes its instruction from one of three places (R10), and a stored byte or word reads back (R9, R62). -/

namespace Sys2Proof.Machine

/-! ### Where the fetch finds an instruction -/

/-- A command that has not ended goes on, whatever waits at the ports (R10, R93; log 8). -/
theorem fetch_active {s : State} {i : Instr} (ha : s.active = some i) :
    fetch s = .run i { s with active := none } := by
  simp [fetch, ha]

/-- Bytes that decode to an instruction are not none (log 33). -/
theorem ne_nil_of_decode_instr {bs : List Byte} {i : Instr} {n : Nat} (h : decode bs = .instr i n) : bs ≠ [] := by
  rintro rfl
  cases h

/-- With bytes at the emitter's port, the step looks there before it looks at the outside world (log 8). -/
theorem fetch_emitPort {s : State} (ha : s.active = none) (he : s.emitPort ≠ []) : fetch s = fetchEmit s := by
  obtain ⟨b, rest, hb⟩ := List.exists_cons_of_ne_nil he
  simp [fetch, ha, hb]

/-- A decoded microinstruction leaves the emitter's port with the bytes it is long (R88). -/
theorem fetchEmit_instr {s : State} {i : Instr} {n : Nat} (h : decode s.emitPort = .instr i n) :
    fetchEmit s = .run i { s with emitPort := s.emitPort.drop n } := by
  simp [fetchEmit, h]

/-- A transaction that decodes to a command leaves the inbox (R92). -/
theorem fetchEvent_command {s : State} {tx : Transaction} {rest : List HostEvent} {i : Instr}
    (hi : s.inbox = .command tx :: rest) (hd : decodeCommand tx = some i) :
    fetchEvent s = .run i { s with inbox := rest } := by
  simp [fetchEvent, hi, hd]

/-- Settles O7: the fetch finds the instruction in each of the three places, and the step runs what it finds. -/
theorem stepRunsTheDecodedInstruction : Obligations.StepRunsTheDecodedInstruction := by
  refine ⟨fun s i ha => step_run (fetch_active ha), fun s i n ha hd => step_run ?_,
    fun s tx rest i ha he hi hd => step_run ?_⟩
  · rw [fetch_emitPort ha (ne_nil_of_decode_instr hd), fetchEmit_instr hd]
  · rw [fetch_event ha he, fetchEvent_command hi hd]

/-! ### What a store leaves -/

/-- With no transfer remembered the DMAC may write no byte. -/
theorem dmaMay_of_noIssues {s : State} (h : s.issues = []) (a : Word) : dmaMay s a = false := by
  simp [dmaMay, h]

/-- With no transfer remembered a store changes the byte stored and no other (R9). -/
theorem byteAt_memWrite8_of_noIssues {s : State} (h : s.issues = []) (a b : Word) (v : Byte) :
    byteAt (memWrite8 a v s) b = if b = a then some v else byteAt s b := by
  rw [byteAt_memWrite8, dmaMay_of_noIssues h, h]
  simp

/-- `MemWrite8` is a run of one byte. -/
theorem memWrite8_eq_memWriteBytes (a : Word) (v : Byte) (s : State) : memWrite8 a v s = memWriteBytes a [v] s := rfl

/-- `MemWrite` of four bytes is a run of the word's bytes, least significant first (R62). -/
theorem memWrite_four (a v : Word) (s : State) : memWrite a 4 v s = memWriteBytes a (wordBytes v) s := rfl

/-- A run of bytes no longer than the address space reads back and disturbs what it reaches into (R9, R365, U1). -/
theorem memWriteBytes_stores (a : Word) (bs : List Byte) (s : State) (h : bs.length ≤ 2 ^ 32) :
    storedBytes s (memWriteBytes a bs s) a bs ∧ storeDisturbs s (memWriteBytes a bs s) a bs.length :=
  ⟨storedBytes_memWriteBytes a bs s h, storeDisturbs_memWriteBytes a bs s⟩

/-- Settles O16: both forms of a store are runs of bytes, of length 1 and of length 4. -/
theorem storedBytesReadBack : Obligations.StoredBytesReadBack := by
  refine ⟨fun s a b v h => byteAt_memWrite8_of_noIssues h a b v, fun s a v => ?_, fun s a v => ?_⟩
  · rw [memWrite8_eq_memWriteBytes]
    exact memWriteBytes_stores a [v] s (by simp)
  · rw [memWrite_four]
    exact memWriteBytes_stores a (wordBytes v) s (by simp [wordBytes])

end Sys2Proof.Machine
end

section
/-! PROOF. The planner accepts the legal requests (R21, R171), and the fields of its control values (R42, R174 to R178). -/

namespace Sys2Proof.Machine

/-! ### The checks of a request -/

/-- A check passes over to the next one exactly where it does not fail. -/
theorem check_eq_none_iff {α : Type} {p : Prop} [Decidable p] (x : α) (o : Option α) :
    (if p then some x else o) = none ↔ ¬p ∧ o = none := by
  by_cases h : p <;> simp [h]

theorem bufferFits_iff (bufBase : Word) (cap : Nat) : bufferFits bufBase cap = true ↔ bufBase.toNat + cap ≤ 2 ^ 32 :=
  decide_eq_true_iff

/-- No check of R171 fails exactly where every field is legal (R21). -/
theorem validate_eq_none_iff (cfg : Config.Params) (req : TransferRequest) (bufBase : Word) (cap : Nat) :
    validate cfg req bufBase cap = none ↔
      (req.bsz ≤ cfg.maxExp ∧ req.ssz ≤ req.bsz ∧ 1 ≤ req.blen ∧ req.blen ≤ 16
        ∧ (req.kind ≠ .mem2mem → req.periph ≤ 31)
        ∧ 2 ^ req.bsz ∣ req.src.toNat ∧ 2 ^ req.bsz ∣ req.dst.toNat
        ∧ req.size ≤ 2 ^ 32 - 1 ∧ bufBase.toNat + cap ≤ 2 ^ 32) := by
  simp only [validate, check_eq_none_iff, Config.burstLenMax, Config.periphMax, Config.sizeMax, not_lt, not_or,
    not_and, ne_eq, not_not, Bool.not_eq_true', Bool.not_eq_false, bufferFits_iff, and_true, Nat.dvd_iff_mod_eq_zero]
  constructor
  · rintro ⟨hb, -, hs, ⟨h1, h2⟩, hp, hsrc, hdst, hsize, hbuf⟩
    exact ⟨hb, hs, h1, h2, hp, hsrc, hdst, hsize, hbuf⟩
  · rintro ⟨hb, hs, h1, h2, hp, hsrc, hdst, hsize, hbuf⟩
    exact ⟨hb, hs.trans hb, hs, ⟨h1, h2⟩, hp, hsrc, hdst, hsize, hbuf⟩

/-- The planner answers the plan of the request where every check passes, and no other plan. -/
theorem plan_ok_iff (cfg : Config.Params) (req : TransferRequest) (bufBase : Word) (cap : Nat) (P : Plan) :
    plan cfg req bufBase cap = .ok P ↔ validate cfg req bufBase cap = none ∧ P = planRequest req := by
  unfold plan
  cases validate cfg req bufBase cap <;> simp [eq_comm]

/-- Settles O18: the planner answers a plan where no check fails, and there only. -/
theorem planAcceptsExactlyLegalRequests : Obligations.PlanAcceptsExactlyLegalRequests := by
  intro cfg req bufBase cap
  rw [← validate_eq_none_iff]
  simp [plan_ok_iff]

/-! ### The fields of a control value -/

/-- A number of fewer than `k` bits has no bit from `k` on. -/
theorem testBit_high {x k i : Nat} (h : x < 2 ^ k) (hi : k ≤ i) : x.testBit i = false :=
  Nat.testBit_lt_two_pow (h.trans_le (Nat.pow_le_pow_right (by decide) hi))

/-- Which bit of a control value comes from which number: each number stands at its field's place (R42, R177). -/
theorem ccrValue_getLsbD (e len si di sc dc prot j : Nat) (hj : j < 32) :
    (ccrValue e len si di sc dc prot).getLsbD j =
      (si.testBit j || (!decide (j < 1) && e.testBit (j - 1)) || (!decide (j < 4) && (len - 1).testBit (j - 4))
        || (!decide (j < 8) && prot.testBit (j - 8)) || (!decide (j < 11) && sc.testBit (j - 11))
        || (!decide (j < 14) && di.testBit (j - 14)) || (!decide (j < 15) && e.testBit (j - 15))
        || (!decide (j < 18) && (len - 1).testBit (j - 18)) || (!decide (j < 22) && prot.testBit (j - 22))
        || (!decide (j < 25) && dc.testBit (j - 25))) := by
  have h : ∀ k, j - k < 32 := fun k => by omega
  simp only [ccrValue, BitVec.getLsbD_or, BitVec.getLsbD_shiftLeft, BitVec.getLsbD_ofNat, hj, h, decide_true,
    Bool.true_and, Nat.zero_testBit, Bool.and_false, Bool.or_false]

/-- A field of a word is the number whose bits stand there. -/
theorem extractLsb'_eq_ofNat {v : Word} {lo n x : Nat} (h : ∀ i < n, v.getLsbD (lo + i) = x.testBit i) :
    v.extractLsb' lo n = BitVec.ofNat n x :=
  BitVec.eq_of_getLsbD_eq fun i hi => by rw [BitVec.getLsbD_extractLsb', BitVec.getLsbD_ofNat, h i hi]

/-- Every field of a control value holds the number put there, where each number fits its field (R42, R177). -/
theorem ccrValue_fields {e len si di sc dc prot : Nat} (he : e < 2 ^ 3) (hl : len - 1 < 2 ^ 4) (hsi : si < 2 ^ 1)
    (hdi : di < 2 ^ 1) (hsc : sc < 2 ^ 3) (hdc : dc < 2 ^ 3) (hp : prot < 2 ^ 3) :
    let v := ccrValue e len si di sc dc prot
    ccrSI v = BitVec.ofNat 1 si ∧ ccrDI v = BitVec.ofNat 1 di
      ∧ ccrSB v = BitVec.ofNat 3 e ∧ ccrDB v = BitVec.ofNat 3 e
      ∧ ccrSL v = BitVec.ofNat 4 (len - 1) ∧ ccrDL v = BitVec.ofNat 4 (len - 1)
      ∧ ccrSP v = BitVec.ofNat 3 prot ∧ ccrDP v = BitVec.ofNat 3 prot
      ∧ ccrSC v = BitVec.ofNat 3 sc ∧ ccrDC v = BitVec.ofNat 3 dc ∧ ccrES v = 0 := by
  intro v
  have bit : ∀ j < 32, v.getLsbD j = _ := ccrValue_getLsbD e len si di sc dc prot
  refine ⟨?_, ?_, ?_, ?_, ?_, ?_, ?_, ?_, ?_, ?_, ?_⟩ <;>
  · refine extractLsb'_eq_ofNat fun i hi => ?_
    rw [bit _ (by omega)]
    interval_cases i <;>
      simp only [Nat.reduceAdd, Nat.reduceSub, Nat.reduceLT, Nat.reduceLeDiff, decide_true, decide_false, Bool.not_true,
        Bool.not_false, Bool.true_and, Bool.false_and, Bool.or_false, Bool.false_or, Nat.zero_testBit, testBit_high he,
        testBit_high hl, testBit_high hsi, testBit_high hdi, testBit_high hsc, testBit_high hdc, testBit_high hp]

theorem incr_lt (k : Kind) : srcIncr k < 2 ^ 1 ∧ dstIncr k < 2 ^ 1 := by
  cases k <;> decide

theorem cache_lt (c : Bool) (k : Kind) : srcCache c k < 2 ^ 3 ∧ dstCache c k < 2 ^ 3 := by
  cases c <;> cases k <;> decide

theorem protField_lt (n : Bool) : protField n < 2 ^ 3 := by
  cases n <;> decide

/-- The fields of a request's two control values, by its kind, cache flag and security (R174 to R178). -/
theorem ccrValue_request {req : TransferRequest} {e l : Nat} (he : e ≤ 4) (h1 : 1 ≤ l) (h2 : l ≤ 16) :
    let v := ccrValue e l (srcIncr req.kind) (dstIncr req.kind) (srcCache req.cache req.kind)
      (dstCache req.cache req.kind) (protField (req.security == .nonsecure))
    ccrSI v = (if req.kind = .periph2mem then 0 else 1)
      ∧ ccrDI v = (if req.kind = .mem2periph then 0 else 1)
      ∧ (ccrSB v).toNat = e ∧ (ccrDB v).toNat = e
      ∧ (ccrSL v).toNat + 1 = l ∧ (ccrDL v).toNat + 1 = l
      ∧ ccrSP v = (if req.security = .nonsecure then 0b010 else 0b000)
      ∧ ccrDP v = (if req.security = .nonsecure then 0b010 else 0b000)
      ∧ ccrSC v = (if req.cache = true ∧ req.kind ≠ .periph2mem then 7 else 1)
      ∧ ccrDC v = (if req.cache = true ∧ req.kind ≠ .mem2periph then 7 else 1)
      ∧ ccrES v = 0 := by
  intro v
  obtain ⟨hsi, hdi⟩ := incr_lt req.kind
  obtain ⟨hsc, hdc⟩ := cache_lt req.cache req.kind
  obtain ⟨si, di, sb, db, sl, dl, sp, dp, sc, dc, es⟩ := ccrValue_fields (e := e) (len := l) (by omega) (by omega)
    hsi hdi hsc hdc (protField_lt (req.security == .nonsecure))
  have burst : (BitVec.ofNat 3 e).toNat = e := Nat.mod_eq_of_lt (by omega)
  have len : (BitVec.ofNat 4 (l - 1)).toNat + 1 = l := by
    rw [BitVec.toNat_ofNat, Nat.mod_eq_of_lt (by omega)]
    omega
  refine ⟨si.trans ?_, di.trans ?_, sb ▸ burst, db ▸ burst, sl ▸ len, dl ▸ len, sp.trans ?_, dp.trans ?_, sc.trans ?_,
    dc.trans ?_, es⟩
  · cases req.kind <;> rfl
  · cases req.kind <;> rfl
  · cases req.security <;> rfl
  · cases req.security <;> rfl
  · cases req.cache <;> cases req.kind <;> rfl
  · cases req.cache <;> cases req.kind <;> rfl

/-- Settles O22: the two values differ in burst size and length only, and both stay in their fields' range. -/
theorem plannedControlValueFields : Obligations.PlannedControlValueFields := by
  intro cfg req bufBase cap P hP v e l hv
  obtain ⟨hvalid, rfl⟩ := (plan_ok_iff cfg req bufBase cap P).1 hP
  obtain ⟨hb, hs, h1, h2, -⟩ := (validate_eq_none_iff cfg req bufBase cap).1 hvalid
  have hmax : cfg.maxExp ≤ 4 := Nat.le_of_lt_succ cfg.maxBurstExp.isLt
  rcases hv with ⟨rfl, rfl, rfl⟩ | ⟨rfl, rfl, rfl⟩
  · exact ccrValue_request (hb.trans hmax) h1 h2
  · exact ccrValue_request ((hs.trans hb).trans hmax) (by decide) (by decide)

end Sys2Proof.Machine
end

section
/-! PROOF. A microinstruction with room emits its encoding, LP and LPEND with their frame (R110, R140, R141); and the loops and
programs the builder lays out (R211 to R216, R223). -/

namespace Sys2Proof.Machine

/-! ### A microinstruction with room for it -/

/-- A build that has not failed stays after a microinstruction. -/
theorem settleBuild_of_building {x : BuildState} (u : State) (hx : x.status = .building) :
    settleBuild { u with build := some x } = { u with build := some x } := by
  simp [settleBuild, hx]

/-- No instruction is longer than MOV and GO (R80). -/
theorem size_le_longest (i : Instr) : i.size ≤ longestInstr := by
  cases i <;> simp [Instr.size, longestInstr]

/-- A well-formed microinstruction emits its encoding where there is room for it, and then does to the build registers what
the builder does after it (R110, R210, R212). -/
theorem emitsBytes_enc {i : Instr} {post : BuildState → BuildState} (hm : isMicro i = true) (hw : i.wf = true)
    (hstatus : ∀ x, (post x).status = x.status)
    (hpost : ∀ (x : BuildState) (u : State), x.status = .building →
      afterEmit i { u with build := some x } = { u with build := some (post x) }) :
    EmitsBytes i (enc i) post := by
  intro s b hb hst hfit
  have hrun : buildRunning s = true := (buildRunning_iff s).2 ⟨b, hb, hst⟩
  have hlen : (enc i).length ≤ 2 ^ 32 := by
    rw [enc_length]
    exact (size_le_longest i).trans (by decide)
  let u : State := memWriteBytes (b.bufBase + BitVec.ofNat 32 b.off) (enc i) s
  let x : BuildState := { b with off := b.off + (enc i).length }
  have hx : (post x).status = .building := (hstatus x).trans hst
  refine ⟨{ u with build := some (post x) }, ?_, rfl, storedBytes_congr rfl (storedBytes_memWriteBytes _ _ s hlen),
    storeDisturbs_memWriteBytes _ _ s, memWriteBytes_bus _ _ s, ?_⟩
  · calc exec i s
        = .next (settleBuild (afterEmit i (cemit i s))) := by rw [exec_micro hm, emitMeaning_running hw hrun]
      _ = .next (settleBuild (afterEmit i { u with build := some x })) := by
        rw [cemit_fits hb hst (by rwa [← enc_length]), ← enc_length]
      _ = .next (settleBuild { u with build := some (post x) }) := by rw [hpost x u hst]
      _ = .next { u with build := some (post x) } := by rw [settleBuild_of_building u hx]
  · exact congrArg (fun t : State => { t with build := s.build })
      (memOnly_memWriteBytes (b.bufBase + BitVec.ofNat 32 b.off) (enc i) s)

theorem setFrame_status (c : Counter) (f : Option Nat) (b : BuildState) : (setFrame c f b).status = b.status := by
  cases c <;> rfl

theorem markFrame_building (c : Counter) (x : BuildState) (u : State) (hx : x.status = .building) :
    markFrame c { u with build := some x } = { u with build := some (setFrame c (some x.off) x) } := by
  simp [markFrame, hx]

theorem clearFrame_building (c : Counter) (x : BuildState) (u : State) (hx : x.status = .building) :
    clearFrame c { u with build := some x } = { u with build := some (setFrame c none x) } := by
  simp [clearFrame, hx]

/-- LP of either counter emits its bytes and opens the counter's frame behind them (R140, R212). -/
theorem emitsBytes_lp (c : Counter) {n : Nat} (h1 : 1 ≤ n) (h2 : n ≤ 256) :
    EmitsBytes (lpInstr c n) (encLp c n) (fun b => setFrame c (some b.off) b) := by
  have hw : countOk n = true := (countOk_iff n).2 ⟨h1, h2⟩
  have hs := fun x : BuildState => setFrame_status c (some x.off) x
  cases c with
  | lc0 => exact emitsBytes_enc (i := .lpLc0 n) rfl hw hs (markFrame_building .lc0)
  | lc1 => exact emitsBytes_enc (i := .lpLc1 n) rfl hw hs (markFrame_building .lc1)

/-- LPEND of either counter emits its bytes and clears the counter's frame (R141). -/
theorem emitsBytes_lpend (c : Counter) {d : Nat} (h : d ≤ 255) :
    EmitsBytes (lpendInstr c d) (encLpend c d) (setFrame c none) := by
  have hw : bjumpOk d = true := (bjumpOk_iff d).2 h
  have hs := setFrame_status c none
  cases c with
  | lc0 => exact emitsBytes_enc (i := .lpendLc0 d) rfl hw hs (clearFrame_building .lc0)
  | lc1 => exact emitsBytes_enc (i := .lpendLc1 d) rfl hw hs (clearFrame_building .lc1)

/-- Settles O12: one LP for each counter. -/
theorem loopStartEmitsAndMarksItsFrame : Obligations.LoopStartEmitsAndMarksItsFrame := fun _ h1 h2 =>
  ⟨emitsBytes_lp .lc0 h1 h2, emitsBytes_lp .lc1 h1 h2⟩

/-- Settles O13: one LPEND for each counter. -/
theorem loopEndEmitsAndClearsItsFrame : Obligations.LoopEndEmitsAndClearsItsFrame := fun _ h =>
  ⟨emitsBytes_lpend .lc0 h, emitsBytes_lpend .lc1 h⟩


/-! ### Lists of operations that run on -/

/-- `ops` lay out `is`, and the registers they leave go on from there: what composes. -/
def LaysOut (ops : List BuildOp) (is : List Instr) (b b' : BuildState) : Prop := Lays ops is b b' ∧ Follows is b b'

theorem LaysOut.nil (b : BuildState) : LaysOut [] [] b b := ⟨Lays.nil b, Follows.refl b⟩

theorem LaysOut.append {ops ops' : List BuildOp} {is is' : List Instr} {b b' b'' : BuildState}
    (h : LaysOut ops is b b') (h' : LaysOut ops' is' b' b'') : LaysOut (ops ++ ops') (is ++ is') b b'' :=
  ⟨h.1.append h.2 h'.1, h.2.append h'.2⟩

theorem LaysOut.put (i : Instr) (b : BuildState) : LaysOut [.put i] [i] b (advance b i.size) :=
  ⟨Lays.put i b, Follows.put i b⟩

theorem LaysOut.puts (is : List Instr) (b : BuildState) :
    LaysOut (is.map .put) is b (advance b (programBytes is).length) := Lays.puts is b

theorem LaysOut.mark (c : Counter) (b : BuildState) : LaysOut [.mark c] [] b (setFrame c (some b.off) b) :=
  ⟨Lays.mark c b, Follows.mark c _ b⟩

theorem LaysOut.close {c : Counter} {b : BuildState} {f : Nat} (h : getFrame c b = some f) :
    LaysOut [.close c] [lpendInstr c (b.off - f)] b (setFrame c none (advance b 2)) :=
  ⟨Lays.close h, Follows.close c _ b⟩

theorem LaysOut.moved (n : Nat) (b : BuildState) : LaysOut [.moved n] [] b { b with rem := b.rem - n } :=
  ⟨Lays.moved n b, Follows.moved n b⟩

/-! ### Loops -/

theorem getFrame_setFrame (c : Counter) (f : Option Nat) (b : BuildState) : getFrame c (setFrame c f b) = f := by
  cases c <;> rfl

/-- The registers behind the LP of a loop: the cursor past it, and the frame there (R140, R212). -/
def loopOpened (c : Counter) (b : BuildState) : BuildState := setFrame c (some (b.off + 2)) (advance b 2)

/-- A hardware loop around a body that leaves its frame alone: LP before it, and behind it the LPEND that jumps back over
the body (R212, R215, R216). -/
theorem LaysOut.loop {c : Counter} {ops : List BuildOp} {is : List Instr} {b b' : BuildState} (n : Nat)
    (h : LaysOut ops is (loopOpened c b) b') (hf : getFrame c b' = getFrame c (loopOpened c b)) :
    LaysOut ([.put (lpInstr c n), .mark c] ++ ops ++ [.close c])
      ([lpInstr c n] ++ is ++ [lpendInstr c (programBytes is).length]) b (setFrame c none (advance b' 2)) := by
  have hopen : LaysOut [.put (lpInstr c n), .mark c] [lpInstr c n] b (loopOpened c b) := by
    have hp := LaysOut.put (lpInstr c n) b
    rw [lpInstr_size] at hp
    exact hp.append (LaysOut.mark c (advance b 2))
  have hclose := LaysOut.close (b := b') (hf.trans (getFrame_setFrame c _ _))
  have hoff : b'.off - (b.off + 2) = (programBytes is).length := by
    have : (loopOpened c b).off = b.off + 2 := by cases c <;> rfl
    rw [h.2.off, this]
    omega
  rw [hoff] at hclose
  exact (hopen.append h).append hclose

/-- The body of a loop is as long as R213, R214 and R224 say. -/
theorem programBytes_body (k : BodyKind) (g : BurstCond) : (programBytes (bodyInstrs k g)).length = bodySize k := by
  cases k <;> cases g <;> rfl

/-- The inner loop of a plan: its registers are as before, but the cursor, and its frame is none. -/
theorem laysOut_innerLoop (k : BodyKind) (g : BurstCond) (n : Nat) (b : BuildState) :
    LaysOut ([.put (lpInstr .lc0 n), .mark .lc0] ++ (bodyInstrs k g).map .put ++ [.close .lc0])
      ([lpInstr .lc0 n] ++ bodyInstrs k g ++ [lpendInstr .lc0 (bodySize k)]) b
      { b with off := b.off + (4 + bodySize k), frame0 := none } := by
  have h := LaysOut.loop n (LaysOut.puts (bodyInstrs k g) (loopOpened .lc0 b)) rfl
  rw [programBytes_body] at h
  have e : setFrame .lc0 none (advance (advance (loopOpened .lc0 b) (bodySize k)) 2)
      = { b with off := b.off + (4 + bodySize k), frame0 := none } := by
    simp only [setFrame, advance, loopOpened, BuildState.mk.injEq, true_and, and_true]
    omega
  rw [← e]
  exact h

theorem programBytes_innerLoop (k : BodyKind) (g : BurstCond) (n : Nat) :
    (programBytes ([lpInstr .lc0 n] ++ bodyInstrs k g ++ [lpendInstr .lc0 (bodySize k)])).length = bodySize k + 4 := by
  simp only [programBytes_append, List.length_append, programBytes_singleton, enc_length, lpInstr_size,
    lpendInstr_size, programBytes_body]
  omega

/-- A plan's loops lay out the listing of R212 to R216, and leave both frames none where they were (R26). -/
theorem laysOut_loop (k : BodyKind) (g : BurstCond) (unit : Nat) (p : LoopPlan) {b : BuildState}
    (h0 : b.frame0 = none) (h1 : b.frame1 = none) :
    LaysOut (loopOps k g unit p) (expectedLoop k g p) b
      { b with off := b.off + loopLength k p, rem := b.rem - p.runs * unit } := by
  obtain ⟨bufBase, cap, off, frame0, frame1, rem, status, needed⟩ := b
  obtain rfl : frame0 = none := h0
  obtain rfl : frame1 = none := h1
  let b : BuildState := ⟨bufBase, cap, off, none, none, rem, status, needed⟩
  obtain ⟨n, outer⟩ := p
  cases outer with
  | none =>
    have h := (laysOut_innerLoop k g n b).append (LaysOut.moved (LoopPlan.runs ⟨n, none⟩ * unit) _)
    simpa [loopOps, expectedLoop, lpInstr, lpendInstr, loopLength] using h
  | some m =>
    have h := (LaysOut.loop m (laysOut_innerLoop k g n (loopOpened .lc1 b)) rfl).append
      (LaysOut.moved (LoopPlan.runs ⟨n, some m⟩ * unit) _)
    rw [programBytes_innerLoop] at h
    have e : setFrame .lc1 none (advance
          { loopOpened .lc1 b with off := (loopOpened .lc1 b).off + (4 + bodySize k), frame0 := none } 2)
        = { b with off := b.off + (8 + bodySize k) } := by
      simp only [b, setFrame, advance, loopOpened, BuildState.mk.injEq, true_and, and_true]
      omega
    rw [e] at h
    simpa [loopOps, expectedLoop, lpInstr, lpendInstr, loopLength] using h

theorem programBytes_loop (k : BodyKind) (g : BurstCond) (p : LoopPlan) :
    (programBytes (expectedLoop k g p)).length = loopLength k p := by
  have h := (laysOut_loop k g 0 p (b := openRegs 0 0 0 0) rfl rfl).2.off
  simpa [openRegs] using h.symm

/-- Settles O29: with room for its bytes a loop leaves exactly the registers its layout says. -/
theorem loopLeavesNoFrameOpen : Obligations.LoopLeavesNoFrameOpen := by
  intro k g unit p s b hb hst h0 h1 hfit
  have h := ((laysOut_loop k g unit p h0 h1).1 hst s hb).1 (by rwa [programBytes_loop])
  rw [h]

/-! ### Whole programs -/

/-- The loops of a phase, one after another. -/
theorem laysOut_loops (k : BodyKind) (g : BurstCond) (unit : Nat) (ps : List LoopPlan) {b : BuildState}
    (h0 : b.frame0 = none) (h1 : b.frame1 = none) :
    ∃ b', LaysOut (ps.flatMap (loopOps k g unit)) (ps.flatMap (expectedLoop k g)) b b'
      ∧ b'.frame0 = none ∧ b'.frame1 = none := by
  induction ps generalizing b with
  | nil => exact ⟨b, LaysOut.nil b, h0, h1⟩
  | cons p ps ih =>
    have hp := laysOut_loop k g unit p h0 h1
    obtain ⟨b', h, hf⟩ := ih (b := { b with off := b.off + loopLength k p, rem := b.rem - p.runs * unit }) h0 h1
    exact ⟨b', hp.append h, hf⟩

/-- The part of a program after its header (R211, R223). -/
theorem laysOut_phases (k : BodyKind) (P : Plan) {b : BuildState} (h0 : b.frame0 = none) (h1 : b.frame1 = none) :
    ∃ b', LaysOut (phaseOps k P) (expectedPhases k P) b b' := by
  obtain ⟨b1, hburst, h10, h11⟩ := laysOut_loops k .burst P.burstUnit P.burstPlans
    (b := advance b (Instr.movCcr P.ccrBurst).size) h0 h1
  obtain ⟨b2, htail, -, -⟩ := laysOut_loops k .single P.singleUnit P.tailPlans
    (b := advance b1 (Instr.movCcr P.ccrTail).size) h10 h11
  exact ⟨_, ((((LaysOut.put _ b).append hburst).append (LaysOut.put _ b1)).append htail).append (LaysOut.put .endp b2)⟩

/-- The program of a request (R211). -/
theorem laysOut_request (req : TransferRequest) {b : BuildState} (h0 : b.frame0 = none) (h1 : b.frame1 = none) :
    ∃ b', LaysOut (buildOps req (planRequest req)) (expectedProgram req) b b' := by
  let header : List Instr :=
    [.movSar req.src, .movDar req.dst] ++ (if req.kind = .mem2mem then [] else [.flushp req.periph])
  have he : requestHeader req = header.map .put := by
    unfold requestHeader header
    split_ifs <;> rfl
  obtain ⟨b', h⟩ := laysOut_phases (requestBody req) (planRequest req)
    (b := advance b (programBytes header).length) h0 h1
  refine ⟨b', ?_⟩
  rw [buildOps, he]
  exact (LaysOut.puts header b).append h

/-- The program of a zero fill (R223). -/
theorem laysOut_zeroFill (cfg : Config.Params) (dst : Word) (size : Nat) {b : BuildState} (h0 : b.frame0 = none)
    (h1 : b.frame1 = none) :
    ∃ b', LaysOut (buildZfOps dst (planZfGeometry cfg size)) (expectedZeroFill cfg dst size) b b' := by
  obtain ⟨b', h⟩ := laysOut_phases .zeroFill (planZfGeometry cfg size)
    (b := advance b (Instr.movDar dst).size) h0 h1
  exact ⟨b', (LaysOut.put (.movDar dst) b).append h⟩

end Sys2Proof.Machine
end

section
/-! PROOF. What the step finds to do, said once for every state (R10, R92; log 8); and what reset, a block reset and the
creation of a context leave (R27, R44, R360). -/

namespace Sys2Proof.Machine

/-! ### What the step finds -/

/-- What an event of the outside world leaves where no instruction runs because of it: of the commands, those with a
reserved code (R92). -/
def afterEvent (e : HostEvent) (s : State) : State :=
  match e with
  | .create chan isManager security => createContext chan isManager security s
  | .command _ => deliver .refused s
  | .hostWrite a v => hostWrites a v s
  | .agentWrite r v => agentWrites r v s
  | .dmacReset => dmacResets s
  | .blockReset => blockResets s

/-- An event that is no command the block knows is over in its step. -/
theorem fetchEvent_done {s : State} {e : HostEvent} {rest : List HostEvent} (hi : s.inbox = e :: rest)
    (hc : ∀ tx, e = .command tx → decodeCommand tx = none) :
    fetchEvent s = .done (afterEvent e { s with inbox := rest }) := by
  cases e with
  | command tx => simp [fetchEvent, hi, hc tx rfl, afterEvent]
  | _ => simp [fetchEvent, hi, afterEvent]

/-- The next event runs a command, or is over at once; with no event nothing happens. -/
theorem fetchEvent_cases (s : State) :
    fetchEvent s = .done s
    ∨ ∃ e rest, s.inbox = e :: rest
        ∧ ((∃ i, fetchEvent s = .run i { s with inbox := rest })
          ∨ fetchEvent s = .done (afterEvent e { s with inbox := rest })) := by
  cases hi : s.inbox with
  | nil => exact Or.inl (by simp [fetchEvent, hi])
  | cons e rest =>
    refine Or.inr ⟨e, rest, rfl, ?_⟩
    by_cases hc : ∃ tx i, e = .command tx ∧ decodeCommand tx = some i
    · obtain ⟨tx, i, rfl, hd⟩ := hc
      exact Or.inl ⟨i, fetchEvent_command hi hd⟩
    · refine Or.inr (fetchEvent_done hi fun tx htx => ?_)
      exact Option.eq_none_iff_forall_not_mem.2 fun i hd => hc ⟨tx, i, htx, hd⟩

/-- With bytes at the port the step runs what they decode to, or stops. -/
theorem fetchEmit_cases (s : State) :
    (∃ i n, fetchEmit s = .run i { s with emitPort := s.emitPort.drop n }) ∨ ∃ f, fetchEmit s = .bad f := by
  unfold fetchEmit
  cases decode s.emitPort with
  | instr i n => exact Or.inl ⟨i, n, rfl⟩
  | unknown b0 => exact Or.inr ⟨_, rfl⟩
  | unknown2 b0 b1 => exact Or.inr ⟨_, rfl⟩
  | truncated => exact Or.inr ⟨_, rfl⟩

/-- The three places a step looks at. -/
theorem fetch_places (s : State) :
    (∃ i, fetch s = .run i { s with active := none })
    ∨ (s.active = none ∧ fetch s = fetchEmit s) ∨ (s.active = none ∧ fetch s = fetchEvent s) := by
  cases ha : s.active with
  | some i => exact Or.inl ⟨i, fetch_active ha⟩
  | none =>
    by_cases he : s.emitPort = []
    · exact Or.inr (Or.inr ⟨rfl, fetch_event ha he⟩)
    · exact Or.inr (Or.inl ⟨rfl, fetch_emitPort ha he⟩)

/-- A fetched instruction is taken from where it stood; nothing else has changed when it runs. -/
theorem fetch_run {s u : State} {i : Instr} (h : fetch s = .run i u) :
    u.active = none ∧ { u with active := s.active, emitPort := s.emitPort, inbox := s.inbox } = s := by
  rcases fetch_places s with ⟨j, hf⟩ | ⟨ha, hf⟩ | ⟨ha, hf⟩ <;> rw [hf] at h
  · cases h
    exact ⟨rfl, rfl⟩
  · rcases fetchEmit_cases s with ⟨j, n, he⟩ | ⟨f, he⟩ <;> rw [he] at h
    · cases h
      exact ⟨ha, rfl⟩
    · cases h
  · rcases fetchEvent_cases s with he | ⟨e, rest, -, ⟨j, he⟩ | he⟩ <;> rw [he] at h
    · cases h
    · cases h
      exact ⟨ha, rfl⟩
    · cases h

/-- A step without an instruction does nothing, or what the next event says. -/
theorem fetch_done {s t : State} (h : fetch s = .done t) :
    t = s ∨ ∃ e rest, s.inbox = e :: rest ∧ t = afterEvent e { s with inbox := rest } := by
  rcases fetch_places s with ⟨j, hf⟩ | ⟨-, hf⟩ | ⟨-, hf⟩ <;> rw [hf] at h
  · cases h
  · rcases fetchEmit_cases s with ⟨j, n, he⟩ | ⟨f, he⟩ <;> rw [he] at h <;> cases h
  · rcases fetchEvent_cases s with he | ⟨e, rest, hi, ⟨j, he⟩ | he⟩ <;> rw [he] at h
    · cases h
      exact Or.inl rfl
    · cases h
    · cases h
      exact Or.inr ⟨e, rest, hi, rfl⟩

/-! ### Reset and creation -/

/-- A step whose next event is no command does what the event says. -/
theorem step_event {s : State} {e : HostEvent} {rest : List HostEvent} (ha : s.active = none) (he : s.emitPort = [])
    (hi : s.inbox = e :: rest) (hc : ∀ tx, e = .command tx → decodeCommand tx = none) :
    step s = .next (afterEvent e { s with inbox := rest }) :=
  step_done ((fetch_event ha he).trans (fetchEvent_done hi hc))

/-- Settles O9: both events are over in their step, and the context made is `newContext`. -/
theorem resetAndContextCreation : Obligations.ResetAndContextCreation := by
  refine ⟨rfl, rfl, rfl, fun s rest ha he hi => ?_, fun s rest chan m sec ha he hi => ?_⟩
  · refine ⟨_, step_event ha he hi nofun, rfl, rfl, rfl, rfl, ?_⟩
    cases s
    cases ha
    rfl
  · refine ⟨newContext s.cfg chan m sec, step_event ha he hi nofun, rfl, rfl, rfl, rfl, rfl, ?_⟩
    cases sec <;> rfl

end Sys2Proof.Machine
end

section
/-! PROOF. The block's own books: the configuration (R20), the contexts (R27), the records (R22), the build (R23) and
the transfers that are open (R365). Most operations keep them; a START opens transfers of one context, a FINISH or KILL closes them. -/

namespace Sys2Proof.Machine

/-! ### Open transfers -/

/-- An open transfer of this context, on this channel, with this program base. -/
def OpenAs (o : Option Nat) (n : Nat) (base : Word) (i : Issue) : Prop :=
  i.isOpen = true ∧ i.ctx = o ∧ i.chan = n ∧ i.record.base = base

/-- Such a transfer is remembered. -/
def HasOpen (s : State) (o : Option Nat) (n : Nat) (base : Word) : Prop := ∃ i ∈ s.issues, OpenAs o n base i

/-- Open transfers depend on the transfers alone. -/
theorem hasOpen_congr {s t : State} (h : t.issues = s.issues) (o : Option Nat) (n : Nat) (base : Word) :
    HasOpen t o n base ↔ HasOpen s o n base := by
  unfold HasOpen
  rw [h]

/-- Marking transfers as overlapping or disturbed opens and closes none. -/
theorem openAs_markHazards (s : State) (i : Issue) (o : Option Nat) (n : Nat) (base : Word) :
    OpenAs o n base (markHazards s i) ↔ OpenAs o n base i := Iff.rfl

theorem hasOpen_markDisturbed {s t : State} {p : Issue → Bool} (h : t.issues = s.issues.map (markDisturbed p))
    (o : Option Nat) (n : Nat) (base : Word) : HasOpen t o n base ↔ HasOpen s o n base := by
  unfold HasOpen
  rw [h]
  simp only [List.mem_map, exists_exists_and_eq_and]
  exact Iff.rfl

/-! ### Operations that keep the books -/

/-- The books but for the contexts and the transfers are the same, and memory stays in canonical form. -/
structure BlockKept (s t : State) : Prop where
  mem : Memory.wf s.mem = true → Memory.wf t.mem = true
  cfg : t.cfg = s.cfg
  programs : t.programs = s.programs
  build : t.build = s.build
  active : t.active = s.active

theorem BlockKept.trans {s t u : State} (h : BlockKept s t) (h' : BlockKept t u) : BlockKept s u :=
  ⟨h'.mem ∘ h.mem, h'.cfg.trans h.cfg, h'.programs.trans h.programs, h'.build.trans h.build, h'.active.trans h.active⟩

/-- All of the books are the same. -/
structure Quiet (s t : State) : Prop extends BlockKept s t where
  ctxs : t.ctxs = s.ctxs
  opens : ∀ o n base, HasOpen t o n base ↔ HasOpen s o n base

theorem Quiet.refl (s : State) : Quiet s s := ⟨⟨id, rfl, rfl, rfl, rfl⟩, rfl, fun _ _ _ => Iff.rfl⟩

theorem Quiet.trans {s t u : State} (h : Quiet s t) (h' : Quiet t u) : Quiet s u :=
  ⟨h.toBlockKept.trans h'.toBlockKept, h'.ctxs.trans h.ctxs, fun o n b => (h'.opens o n b).trans (h.opens o n b)⟩

theorem EnvOnly.quiet {s t : State} (h : EnvOnly s t) : Quiet s t :=
  ⟨⟨fun hm => h.mem ▸ hm, h.cfg, h.programs, h.build, h.active⟩, h.ctxs, hasOpen_congr h.issues⟩

theorem quiet_deliver (r : Result) (s : State) : Quiet s (deliver r s) :=
  ⟨⟨id, rfl, rfl, rfl, rfl⟩, rfl, fun _ _ _ => Iff.rfl⟩

theorem Quiet.deliver {s t : State} (h : Quiet s t) (r : Result) : Quiet s (deliver r t) := h.trans (quiet_deliver r t)

theorem quiet_forgetTransfers (p : Issue → Bool) (len : Issue → Nat) (s : State) : Quiet s (forgetTransfers p len s) :=
  ⟨⟨wf_forgetTransfers p len, rfl, rfl, rfl, rfl⟩, rfl, fun _ _ _ => Iff.rfl⟩

theorem quiet_disturb (p : Issue → Bool) (s : State) : Quiet s (disturb p s) :=
  ⟨⟨wf_forgetTransfers p wholeLength, rfl, rfl, rfl, rfl⟩, rfl, hasOpen_markDisturbed rfl⟩

theorem quiet_storeByte (a : Word) (v : Byte) (s : State) : Quiet s (storeByte a v s) :=
  ⟨⟨wf_storeByte a v, rfl, rfl, rfl, rfl⟩, rfl, hasOpen_markDisturbed rfl⟩

theorem quiet_memWriteBytes (a : Word) (bs : List Byte) (s : State) : Quiet s (memWriteBytes a bs s) := by
  have h := memOnly_memWriteBytes a bs s
  exact ⟨⟨wf_memWriteBytes a bs, h.cfg, h.programs, h.build, h.active⟩, h.ctxs,
    hasOpen_markDisturbed (memWriteBytes_issues a bs s)⟩

theorem envOnly_storeReg (r : DmacReg) (v : Word) (s : State) : EnvOnly s (storeReg r v s) :=
  (congrArg (fun x : State => envBack s x) (storeReg_frame r v s) : _)

theorem envOnly_noteChan (n : Nat) (f : ChannelEnv → ChannelEnv) (s : State) : EnvOnly s (noteChan n f s) := rfl

/-- Another agent's write touches the DMAC and the marks of transfers alone (R366). -/
theorem quiet_agentWrites (r : DmacReg) (v : Word) (s : State) : Quiet s (agentWrites r v s) := by
  have stores : EnvOnly s (agentStores r v s) := by
    unfold agentStores
    split_ifs
    · exact (envOnly_storeReg r v s).trans (envOnly_noteInjection _)
    · exact envOnly_storeReg r v s
  have lifts : EnvOnly (agentStores r v s) (liftChannel r s (agentStores r v s)) := by
    unfold liftChannel
    split
    · split_ifs
      · exact envOnly_noteChan _ _ _
      · exact EnvOnly.refl _
    · exact EnvOnly.refl _
  exact (stores.trans lifts).quiet.trans (quiet_disturb _ _)

/-! ### Opening and closing -/

/-- Where transfers begin, the open ones are those of the list that are open (R371 closes none). -/
theorem hasOpen_transfersBegin (is : List Issue) (s : State) (o : Option Nat) (n : Nat) (base : Word) :
    HasOpen (transfersBegin is s) o n base ↔ ∃ i ∈ is, OpenAs o n base i := by
  unfold HasOpen
  rw [(transfersBegin_spec is s).1]
  simp only [List.mem_map, exists_exists_and_eq_and, openAs_markHazards]

theorem blockKept_transfersBegin (is : List Issue) (s : State) : BlockKept s (transfersBegin is s) where
  mem h := by
    simp only [transfersBegin, settleRegs_mem]
    exact Memory.wf_forget _ h
  cfg := transfersBegin_cfg is s
  programs := transfersBegin_programs is s
  build := transfersBegin_build is s
  active := transfersBegin_active is s

/-- START drops no open transfer. -/
theorem openAs_openIssues (s : State) (chan : Nat) (o : Option Nat) (n : Nat) (base : Word) :
    (∃ i ∈ openIssues s chan, OpenAs o n base i) ↔ HasOpen s o n base := by
  unfold HasOpen openIssues
  refine exists_congr fun i => ?_
  rw [List.mem_filter]
  refine ⟨fun ⟨⟨hi, _⟩, ho⟩ => ⟨hi, ho⟩, fun ⟨hi, ho⟩ => ⟨⟨hi, ?_⟩, ho⟩⟩
  simp [mayRun, ho.1]

/-- The transfers of a GO that was started are open, and there is one, for a record that a build returned. -/
theorem openAs_newIssues {s : State} {p : Microprogram} (hp : programKnown s p = true) (c chan : Nat) (o : Option Nat)
    (n : Nat) (base : Word) :
    (∃ i ∈ newIssues s true c chan p, OpenAs o n base i) ↔ o = some c ∧ n = chan ∧ base = p.base := by
  obtain ⟨e, he, hr⟩ := List.any_eq_true.1 hp
  constructor
  · rintro ⟨i, hi, ho⟩
    obtain ⟨e, -, rfl⟩ := List.mem_map.1 hi
    obtain ⟨-, ho, hn, hb⟩ := ho
    exact ⟨ho.symm, hn.symm, hb.symm⟩
  · rintro ⟨rfl, rfl, rfl⟩
    exact ⟨_, List.mem_map.2 ⟨e, List.mem_filter.2 ⟨he, hr⟩, rfl⟩, rfl, rfl, rfl, rfl⟩

/-- Those of a GO that only may run are not open. -/
theorem not_openAs_newIssues (s : State) (c chan : Nat) (p : Microprogram) (o : Option Nat) (n : Nat) (base : Word) :
    ¬ ∃ i ∈ newIssues s false c chan p, OpenAs o n base i := by
  rintro ⟨i, hi, ho⟩
  obtain ⟨e, -, rfl⟩ := List.mem_map.1 hi
  cases ho.1

theorem blockKept_setContext (c : Nat) (ctx : ExecutionContext) (s : State) : BlockKept s (setContext c ctx s) :=
  ⟨id, rfl, rfl, rfl, rfl⟩

/-- A context's START: the context is in flight at the record's base, and its transfer is open besides the others. -/
structure Opens (c : Nat) (ctx : ExecutionContext) (p : Microprogram) (s t : State) : Prop extends BlockKept s t where
  ctxs : t.ctxs = s.ctxs.set c { ctx with progBase := p.base, inflight := true }
  opens : ∀ o n base, HasOpen t o n base ↔ (o = some c ∧ n = ctx.chan ∧ base = p.base) ∨ HasOpen s o n base

theorem Opens.deliver {c : Nat} {ctx : ExecutionContext} {p : Microprogram} {s t : State} (h : Opens c ctx p s t)
    (r : Result) : Opens c ctx p s (deliver r t) :=
  ⟨h.toBlockKept.trans (quiet_deliver r t).toBlockKept, h.ctxs, h.opens⟩

/-- What is written after the GO, with the transfers remembered before it. -/
theorem opens_goIssued {c : Nat} {ctx : ExecutionContext} {p : Microprogram} {s r u : State} (hr : Quiet s r)
    (hu : Quiet s u) (hp : programKnown s p = true) : Opens c ctx p s (goIssued c ctx p (openIssues r ctx.chan) u) where
  toBlockKept := hu.toBlockKept.trans
    ((blockKept_setContext c _ u).trans (blockKept_transfersBegin _ _))
  ctxs := by
    rw [(goIssued_spec c ctx p (openIssues r ctx.chan) u).1, hu.ctxs]
  opens o n base := by
    have hk : programKnown u p = true := by
      unfold programKnown
      rw [hu.programs]
      exact hp
    unfold goIssued
    rw [hasOpen_transfersBegin]
    simp only [List.mem_append, or_and_right, exists_or]
    rw [openAs_openIssues, hr.opens, openAs_newIssues hk]

/-- A GO that was written but not started opens and closes nothing. -/
theorem quiet_goOverwrote {c : Nat} {ctx : ExecutionContext} {p : Microprogram} {s r u : State} (hr : Quiet s r)
    (hu : Quiet s u) : Quiet s (goOverwrote c ctx p (openIssues r ctx.chan) u) where
  toBlockKept := hu.toBlockKept.trans (blockKept_transfersBegin _ u)
  ctxs := (transfersBegin_ctxs _ u).trans hu.ctxs
  opens o n base := by
    unfold goOverwrote
    rw [hasOpen_transfersBegin]
    simp only [List.mem_append, or_and_right, exists_or]
    rw [openAs_openIssues, hr.opens, or_iff_right (not_openAs_newIssues _ _ _ _ _ _ _)]

/-- A context's FINISH or KILL: the context is not in flight, and the transfers it closes are not open (R365; log 18). -/
structure Closes (c : Nat) (ctx : ExecutionContext) (s t : State) : Prop extends BlockKept s t where
  ctxs : t.ctxs = s.ctxs.set c { ctx with inflight := false }
  opens : ∀ o n base, HasOpen t o n base ↔
    HasOpen s o n base ∧ ¬ (ctx.isManager = false ∧ n = ctx.chan ∧ (o = some c ∨ o = none))

theorem Closes.deliver {c : Nat} {ctx : ExecutionContext} {s t : State} (h : Closes c ctx s t) (r : Result) :
    Closes c ctx s (deliver r t) := ⟨h.toBlockKept.trans (quiet_deliver r t).toBlockKept, h.ctxs, h.opens⟩

theorem closes_iff (c : Nat) (ctx : ExecutionContext) (i : Issue) :
    closes c ctx i = true ↔ ctx.isManager = false ∧ i.chan = ctx.chan ∧ (i.ctx = some c ∨ i.ctx = none) := by
  simp [closes, and_assoc]

theorem closes_clearInflight {c : Nat} {ctx : ExecutionContext} {s u : State} (hu : Quiet s u) :
    Closes c ctx s (clearInflight c ctx u) where
  toBlockKept := hu.toBlockKept.trans ⟨id, rfl, rfl, rfl, rfl⟩
  ctxs := by
    show u.ctxs.set c _ = _
    rw [hu.ctxs]
  opens o n base := by
    rw [← hu.opens]
    show (∃ i ∈ u.issues.map fun i => { i with isOpen := i.isOpen && !closes c ctx i }, OpenAs o n base i) ↔ _
    simp only [HasOpen, List.mem_map, exists_exists_and_eq_and, OpenAs, Bool.and_eq_true, Bool.not_eq_true', ← Bool.not_eq_true,
      closes_iff]
    constructor
    · rintro ⟨i, hi, ⟨hopen, hclosed⟩, rfl, rfl, rfl⟩
      exact ⟨⟨i, hi, hopen, rfl, rfl, rfl⟩, hclosed⟩
    · rintro ⟨⟨i, hi, hopen, rfl, rfl, rfl⟩, hclosed⟩
      exact ⟨i, hi, ⟨hopen, hclosed⟩, rfl, rfl, rfl⟩

theorem closes_closeTransfer {c : Nat} {ctx : ExecutionContext} {s u : State} (hu : Quiet s u) :
    Closes c ctx s (closeTransfer c ctx u) := closes_clearInflight (hu.trans (quiet_forgetTransfers _ _ _))

end Sys2Proof.Machine
end

section
/-! PROOF. What an instruction can do, said once: every way it answers a next state is a case of `Effect`; and with the
events of the outside world, every way a step does. -/

namespace Sys2Proof.Machine

/-! ### How a build command ends -/

/-- A build command past its checks: it has written no more than its capacity, from its buffer's first byte on, and either
returned its record (R219) or another result (R220). -/
def BuildEnds (bufBase : Word) (cap : Nat) (s t : State) : Prop :=
  bufBase.toNat + cap ≤ Config.addrSpace ∧ ∃ bs : List Byte, bs.length ≤ cap ∧
    ((∃ residual data, 1 ≤ bs.length ∧
        t = { memWriteBytes bufBase bs s with
              build := none
              result := some (.okProgram ⟨bufBase, cap, bs.length, residual⟩)
              programs := ⟨⟨bufBase, cap, bs.length, residual⟩, data⟩ :: s.programs })
      ∨ ∃ r, t = { memWriteBytes bufBase bs s with build := none, result := some r })

/-- A build whose operations lay out a listing ends in one of the two ways. -/
theorem runBuild_ends {ops : List BuildOp} {is : List Instr} {bufBase : Word} {cap needed : Nat} {data : DataRanges}
    (s : State) (residual : Nat) (h : ∃ b', LaysOut ops is (openRegs bufBase cap data.size needed) b')
    (hpos : 1 ≤ (programBytes is).length) (hbuf : bufferFits bufBase cap = true) :
    BuildEnds bufBase cap s (runBuild ops residual data needed bufBase cap s) := by
  obtain ⟨b', hl, hf⟩ := h
  refine ⟨(bufferFits_iff bufBase cap).1 hbuf, ?_⟩
  by_cases hcap : (programBytes is).length ≤ cap
  · exact ⟨_, hcap, Or.inl ⟨residual, data, hpos, runBuild_fits s residual data hl hf hcap⟩⟩
  · obtain ⟨done, i, rest, -, hdone, -, e⟩ := runBuild_overflows s residual data hl (by omega)
    exact ⟨_, hdone, Or.inr ⟨_, e⟩⟩

/-- BUILD: a ValidationError, or a build. -/
theorem execBuild_cases (req : TransferRequest) (bufBase : Word) (cap : Nat) (s : State) :
    (∃ cause, execBuild req bufBase cap s = .next (deliver (.validationError cause) s))
    ∨ ∃ t, execBuild req bufBase cap s = .next t ∧ BuildEnds bufBase cap s t := by
  unfold execBuild
  cases hP : plan s.cfg req bufBase cap with
  | error cause => exact Or.inl ⟨cause, rfl⟩
  | ok P =>
    obtain ⟨hv, rfl⟩ := (plan_ok_iff _ _ _ _ _).1 hP
    obtain ⟨-, -, -, -, -, -, -, -, hbuf⟩ := (validate_eq_none_iff _ _ _ _).1 hv
    exact Or.inr ⟨_, rfl, runBuild_ends s _ (laysOut_request req rfl rfl)
      (by simp [expectedProgram, programBytes, enc, encMov]) ((bufferFits_iff _ _).2 hbuf)⟩

/-- No check of R185 fails exactly where the destination is aligned, the size is one a request may have and the buffer
does not wrap. -/
theorem validateZf_eq_none_iff (cfg : Config.Params) (dst : Word) (size : Nat) (bufBase : Word) (cap : Nat) :
    validateZf cfg dst size bufBase cap = none ↔
      2 ^ cfg.zfBurstExp ∣ dst.toNat ∧ size ≤ 2 ^ 32 - 1 ∧ bufferFits bufBase cap = true := by
  simp only [validateZf, check_eq_none_iff, Config.sizeMax, not_lt, ne_eq, not_not, Bool.not_eq_true', Bool.not_eq_false,
    and_true, Nat.reducePow, Nat.reduceSub, Nat.dvd_iff_mod_eq_zero]

/-- BUILD_ZF: a ValidationError, or a build. -/
theorem execBuildZf_cases (dst : Word) (size : Nat) (bufBase : Word) (cap : Nat) (s : State) :
    (∃ cause, execBuildZf dst size bufBase cap s = .next (deliver (.validationError cause) s))
    ∨ ∃ t, execBuildZf dst size bufBase cap s = .next t ∧ BuildEnds bufBase cap s t := by
  unfold execBuildZf planZf
  cases hv : validateZf s.cfg dst size bufBase cap with
  | some cause => exact Or.inl ⟨cause, rfl⟩
  | none =>
    obtain ⟨-, -, hbuf⟩ := (validateZf_eq_none_iff _ _ _ _ _).1 hv
    exact Or.inr ⟨_, rfl, runBuild_ends s _ (laysOut_zeroFill s.cfg dst size rfl rfl)
      (by simp [expectedZeroFill, programBytes, enc, encMov]) hbuf⟩

/-! ### How a command ends -/

/-- This instruction with this result is one that closes a context's transfers (R262, R263, R296, R297). -/
def EndsTransfer (i : Instr) (c : Nat) (r : Option Result) : Prop :=
  (∃ tmo, i = .finish c tmo ∧ (r = some .okUnit ∨ ∃ o f q ns, r = some (.faultError o f q ns)))
    ∨ (i = .killCommand c ∧ r = some .okUnit)

/-- What an instruction can do to the books: nothing, stay active, go on with a build, end one, return a record, open a
transfer of a context, or close those of one. -/
inductive Effect (i : Instr) (s : State) : State → Prop
  | quiet {t : State} (h : Quiet s t) : Effect i s t
  | polling {t : State} {c : Nat} (hi : i = .finish c none) (h : Quiet s t) :
      Effect i s { t with active := some (.finish c none), result := none }
  | emitted {t : State} {b b' : BuildState} (h : Quiet s t) (hb : s.build = some b) (hst : b'.status = .building)
      (hoff : b'.off ≤ b.cap) (hcap : b'.cap = b.cap) (hbase : b'.bufBase = b.bufBase) :
      Effect i s { t with build := some b' }
  | buildOver {t : State} {r : Option Result} {port : List Byte} (h : Quiet s t) :
      Effect i s { t with build := none, result := r, emitPort := port }
  | built {t : State} {r : Option Result} {e : ProgramEntry} (h : Quiet s t) (he : recordOk e.record) :
      Effect i s { t with build := none, result := r, programs := e :: s.programs }
  | opened {t : State} {c : Nat} {ctx : ExecutionContext} {p : Microprogram} (hi : i = .start c p)
      (hc : s.ctxs[c]? = some ctx) (hm : ctx.isManager = false) (hn : ctx.chan < s.cfg.numChannels)
      (hr : t.result = some .okUnit) (h : Opens c ctx p s t) : Effect i s t
  | closed {t : State} {c : Nat} {ctx : ExecutionContext} (hi : EndsTransfer i c t.result)
      (hc : s.ctxs[c]? = some ctx) (h : Closes c ctx s t) : Effect i s t

/-- A microinstruction goes on with the build, or the build is over with BufferOverflow. -/
theorem effect_micro {i : Instr} {s t : State} (hm : isMicro i = true) (h : exec i s = .next t) : Effect i s t := by
  obtain ⟨-, b, hb, -, ⟨hfit, b', hoff, hcap, hbase, hst, rfl⟩ | ⟨-, rfl⟩⟩ := exec_micro_next hm h
  · exact .emitted (quiet_memWriteBytes _ _ s) hb hst (by omega) hcap hbase
  · exact .buildOver (Quiet.refl s)

theorem effect_buildEnds {i : Instr} {bufBase : Word} {cap : Nat} {s t : State} (h : BuildEnds bufBase cap s t) :
    Effect i s t := by
  obtain ⟨hbuf, bs, hlen, ⟨residual, data, hpos, rfl⟩ | ⟨r, rfl⟩⟩ := h
  · exact .built (quiet_memWriteBytes bufBase bs s) ⟨hpos, hlen, hbuf⟩
  · exact .buildOver (quiet_memWriteBytes bufBase bs s)

/-- A debug injection touches the DMAC alone. -/
theorem envOnly_injection {ctx : ExecutionContext} {m : Bool} {insn : List Byte} {base : Word} {busy : List Word}
    {last : Word} {s t : State} (h : Waits base busy last (debugLoaded ctx m insn s) t) : EnvOnly s t :=
  (debugLoaded_env ctx m insn s).trans h.env

theorem effect_start {c : Nat} {p : Microprogram} {s t : State} (h : execStart c p s = .next t) :
    Effect (.start c p) s t := by
  rcases execStart_cases c p s with e | e | ⟨ctx, hc, hm, hn, hp, e⟩ <;> rw [e] at h <;> cases h
  · exact .quiet (quiet_deliver _ s)
  · have hread : EnvOnly s (readState ctx s).2 := envOnly_readState ctx s
    rcases startChannel_cases c ctx p s with ⟨-, e⟩ | ⟨-, -, e⟩ | ⟨-, -, busy, idle, t, hw, e⟩
      | ⟨-, -, busy, last, t, hw, e⟩ <;> rw [e]
    · exact .quiet (quiet_deliver _ s)
    · exact .quiet (hread.quiet.deliver _)
    · have hgo := (hread.trans (envOnly_injection hw)).trans (envOnly_write32 ctx.regBase .dbgCmd 0 t)
      exact .opened rfl hc hm hn rfl ((opens_goIssued hread.quiet hgo.quiet hp).deliver _)
    · have hnote := (hread.trans (envOnly_injection hw)).trans (envOnly_noteInjection t)
      exact .quiet ((quiet_goOverwrote hread.quiet hnote.quiet).deliver _)

theorem effect_poll {c : Nat} {s t : State} (h : execPoll c s = .next t) : Effect (.poll c) s t := by
  rcases execPoll_cases c s with e | ⟨ctx, -, -, e⟩ <;> rw [e] at h <;> cases h
  · exact .quiet (quiet_deliver _ s)
  · exact .quiet ((envOnly_readState ctx s).quiet.deliver _)

theorem effect_finish {c : Nat} {tmo : Option Nat} {s t : State} (h : execFinish c tmo s = .next t) :
    Effect (.finish c tmo) s t := by
  rcases execFinish_cases c tmo s with e | ⟨ctx, k, hc, -, -, hk⟩
  · rw [e] at h
    cases h
    exact .quiet (quiet_deliver _ s)
  · have hread : EnvOnly s (readState ctx (afterPolls ctx k s)).2 :=
      (afterPolls_env ctx k s).trans (envOnly_readState ctx _)
    rcases hk with ⟨-, e⟩ | ⟨-, e⟩ | ⟨n, -, e⟩ | ⟨rfl, rfl, e⟩ <;> rw [e] at h <;> cases h
    · exact .closed (Or.inl ⟨tmo, rfl, Or.inl rfl⟩) hc ((closes_closeTransfer hread.quiet).deliver _)
    · have hfault := (hread.trans (envOnly_read32 ctx.regBase (.ftr ctx.chan) _)).trans
        (envOnly_read32 ctx.regBase (.cpc ctx.chan) _)
      exact .closed (Or.inl ⟨tmo, rfl, Or.inr ⟨_, _, _, _, rfl⟩⟩) hc ((closes_closeTransfer hfault.quiet).deliver _)
    · exact .quiet (hread.quiet.deliver _)
    · exact .polling rfl (hread.trans (envOnly_delay _)).quiet

/-- kill() after its wait, of a state in which the books are as before. -/
theorem effect_killSettled {c : Nat} {ctx : ExecutionContext} {s u : State} (st : ChannelState)
    (hc : s.ctxs[c]? = some ctx) (hu : EnvOnly s u) : Effect (.killCommand c) s (killSettled c ctx st u) := by
  rcases killSettled_cases c ctx st u with ⟨-, e⟩ | ⟨-, busy, idle, t, hw, e⟩ | ⟨-, busy, last, t, hw, e⟩ <;> rw [e]
  · refine .closed (Or.inr ⟨rfl, rfl⟩) hc (Closes.deliver (closes_clearInflight ?_) _)
    split_ifs
    · exact hu.quiet
    · exact hu.quiet.trans (quiet_disturb _ u)
  · have hkill := (hu.trans (envOnly_injection hw)).trans (envOnly_write32 ctx.regBase .dbgCmd 0 t)
    exact .closed (Or.inr ⟨rfl, rfl⟩) hc
      ((closes_clearInflight (hkill.quiet.trans (quiet_disturb _ _))).deliver _)
  · have hnote := (hu.trans (envOnly_injection hw)).trans (envOnly_noteInjection t)
    exact .quiet ((hnote.quiet.trans (quiet_disturb _ _)).deliver _)

theorem effect_killCommand {c : Nat} {s t : State} (h : execKillCommand c s = .next t) :
    Effect (.killCommand c) s t := by
  rcases execKillCommand_cases c s with e | ⟨ctx, hc, -, e⟩ <;> rw [e] at h <;> cases h
  · exact .quiet (quiet_deliver _ s)
  · unfold killThread
    rcases killWait_cases ctx s with ⟨r, hr, -, e⟩ | ⟨k, e⟩ <;> rw [e]
    · exact effect_killSettled _ hc (hr.trans (envOnly_readState ctx r))
    · have hread := ((envOnly_readState ctx s).trans (afterPolls_env ctx k _)).trans (envOnly_readState ctx _)
      exact .quiet (hread.quiet.deliver _)

/-- Whatever an instruction does that answers a next state, it is one of these effects. -/
theorem exec_effect {i : Instr} {s t : State} (h : exec i s = .next t) : Effect i s t := by
  by_cases hm : isMicro i = true
  · exact effect_micro hm h
  · cases i with
    | build req bufBase cap =>
      rcases execBuild_cases req bufBase cap s with ⟨cause, e⟩ | ⟨u, e, hu⟩ <;> cases e.symm.trans h
      · exact .quiet (quiet_deliver _ s)
      · exact effect_buildEnds hu
    | buildZf dst size bufBase cap =>
      rcases execBuildZf_cases dst size bufBase cap s with ⟨cause, e⟩ | ⟨u, e, hu⟩ <;> cases e.symm.trans h
      · exact .quiet (quiet_deliver _ s)
      · exact effect_buildEnds hu
    | start c p => exact effect_start h
    | poll c => exact effect_poll h
    | finish c tmo => exact effect_finish h
    | killCommand c => exact effect_killCommand h
    | _ => exact absurd rfl hm

/-- What the outside world does without a command: the books stay, a context is made, or there is a block reset. -/
theorem afterEvent_cases (e : HostEvent) (s : State) :
    Quiet s (afterEvent e s) ∨ (∃ chan m sec, afterEvent e s = createContext chan m sec s)
      ∨ afterEvent e s = blockResets s := by
  cases e with
  | create chan m sec => exact Or.inr (Or.inl ⟨chan, m, sec, rfl⟩)
  | blockReset => exact Or.inr (Or.inr rfl)
  | command tx => exact Or.inl (quiet_deliver _ s)
  | hostWrite a v => exact Or.inl (quiet_storeByte a v s)
  | agentWrite r v => exact Or.inl (quiet_agentWrites r v s)
  | dmacReset => exact Or.inl ⟨⟨id, rfl, rfl, rfl, rfl⟩, rfl, fun _ _ _ => Iff.rfl⟩

/-- Every way a step answers a next state: an instruction with its effect, or what the outside world does. `u` is the state
with what the step found taken from its port. -/
theorem step_cases {s t : State} (h : step s = .next t) :
    (∃ i u, fetch s = .run i u ∧ Effect i u t) ∨ t = s
      ∨ ∃ e rest, s.inbox = e :: rest ∧ t = afterEvent e { s with inbox := rest } := by
  rcases step_next_cases h with ⟨i, u, hf, he⟩ | hd
  · exact Or.inl ⟨i, u, hf, exec_effect he⟩
  · exact Or.inr (fetch_done hd)

end Sys2Proof.Machine
end

section
/-! PROOF. What follows from the effects of a step: the configuration stays (R20), a context's flag changes as R28 says, and
the invariant of the machine is kept. -/

namespace Sys2Proof.Machine

/-! ### The configuration -/

theorem Effect.cfg {i : Instr} {s t : State} (h : Effect i s t) : t.cfg = s.cfg := by
  cases h with
  | opened _ _ _ _ _ h => exact h.cfg
  | closed _ _ h => exact h.cfg
  | quiet h | polling _ h | emitted h | buildOver h | built h => exact h.cfg

theorem afterEvent_cfg (e : HostEvent) (s : State) : (afterEvent e s).cfg = s.cfg := by
  rcases afterEvent_cases e s with h | ⟨chan, m, sec, e⟩ | e
  · exact h.cfg
  · rw [e]
    rfl
  · rw [e]
    rfl

/-- What the fetch leaves in place. -/
theorem fetch_run_kept {s u : State} {i : Instr} (h : fetch s = .run i u) :
    u.cfg = s.cfg ∧ u.ctxs = s.ctxs ∧ u.build = s.build ∧ u.bus = s.bus := by
  obtain ⟨-, e⟩ := fetch_run h
  rw [← e]
  exact ⟨rfl, rfl, rfl, rfl⟩

/-- Settles O53: no effect of an instruction and no event touches the configuration. -/
theorem noStepChangesTheConfiguration : Obligations.NoStepChangesTheConfiguration := by
  intro s t h
  rcases step_cases h with ⟨i, u, hf, he⟩ | rfl | ⟨e, rest, -, rfl⟩
  · exact he.cfg.trans (fetch_run_kept hf).1
  · rfl
  · exact afterEvent_cfg e _

/-! ### The flag of a context -/

/-- What an instruction's effect makes of the contexts: nothing; one in flight at a program's base; one not in flight. -/
theorem Effect.ctxs {i : Instr} {s t : State} (h : Effect i s t) :
    t.ctxs = s.ctxs
    ∨ (∃ c ctx p, i = .start c p ∧ s.ctxs[c]? = some ctx ∧ t.result = some .okUnit
        ∧ t.ctxs = s.ctxs.set c { ctx with progBase := p.base, inflight := true })
    ∨ ∃ c ctx, EndsTransfer i c t.result ∧ s.ctxs[c]? = some ctx
        ∧ t.ctxs = s.ctxs.set c { ctx with inflight := false } := by
  cases h with
  | opened hi hc _ _ hr h => exact Or.inr (Or.inl ⟨_, _, _, hi, hc, hr, h.ctxs⟩)
  | closed hi hc h => exact Or.inr (Or.inr ⟨_, _, hi, hc, h.ctxs⟩)
  | quiet h | polling _ h | emitted h | buildOver h | built h => exact Or.inl h.ctxs

/-- An event makes no context's flag change: a context that is there before and after is the same. -/
theorem afterEvent_ctxs {e : HostEvent} {s : State} {c : Nat} {ctx ctx' : ExecutionContext}
    (h : s.ctxs[c]? = some ctx) (h' : (afterEvent e s).ctxs[c]? = some ctx') : ctx' = ctx := by
  rcases afterEvent_cases e s with hq | ⟨chan, m, sec, e⟩ | e
  · rw [hq.ctxs, h] at h'
    exact (Option.some.inj h').symm
  · rw [e, createContext, List.getElem?_append_left (List.getElem?_eq_some_iff.1 h).1, h] at h'
    exact (Option.some.inj h').symm
  · rw [e] at h'
    cases h'

/-- A context at its place after one was replaced: the new one there, the old ones elsewhere. -/
theorem getElem?_set_cases {xs : List ExecutionContext} {c d : Nat} {x y z : ExecutionContext}
    (h : xs[c]? = some x) (h' : (xs.set d y)[c]? = some z) : (d = c ∧ z = y) ∨ z = x := by
  rw [List.getElem?_set] at h'
  split_ifs at h' with hd hl
  · exact Or.inl ⟨hd, (Option.some.inj h').symm⟩
  · exact Or.inr (Option.some.inj (h'.symm.trans h))

/-- Settles O55: the one effect that puts a context in flight is START's, the one that takes it out is FINISH's or KILL's. -/
theorem inflightChangesOnlyAsStated : Obligations.InflightChangesOnlyAsStated := by
  intro s t c ctx ctx' h hc hc'
  by_cases hsame : ctx' = ctx
  · subst hsame
    exact ⟨fun hf hf' => by simp [hf] at hf', fun hf hf' => by simp [hf] at hf'⟩
  · rcases step_cases h with ⟨i, u, hf, he⟩ | rfl | ⟨e, rest, -, rfl⟩
    · have hcu : u.ctxs[c]? = some ctx := by rw [(fetch_run_kept hf).2.1, hc]
      rcases he.ctxs with e | ⟨d, x, p, rfl, -, hr, e⟩ | ⟨d, x, hi, -, e⟩ <;> rw [e] at hc'
      · exact absurd (Option.some.inj (hc'.symm.trans hcu)) hsame
      · obtain ⟨rfl, rfl⟩ := (getElem?_set_cases hcu hc').resolve_right hsame
        exact ⟨fun _ _ => ⟨p, u, hf, hr, rfl⟩, fun _ hfall => (by cases hfall)⟩
      · obtain ⟨rfl, rfl⟩ := (getElem?_set_cases hcu hc').resolve_right hsame
        refine ⟨fun _ hrise => (by cases hrise), fun _ _ => ?_⟩
        rcases hi with ⟨tmo, rfl, hr⟩ | ⟨rfl, hr⟩
        · exact Or.inl ⟨tmo, u, hf, hr⟩
        · exact Or.inr ⟨u, hf, hr⟩
    · exact absurd (Option.some.inj (hc'.symm.trans hc)) hsame
    · exact absurd (afterEvent_ctxs (s := { s with inbox := rest }) hc hc') hsame

/-! ### The invariant -/

/-- Settles O52: nothing is built, recorded, issued or active at reset, and no byte of memory is known. -/
theorem resetMeetsTheInvariant : Obligations.ResetMeetsTheInvariant where
  mem := wf_reset_mem
  cursor _ h := by cases h
  regBase _ h := by cases h
  programs _ h := by cases h
  inflight _ _ h := by simp [State.reset] at h
  opened _ h := by cases h
  active _ h := by cases h

/-- The invariant's clauses about transfers, as a relation of contexts and open transfers: each context in flight has one of
its own, and each one that names a context is of a context in flight. -/
structure TransfersWf (s : State) : Prop where
  inflight : ∀ c ctx, s.ctxs[c]? = some ctx → ctx.inflight = true →
    ctx.isManager = false ∧ ctx.chan < s.cfg.numChannels ∧ HasOpen s (some c) ctx.chan ctx.progBase
  opened : ∀ c n base, HasOpen s (some c) n base →
    ∃ ctx, s.ctxs[c]? = some ctx ∧ ctx.inflight = true ∧ ctx.isManager = false ∧ ctx.chan = n

theorem StateWf.transfers {s : State} (h : StateWf s) : TransfersWf s where
  inflight c ctx hc hf := by
    obtain ⟨hm, hn, i, hi, ho, hopen, hchan, hbase⟩ := h.inflight c ctx hc hf
    exact ⟨hm, hn, i, hi, hopen, ho, hchan, hbase⟩
  opened := by
    rintro c n base ⟨i, hi, hopen, ho, rfl, -⟩
    exact h.opened i hi hopen c ho

/-- The invariant from its clauses, those about transfers in one. -/
theorem StateWf.of_transfers {s : State} (mem : Memory.wf s.mem = true)
    (cursor : ∀ b, s.build = some b →
      b.status = .building ∧ b.off ≤ b.cap ∧ b.bufBase.toNat + b.cap ≤ Config.addrSpace)
    (regBase : ∀ ctx ∈ s.ctxs, ctx.regBase = regBaseOf s.cfg ctx.security)
    (programs : ∀ e ∈ s.programs, recordOk e.record) (transfers : TransfersWf s)
    (active : ∀ i, s.active = some i → ∃ c, i = .finish c none) : StateWf s where
  mem := mem
  cursor := cursor
  regBase := regBase
  programs := programs
  inflight c ctx hc hf := by
    obtain ⟨hm, hn, i, hi, hopen, ho, hchan, hbase⟩ := transfers.inflight c ctx hc hf
    exact ⟨hm, hn, i, hi, ho, hopen, hchan, hbase⟩
  opened i hi hopen c ho := transfers.opened c i.chan i.record.base ⟨i, hi, hopen, ho, rfl, rfl⟩
  active := active

/-- Of a state whose books but for the contexts and the transfers are as before, those clauses are left to show. -/
theorem BlockKept.wf {s t : State} (h : BlockKept s t) (hs : StateWf s)
    (regBase : ∀ ctx ∈ t.ctxs, ctx.regBase = regBaseOf s.cfg ctx.security) (transfers : TransfersWf t) : StateWf t :=
  .of_transfers (h.mem hs.mem) (h.build ▸ hs.cursor) (h.cfg ▸ regBase) (h.programs ▸ hs.programs) transfers
    (h.active ▸ hs.active)

theorem Quiet.wf {s t : State} (h : Quiet s t) (hs : StateWf s) : StateWf t := by
  refine h.toBlockKept.wf hs (h.ctxs ▸ hs.regBase) ⟨fun c ctx hc hf => ?_, fun c n base ho => ?_⟩
  · rw [h.ctxs] at hc
    rw [h.cfg, h.opens]
    exact hs.transfers.inflight c ctx hc hf
  · rw [h.ctxs]
    exact hs.transfers.opened c n base ((h.opens _ _ _).1 ho)

/-- A changed context keeps its register base (R27). -/
theorem regBase_set {s : State} {c : Nat} {ctx x : ExecutionContext} (hs : StateWf s) (hc : s.ctxs[c]? = some ctx)
    (hb : x.regBase = ctx.regBase) (hx : x.security = ctx.security) :
    ∀ y ∈ s.ctxs.set c x, y.regBase = regBaseOf s.cfg y.security := by
  intro y hy
  rcases List.mem_or_eq_of_mem_set hy with hy | rfl
  · exact hs.regBase y hy
  · rw [hb, hx]
    exact hs.regBase ctx (List.mem_of_getElem? hc)

/-- START keeps the invariant: its context is in flight with the transfer it opens (R28, R259). -/
theorem Opens.wf {c : Nat} {ctx : ExecutionContext} {p : Microprogram} {s t : State} (h : Opens c ctx p s t)
    (hs : StateWf s) (hc : s.ctxs[c]? = some ctx) (hm : ctx.isManager = false) (hn : ctx.chan < s.cfg.numChannels) :
    StateWf t := by
  refine h.toBlockKept.wf hs (h.ctxs ▸ regBase_set hs hc rfl rfl) ⟨fun d y hd hf => ?_, fun d n base ho => ?_⟩
  · rw [h.cfg, h.opens]
    rw [h.ctxs, List.getElem?_set] at hd
    split_ifs at hd with hcd hl
    · subst hcd
      cases hd
      exact ⟨hm, hn, Or.inl ⟨rfl, rfl, rfl⟩⟩
    · obtain ⟨hm', hn', ho⟩ := hs.transfers.inflight d y hd hf
      exact ⟨hm', hn', Or.inr ho⟩
  · have hnew : (s.ctxs.set c { ctx with progBase := p.base, inflight := true })[c]?
        = some { ctx with progBase := p.base, inflight := true } :=
      List.getElem?_set_self (List.getElem?_eq_some_iff.1 hc).1
    rw [h.ctxs]
    rcases (h.opens _ _ _).1 ho with ⟨hd, rfl, -⟩ | ho
    · cases hd
      exact ⟨_, hnew, rfl, hm, rfl⟩
    · obtain ⟨y, hy, hf, hm', hn'⟩ := hs.transfers.opened d n base ho
      by_cases hcd : c = d
      · subst hcd
        cases hc.symm.trans hy
        exact ⟨_, hnew, rfl, hm', hn'⟩
      · exact ⟨y, by rw [List.getElem?_set_ne hcd, hy], hf, hm', hn'⟩

/-- FINISH and KILL keep the invariant: every open transfer of the context is on its channel, so none is left (R365). -/
theorem Closes.wf {c : Nat} {ctx : ExecutionContext} {s t : State} (h : Closes c ctx s t) (hs : StateWf s)
    (hc : s.ctxs[c]? = some ctx) : StateWf t := by
  refine h.toBlockKept.wf hs (h.ctxs ▸ regBase_set hs hc rfl rfl) ⟨fun d y hd hf => ?_, fun d n base ho => ?_⟩
  · rw [h.cfg, h.opens]
    rw [h.ctxs, List.getElem?_set] at hd
    split_ifs at hd with hcd hl
    · cases hd
      cases hf
    · obtain ⟨hm, hn, ho⟩ := hs.transfers.inflight d y hd hf
      refine ⟨hm, hn, ho, ?_⟩
      rintro ⟨-, -, hd | hd⟩
      · exact hcd (Option.some.inj hd).symm
      · cases hd
  · obtain ⟨ho, hclosed⟩ := (h.opens _ _ _).1 ho
    obtain ⟨y, hy, hf, hm, hn⟩ := hs.transfers.opened d n base ho
    have hcd : c ≠ d := by
      rintro rfl
      cases hc.symm.trans hy
      exact hclosed ⟨hm, hn.symm, Or.inl rfl⟩
    exact ⟨y, by rw [h.ctxs, List.getElem?_set_ne hcd, hy], hf, hm, hn⟩

/-- Every effect of an instruction keeps the invariant. -/
theorem Effect.wf {i : Instr} {s t : State} (h : Effect i s t) (hs : StateWf s) : StateWf t := by
  cases h with
  | quiet h => exact h.wf hs
  | polling _ h =>
    have ht := h.wf hs
    exact { ht with active := fun i hi => ⟨_, (Option.some.inj hi).symm⟩ }
  | emitted h hb hst hoff hcap hbase =>
    have ht := h.wf hs
    obtain ⟨-, -, hbuf⟩ := hs.cursor _ hb
    refine { ht with cursor := fun b hb' => ?_ }
    cases hb'
    exact ⟨hst, hcap ▸ hoff, by rw [hcap, hbase]; exact hbuf⟩
  | buildOver h =>
    have ht := h.wf hs
    exact { ht with cursor := nofun }
  | built h he =>
    have ht := h.wf hs
    refine { ht with cursor := nofun, programs := fun e' he' => ?_ }
    rcases List.mem_cons.1 he' with rfl | he'
    · exact he
    · exact hs.programs e' he'
  | opened _ hc hm hn _ h => exact h.wf hs hc hm hn
  | closed _ hc h => exact h.wf hs hc

/-- A created context is not in flight, and its register base is its security's (R27, R44). -/
theorem wf_createContext {s : State} (hs : StateWf s) (chan : Nat) (m : Bool) (sec : Security) :
    StateWf (createContext chan m sec s) := by
  have old : ∀ c ctx, s.ctxs[c]? = some ctx → (s.ctxs ++ [newContext s.cfg chan m sec])[c]? = some ctx :=
    fun c ctx h => by rw [List.getElem?_append_left (List.getElem?_eq_some_iff.1 h).1, h]
  refine { hs with regBase := fun ctx hc => ?_, inflight := fun c ctx hc hf => ?_, opened := fun i hi ho c hc => ?_ }
  · rcases List.mem_append.1 hc with hc | hc
    · exact hs.regBase ctx hc
    · cases List.mem_singleton.1 hc
      rfl
  · have hc' : (s.ctxs ++ [newContext s.cfg chan m sec])[c]? = some ctx := hc
    rw [List.getElem?_append] at hc'
    split_ifs at hc'
    · exact hs.inflight c ctx hc' hf
    · cases List.mem_singleton.1 (List.mem_of_getElem? hc')
      cases hf
  · obtain ⟨ctx, h, hrest⟩ := hs.opened i hi ho c hc
    exact ⟨ctx, old c ctx h, hrest⟩

/-- After a block reset there is no context, and no transfer names one (R360, R365; log 18). -/
theorem wf_blockResets {s : State} (hs : StateWf s) : StateWf (blockResets s) where
  mem := hs.mem
  cursor _ h := by cases h
  regBase _ h := by cases h
  programs _ h := by cases h
  inflight _ _ h := by simp [blockResets] at h
  opened i hi _ c hc := by
    obtain ⟨j, -, rfl⟩ := List.mem_map.1 hi
    cases hc
  active _ h := by cases h

theorem wf_afterEvent {s : State} (hs : StateWf s) (e : HostEvent) : StateWf (afterEvent e s) := by
  rcases afterEvent_cases e s with h | ⟨chan, m, sec, h⟩ | h
  · exact h.wf hs
  · rw [h]
    exact wf_createContext hs chan m sec
  · rw [h]
    exact wf_blockResets hs

/-- Settles O51: what the step takes from its port is no part of the invariant, and every effect and every event keeps it. -/
theorem everyStepKeepsTheInvariant : Obligations.EveryStepKeepsTheInvariant := by
  intro s t hs h
  rcases step_cases h with ⟨i, u, hf, he⟩ | rfl | ⟨e, rest, -, rfl⟩
  · obtain ⟨ha, hu⟩ := fetch_run hf
    rw [← hu] at hs
    exact he.wf { hs with active := fun j hj => by rw [ha] at hj; cases hj }
  · exact hs
  · exact wf_afterEvent (s := { s with inbox := rest }) { hs with } e

end Sys2Proof.Machine
end

section
/-! PROOF. The accesses of a step (R43): a command reads and writes the registers of its context's frame that R43 lists, and
a build writes bytes of its buffer (R61). -/

namespace Sys2Proof.Machine

/-! ### Adding accesses -/

/-- `t` has the accesses of `s` and, after them, only ones with this property. -/
def OnlyAdds (legal : BusEvent → Prop) (s t : State) : Prop := ∃ ev, t.bus = s.bus ++ ev ∧ ∀ e ∈ ev, legal e

theorem OnlyAdds.of_bus_eq {legal : BusEvent → Prop} {s t : State} (h : t.bus = s.bus) : OnlyAdds legal s t :=
  ⟨[], by simp [h], nofun⟩

theorem OnlyAdds.trans {legal : BusEvent → Prop} {s t u : State} (h : OnlyAdds legal s t) (h' : OnlyAdds legal t u) :
    OnlyAdds legal s u := by
  obtain ⟨ev, hev, hl⟩ := h
  obtain ⟨ev', hev', hl'⟩ := h'
  refine ⟨ev ++ ev', by rw [hev', hev, List.append_assoc], fun e he => ?_⟩
  exact (List.mem_append.1 he).elim (hl e) (hl' e)

/-- What changes no access after that adds none. -/
theorem OnlyAdds.bus_eq {legal : BusEvent → Prop} {s t u : State} (h : OnlyAdds legal s t) (hu : u.bus = t.bus) :
    OnlyAdds legal s u := h.trans (.of_bus_eq hu)

theorem onlyAdds_one {legal : BusEvent → Prop} {s t : State} {e : BusEvent} (h : t.bus = s.bus ++ [e]) (he : legal e) :
    OnlyAdds legal s t := ⟨[e], h, by simpa using he⟩

theorem onlyAdds_delay {s₀ : State} (s : State) : OnlyAdds (accessLegal s₀) s (delay s) :=
  onlyAdds_one (delay_bus s) trivial

theorem goIssued_bus (c : Nat) (ctx : ExecutionContext) (p : Microprogram) (kept : List Issue) (s : State) :
    (goIssued c ctx p kept s).bus = s.bus := transfersBegin_bus _ _

theorem goOverwrote_bus (c : Nat) (ctx : ExecutionContext) (p : Microprogram) (kept : List Issue) (s : State) :
    (goOverwrote c ctx p kept s).bus = s.bus := transfersBegin_bus _ _

/-! ### The registers of R43 -/

/-- A context the block may use in a step from `s`: its frame is its security's (R27), and a channel context's channel is
one the DMAC has. -/
structure UsableIn (s : State) (ctx : ExecutionContext) : Prop where
  regBase : ctx.regBase = regBaseOf s.cfg ctx.security
  channel : ctx.isManager = false → ctx.chan < s.cfg.numChannels

/-- A register at one of the offsets R43 lets the block read. -/
theorem readLegal {s : State} {ctx : ExecutionContext} (hu : UsableIn s ctx) {r : DmacReg} (v : Word)
    (hr : regOffset r = 0x000 ∨ regOffset r = 0xD00 ∨ ∃ n, n < s.cfg.numChannels ∧
      (regOffset r = 0x040 + 4 * n ∨ regOffset r = 0x100 + 8 * n ∨ regOffset r = 0x104 + 8 * n)) :
    accessLegal s (.read32 (regAddr ctx.regBase r) v) :=
  ⟨ctx.security, regOffset r, by rw [regAddr, hu.regBase], hr⟩

theorem writeLegal {s : State} {ctx : ExecutionContext} (hu : UsableIn s ctx) {r : DmacReg} {v : Word}
    (hr : r = .dbgInst0 ∨ r = .dbgInst1 ∨ (r = .dbgCmd ∧ v = 0)) :
    accessLegal s (.write32 (regAddr ctx.regBase r) v) := by
  refine ⟨ctx.security, regOffset r, by rw [regAddr, hu.regBase], ?_⟩
  rcases hr with rfl | rfl | ⟨rfl, rfl⟩
  · exact Or.inl rfl
  · exact Or.inr (Or.inl rfl)
  · exact Or.inr (Or.inr ⟨rfl, rfl⟩)

section
variable {s₀ : State} {ctx : ExecutionContext} (hu : UsableIn s₀ ctx)
include hu

theorem statusLegal (v : Word) : accessLegal s₀ (.read32 (regAddr ctx.regBase (statusReg ctx)) v) := by
  refine readLegal hu v ?_
  unfold statusReg
  split_ifs with hm
  · exact Or.inl rfl
  · exact Or.inr (Or.inr ⟨ctx.chan, hu.channel (by simpa using hm), Or.inr (Or.inl rfl)⟩)

theorem dbgStatusLegal (v : Word) : accessLegal s₀ (.read32 (regAddr ctx.regBase .dbgStatus) v) :=
  readLegal hu v (Or.inr (Or.inl rfl))

theorem onlyAdds_readState (s : State) : OnlyAdds (accessLegal s₀) s (readState ctx s).2 :=
  onlyAdds_one (readState_bus ctx s) (statusLegal hu _)

theorem onlyAdds_afterPolls (k : Nat) (s : State) : OnlyAdds (accessLegal s₀) s (afterPolls ctx k s) := by
  induction k with
  | zero => exact .of_bus_eq rfl
  | succ k ih =>
    rw [afterPolls_succ]
    exact (ih.trans (onlyAdds_readState hu _)).trans (onlyAdds_delay _)

/-- A debug injection up to the end of its wait (R250, R253). -/
theorem onlyAdds_injection {m : Bool} {insn : List Byte} {busy : List Word} {last : Word} {s t : State}
    (h : Waits ctx.regBase busy last (debugLoaded ctx m insn s) t) : OnlyAdds (accessLegal s₀) s t := by
  have loads : OnlyAdds (accessLegal s₀) s (debugLoaded ctx m insn s) := by
    refine ⟨_, debugLoaded_bus ctx m insn s, fun e he => ?_⟩
    simp only [debugWrites, List.mem_cons, List.not_mem_nil, or_false] at he
    rcases he with rfl | rfl
    · exact writeLegal hu (Or.inl rfl)
    · exact writeLegal hu (Or.inr (Or.inl rfl))
  refine loads.trans ⟨_, (List.append_assoc _ _ _ ▸ h.bus : _), fun e he => ?_⟩
  rcases List.mem_append.1 he with he | he
  · obtain ⟨v, -, he⟩ := List.mem_flatMap.1 he
    simp only [List.mem_cons, List.not_mem_nil, or_false] at he
    rcases he with rfl | rfl
    · exact dbgStatusLegal hu v
    · trivial
  · rw [List.mem_singleton.1 he]
    exact dbgStatusLegal hu last

/-- The start of the injected instruction (R254). -/
theorem onlyAdds_dbgCmd (s : State) : OnlyAdds (accessLegal s₀) s (write32 ctx.regBase .dbgCmd 0 s) :=
  onlyAdds_one (write32_bus _ _ _ s) (writeLegal hu (Or.inr (Or.inr ⟨rfl, rfl⟩)))

/-- The two fault registers of a channel context (R297). -/
theorem onlyAdds_reportFault (c : Nat) (hm : ctx.isManager = false) (s : State) :
    OnlyAdds (accessLegal s₀) s (reportFault c ctx s) := by
  have hn := hu.channel hm
  have ftr : OnlyAdds (accessLegal s₀) s (read32 ctx.regBase (.ftr ctx.chan) s).2 :=
    onlyAdds_one (read32_bus _ _ s) (readLegal hu _ (Or.inr (Or.inr ⟨ctx.chan, hn, Or.inl rfl⟩)))
  refine (ftr.trans ?_).bus_eq (t := (read32 ctx.regBase (.cpc ctx.chan) _).2) rfl
  exact onlyAdds_one (read32_bus _ _ _) (readLegal hu _ (Or.inr (Or.inr ⟨ctx.chan, hn, Or.inr (Or.inr rfl)⟩)))

/-- kill() after its wait (R262 to R264). -/
theorem onlyAdds_killSettled (c : Nat) (st : ChannelState) (s : State) :
    OnlyAdds (accessLegal s₀) s (killSettled c ctx st s) := by
  rcases killSettled_cases c ctx st s with ⟨-, e⟩ | ⟨-, busy, idle, t, hw, e⟩ | ⟨-, busy, last, t, hw, e⟩ <;> rw [e]
  · refine .of_bus_eq ?_
    split_ifs <;> rfl
  · exact ((onlyAdds_injection hu hw).trans (onlyAdds_dbgCmd hu t)).bus_eq rfl
  · exact (onlyAdds_injection hu hw).bus_eq ((deliver_bus _ _).trans (noteInjection_bus t))

/-- START with a usable context (R256 to R260). -/
theorem onlyAdds_startChannel (c : Nat) (p : Microprogram) (s : State) :
    OnlyAdds (accessLegal s₀) s (startChannel c ctx p s) := by
  have hread := onlyAdds_readState hu s
  rcases startChannel_cases c ctx p s with ⟨-, e⟩ | ⟨-, -, e⟩ | ⟨-, -, busy, idle, t, hw, e⟩
    | ⟨-, -, busy, last, t, hw, e⟩ <;> rw [e]
  · exact .of_bus_eq rfl
  · exact hread.bus_eq rfl
  · exact ((hread.trans (onlyAdds_injection hu hw)).trans (onlyAdds_dbgCmd hu t)).bus_eq
      ((deliver_bus _ _).trans (goIssued_bus _ _ _ _ _))
  · exact (hread.trans (onlyAdds_injection hu hw)).bus_eq
      ((deliver_bus _ _).trans ((goOverwrote_bus _ _ _ _ _).trans (noteInjection_bus t)))

/-- KILL with a usable context (R261). -/
theorem onlyAdds_killThread (c : Nat) (s : State) : OnlyAdds (accessLegal s₀) s (killThread c ctx s) := by
  unfold killThread
  rcases killWait_cases ctx s with ⟨r, -, hr, e⟩ | ⟨k, e⟩ <;> rw [e]
  · have waits : OnlyAdds (accessLegal s₀) s r := by
      rcases hr with rfl | ⟨k, rfl⟩
      · exact .of_bus_eq rfl
      · exact (onlyAdds_readState hu s).trans (onlyAdds_afterPolls hu k _)
    exact (waits.trans (onlyAdds_readState hu r)).trans (onlyAdds_killSettled hu c _ _)
  · exact (((onlyAdds_readState hu s).trans (onlyAdds_afterPolls hu k _)).trans (onlyAdds_readState hu _)).bus_eq rfl

end

/-! ### The accesses of an instruction -/

/-- The contexts of `u` have the frames of `s`'s configuration, which is `u`'s (R27). -/
structure FramesOf (s u : State) : Prop where
  cfg : u.cfg = s.cfg
  regBase : ∀ ctx ∈ u.ctxs, ctx.regBase = regBaseOf s.cfg ctx.security

theorem FramesOf.usable {s u : State} (h : FramesOf s u) {c : Nat} {ctx : ExecutionContext} (hc : u.ctxs[c]? = some ctx)
    (hn : ctx.isManager = false → ctx.chan < u.cfg.numChannels) : UsableIn s ctx :=
  ⟨h.regBase ctx (List.mem_of_getElem? hc), h.cfg ▸ hn⟩

theorem channel_of_not_badChannel {cfg : Config.Params} {ctx : ExecutionContext} (h : badChannel cfg ctx = false)
    (hm : ctx.isManager = false) : ctx.chan < cfg.numChannels := by
  simpa [badChannel, hm] using h

theorem onlyAdds_start {s₀ s t : State} (hf : FramesOf s₀ s) {c : Nat} {p : Microprogram}
    (h : execStart c p s = .next t) : OnlyAdds (accessLegal s₀) s t := by
  rcases execStart_cases c p s with e | e | ⟨ctx, hc, -, hn, -, e⟩ <;> rw [e] at h <;> cases h
  · exact .of_bus_eq rfl
  · exact onlyAdds_startChannel (hf.usable hc fun _ => hn) c p s

theorem onlyAdds_poll {s₀ s t : State} (hf : FramesOf s₀ s) {c : Nat} (h : execPoll c s = .next t) :
    OnlyAdds (accessLegal s₀) s t := by
  rcases execPoll_cases c s with e | ⟨ctx, hc, hb, e⟩ <;> rw [e] at h <;> cases h
  · exact .of_bus_eq rfl
  · exact (onlyAdds_readState (hf.usable hc (channel_of_not_badChannel hb)) s).bus_eq rfl

theorem onlyAdds_killCommand {s₀ s t : State} (hf : FramesOf s₀ s) {c : Nat} (h : execKillCommand c s = .next t) :
    OnlyAdds (accessLegal s₀) s t := by
  rcases execKillCommand_cases c s with e | ⟨ctx, hc, hb, e⟩ <;> rw [e] at h <;> cases h
  · exact .of_bus_eq rfl
  · exact onlyAdds_killThread (hf.usable hc (channel_of_not_badChannel hb)) c s

theorem onlyAdds_finish {s₀ s t : State} (hf : FramesOf s₀ s) {c : Nat} {tmo : Option Nat}
    (h : execFinish c tmo s = .next t) : OnlyAdds (accessLegal s₀) s t := by
  rcases execFinish_cases c tmo s with e | ⟨ctx, k, hc, hm, hn, hk⟩
  · rw [e] at h
    cases h
    exact .of_bus_eq rfl
  · have hu := hf.usable hc fun _ => hn
    have hread := (onlyAdds_afterPolls hu k s).trans (onlyAdds_readState hu _)
    rcases hk with ⟨-, e⟩ | ⟨-, e⟩ | ⟨n, -, e⟩ | ⟨rfl, rfl, e⟩ <;> rw [e] at h <;> cases h
    · exact hread.bus_eq rfl
    · exact hread.trans (onlyAdds_reportFault hu c hm _)
    · exact hread.bus_eq rfl
    · exact (hread.trans (onlyAdds_delay _)).bus_eq rfl

/-- Bytes written inside a buffer are writes the block may make where it is the step's (R61). -/
theorem writeEvents_legal {s : State} {base : Word} {cap off : Nat} {bs : List Byte}
    (hbuf : stepBuffer s = some (base, cap)) (hfit : off + bs.length ≤ cap) :
    ∀ e ∈ writeEvents (base + BitVec.ofNat 32 off) bs, accessLegal s e := by
  intro e he
  obtain ⟨k, hk, rfl⟩ := List.mem_mapIdx.1 he
  refine ⟨base, cap, hbuf, ?_⟩
  have hoff : base + BitVec.ofNat 32 off + BitVec.ofNat 32 k - base = BitVec.ofNat 32 (off + k) := by
    rw [BitVec.add_assoc, BitVec.add_comm base, BitVec.add_sub_cancel, BitVec.ofNat_add]
  simp only [inRange, hoff, BitVec.toNat_ofNat, decide_eq_true_eq]
  exact (Nat.mod_le _ _).trans_lt (by omega)

/-- The buffer of a step that runs a microinstruction is that of the build in progress. -/
theorem stepBuffer_micro {s u : State} {i : Instr} (hf : fetch s = .run i u) (hm : isMicro i = true) :
    stepBuffer s = s.build.map fun b => (b.bufBase, b.cap) := by
  unfold stepBuffer
  rw [hf]
  cases i
  case build | buildZf | start | poll | finish | killCommand => cases hm
  all_goals rfl

/-- A microinstruction writes its bytes at the cursor, inside the buffer of the build in progress. -/
theorem onlyAdds_micro {s₀ s t : State} {i : Instr} (hf : fetch s₀ = .run i s) (hm : isMicro i = true)
    (h : exec i s = .next t) : OnlyAdds (accessLegal s₀) s t := by
  obtain ⟨-, b, hb, -, ⟨hfit, b', -, -, -, -, rfl⟩ | ⟨-, rfl⟩⟩ := exec_micro_next hm h
  · have hbuf : stepBuffer s₀ = some (b.bufBase, b.cap) := by
      obtain ⟨-, -, hbuild, -⟩ := fetch_run_kept hf
      rw [stepBuffer_micro hf hm, ← hbuild, hb]
      rfl
    exact ⟨_, memWriteBytes_bus _ _ s, writeEvents_legal hbuf (by rwa [enc_length])⟩
  · exact .of_bus_eq rfl

/-- A build command writes from its buffer's first byte on, no more than its capacity. -/
theorem onlyAdds_buildEnds {s₀ s t : State} {bufBase : Word} {cap : Nat} (hbuf : stepBuffer s₀ = some (bufBase, cap))
    (h : BuildEnds bufBase cap s t) : OnlyAdds (accessLegal s₀) s t := by
  obtain ⟨-, bs, hlen, ht⟩ := h
  have hbus : t.bus = s.bus ++ writeEvents bufBase bs := by
    rcases ht with ⟨residual, data, -, rfl⟩ | ⟨r, rfl⟩ <;> exact memWriteBytes_bus bufBase bs s
  have hlegal := writeEvents_legal (off := 0) hbuf (by rwa [Nat.zero_add])
  rw [BitVec.add_zero] at hlegal
  exact ⟨_, hbus, hlegal⟩

/-- Whatever the step runs, its accesses are ones the block may make. -/
theorem onlyAdds_exec {s₀ s t : State} {i : Instr} (hs : StateWf s₀) (hf : fetch s₀ = .run i s)
    (h : exec i s = .next t) : OnlyAdds (accessLegal s₀) s t := by
  obtain ⟨hcfg, hctxs, -, -⟩ := fetch_run_kept hf
  have frames : FramesOf s₀ s := ⟨hcfg, hctxs ▸ hs.regBase⟩
  by_cases hm : isMicro i = true
  · exact onlyAdds_micro hf hm h
  · cases i with
    | build req bufBase cap =>
      rcases execBuild_cases req bufBase cap s with ⟨cause, e⟩ | ⟨u, e, hu⟩ <;> cases e.symm.trans h
      · exact .of_bus_eq rfl
      · exact onlyAdds_buildEnds (by rw [stepBuffer, hf]) hu
    | buildZf dst size bufBase cap =>
      rcases execBuildZf_cases dst size bufBase cap s with ⟨cause, e⟩ | ⟨u, e, hu⟩ <;> cases e.symm.trans h
      · exact .of_bus_eq rfl
      · exact onlyAdds_buildEnds (by rw [stepBuffer, hf]) hu
    | start c p => exact onlyAdds_start frames h
    | poll c => exact onlyAdds_poll frames h
    | finish c tmo => exact onlyAdds_finish frames h
    | killCommand c => exact onlyAdds_killCommand frames h
    | _ => exact absurd rfl hm

/-- What the outside world does is no access of the block (R69, R366). -/
theorem afterEvent_bus (e : HostEvent) (s : State) : (afterEvent e s).bus = s.bus := by
  cases e with
  | agentWrite r v =>
    have stores : (agentStores r v s).bus = s.bus := by
      unfold agentStores
      split_ifs <;> simp
    have lifts : (liftChannel r s (agentStores r v s)).bus = (agentStores r v s).bus := by
      unfold liftChannel
      split
      · split_ifs <;> rfl
      · rfl
    exact lifts.trans stores
  | _ => rfl

/-- Settles O54: an instruction's accesses are legal, and without an instruction there are none. -/
theorem everyAccessIsOneTheBlockMayMake : Obligations.EveryAccessIsOneTheBlockMayMake := by
  intro s t hs h
  rcases step_next_cases h with ⟨i, u, hf, he⟩ | hd
  · obtain ⟨ev, hev, hlegal⟩ := onlyAdds_exec hs hf he
    exact ⟨ev, by rw [hev, (fetch_run_kept hf).2.2.2], hlegal⟩
  · have hbus : t.bus = s.bus := by
      rcases fetch_done hd with rfl | ⟨e, rest, -, rfl⟩
      · rfl
      · exact afterEvent_bus e _
    exact OnlyAdds.of_bus_eq hbus

end Sys2Proof.Machine
end

section
/-! PROOF. A host write (R69, R365): what its step leaves, in an open transfer's program and elsewhere; and that ENV_PROTOCOL,
once lifted, stays lifted over every step (U1; log 16). -/

namespace Sys2Proof.Machine

/-! ### What a host write leaves -/

/-- A store is a run of one byte but for the access it makes: it reads back and disturbs what it reaches into. -/
theorem storeByte_stores (a : Word) (v : Byte) (s : State) :
    storedBytes s (storeByte a v s) a [v] ∧ storeDisturbs s (storeByte a v s) a 1 := by
  obtain ⟨hstored, hdisturbs⟩ := memWriteBytes_stores a [v] s (by simp)
  exact ⟨storedBytes_congr (t := memWrite8 a v s) rfl hstored, hdisturbs⟩

/-- A destination is among the bytes a transfer may write, also where R371 widens them to all of its ranges. -/
theorem mayWrite_whole_of_dst {i : Issue} {b : Word} (h : inRange i.data.dst i.data.size b = true) :
    mayWrite wholeLength i b = true := by
  unfold mayWrite
  split_ifs with ho
  · exact List.any_eq_true.2 ⟨(i.data.dst, i.data.size), by simp [transferRanges], h⟩
  · exact h

/-- While the flag is set ENV_PROTOCOL holds for no read (log 16). -/
theorem protocolOn_of_wild {s : State} (h : s.wild = true) : protocolOn s = false := by
  simp [protocolOn, h]

/-- A store into the program of an open transfer lifts ENV_PROTOCOL, and no byte of that transfer's destination is known
(U1, U14). -/
theorem storeByte_mutating {s : State} {i : Issue} {a : Word} (v : Byte) (hi : i ∈ s.issues) (hm : mutates a i = true) :
    protocolOn (storeByte a v s) = false
    ∧ ∀ b, inRange i.data.dst i.data.size b = true → byteAt (storeByte a v s) b = none := by
  refine ⟨protocolOn_of_wild ?_, fun b hb => ?_⟩
  · rw [storeByte_wild, List.any_eq_true.2 ⟨i, hi, hm⟩, Bool.or_true]
  · have hdisturbed : s.issues.any (fun j => mutates a j && mayWrite wholeLength j b) = true :=
      List.any_eq_true.2 ⟨i, hi, by rw [hm, mayWrite_whole_of_dst hb]; rfl⟩
    rw [byteAt_storeByte, if_pos hdisturbed]

/-! ### Operations and the flag -/

/-- ENV_PROTOCOL lifted before is lifted after (log 16). -/
def StaysLifted (s t : State) : Prop := s.wild = true → t.wild = true

theorem StaysLifted.of_eq {s t : State} (h : t.wild = s.wild) : StaysLifted s t := fun hs => h.trans hs

theorem StaysLifted.trans {s t u : State} (h : StaysLifted s t) (h' : StaysLifted t u) : StaysLifted s u := h' ∘ h

theorem StaysLifted.deliver {s t : State} (h : StaysLifted s t) (r : Result) : StaysLifted s (deliver r t) := h

theorem EnvOnly.staysLifted {s t : State} (h : EnvOnly s t) : StaysLifted s t := .of_eq h.wild

theorem staysLifted_memWriteBytes (a : Word) (bs : List Byte) (s : State) : StaysLifted s (memWriteBytes a bs s) := by
  intro h
  rw [memWriteBytes_wild, h, Bool.true_or]

/-- The beginning of transfers may lift ENV_PROTOCOL (R371), never restore it. -/
theorem staysLifted_transfersBegin (is : List Issue) (s : State) : StaysLifted s (transfersBegin is s) := by
  intro h
  obtain ⟨-, hw, -⟩ := transfersBegin_spec is s
  rw [hw, h, Bool.true_or]

theorem staysLifted_goIssued (c : Nat) (ctx : ExecutionContext) (p : Microprogram) (kept : List Issue) (s : State) :
    StaysLifted s (goIssued c ctx p kept s) :=
  (StaysLifted.of_eq (setContext_wild c _ s)).trans (staysLifted_transfersBegin _ _)

/-- Closing transfers and disturbing them are not what lifts ENV_PROTOCOL (R365, R367). -/
theorem StaysLifted.clearInflight {s t : State} (h : StaysLifted s t) (c : Nat) (ctx : ExecutionContext) :
    StaysLifted s (clearInflight c ctx t) := h

theorem StaysLifted.closeTransfer {s t : State} (h : StaysLifted s t) (c : Nat) (ctx : ExecutionContext) :
    StaysLifted s (closeTransfer c ctx t) := h

theorem StaysLifted.forgetKilled {s t : State} (h : StaysLifted s t) (ctx : ExecutionContext) :
    StaysLifted s (forgetKilled ctx t) := h

/-! ### Instructions and the flag -/

theorem staysLifted_buildEnds {bufBase : Word} {cap : Nat} {s t : State} (h : BuildEnds bufBase cap s t) :
    StaysLifted s t := by
  obtain ⟨-, bs, -, ⟨residual, data, -, rfl⟩ | ⟨r, rfl⟩⟩ := h
  · exact staysLifted_memWriteBytes bufBase bs s
  · exact staysLifted_memWriteBytes bufBase bs s

theorem staysLifted_micro {i : Instr} {s t : State} (hm : isMicro i = true) (h : exec i s = .next t) :
    StaysLifted s t := by
  obtain ⟨-, b, -, -, ⟨-, b', -, -, -, -, rfl⟩ | ⟨-, rfl⟩⟩ := exec_micro_next hm h
  · exact staysLifted_memWriteBytes _ _ s
  · exact .of_eq rfl

theorem staysLifted_start {c : Nat} {p : Microprogram} {s t : State} (h : execStart c p s = .next t) :
    StaysLifted s t := by
  rcases execStart_cases c p s with e | e | ⟨ctx, -, -, -, -, e⟩ <;> rw [e] at h <;> cases h
  · exact .of_eq rfl
  · have hread : EnvOnly s (readState ctx s).2 := envOnly_readState ctx s
    rcases startChannel_cases c ctx p s with ⟨-, e⟩ | ⟨-, -, e⟩ | ⟨-, -, busy, idle, t, hw, e⟩
      | ⟨-, -, busy, last, t, hw, e⟩ <;> rw [e]
    · exact .of_eq rfl
    · exact hread.staysLifted.deliver _
    · have hgo := (hread.trans (envOnly_injection hw)).trans (envOnly_write32 ctx.regBase .dbgCmd 0 t)
      exact (hgo.staysLifted.trans (staysLifted_goIssued _ _ _ _ _)).deliver _
    · have hnote := (hread.trans (envOnly_injection hw)).trans (envOnly_noteInjection t)
      exact (hnote.staysLifted.trans (staysLifted_transfersBegin _ _)).deliver _

theorem staysLifted_poll {c : Nat} {s t : State} (h : execPoll c s = .next t) : StaysLifted s t := by
  rcases execPoll_cases c s with e | ⟨ctx, -, -, e⟩ <;> rw [e] at h <;> cases h
  · exact .of_eq rfl
  · exact (envOnly_readState ctx s).staysLifted.deliver _

theorem staysLifted_finish {c : Nat} {tmo : Option Nat} {s t : State} (h : execFinish c tmo s = .next t) :
    StaysLifted s t := by
  rcases execFinish_cases c tmo s with e | ⟨ctx, k, -, -, -, hk⟩
  · rw [e] at h
    cases h
    exact .of_eq rfl
  · have hread : EnvOnly s (readState ctx (afterPolls ctx k s)).2 :=
      (afterPolls_env ctx k s).trans (envOnly_readState ctx _)
    rcases hk with ⟨-, e⟩ | ⟨-, e⟩ | ⟨n, -, e⟩ | ⟨-, -, e⟩ <;> rw [e] at h <;> cases h
    · exact (hread.staysLifted.closeTransfer c ctx).deliver _
    · have hfault := (hread.trans (envOnly_read32 ctx.regBase (.ftr ctx.chan) _)).trans
        (envOnly_read32 ctx.regBase (.cpc ctx.chan) _)
      exact (hfault.staysLifted.closeTransfer c ctx).deliver _
    · exact hread.staysLifted.deliver _
    · exact ((envOnly_readState ctx s).trans (envOnly_delay _)).staysLifted

/-- kill() after its wait: what it disturbs are transfers and memory (R367), not the flag. -/
theorem staysLifted_killSettled (c : Nat) (ctx : ExecutionContext) (st : ChannelState) (s : State) :
    StaysLifted s (killSettled c ctx st s) := by
  rcases killSettled_cases c ctx st s with ⟨-, e⟩ | ⟨-, busy, idle, t, hw, e⟩ | ⟨-, busy, last, t, hw, e⟩ <;> rw [e]
  · split_ifs <;> exact .of_eq rfl
  · have hkill := (envOnly_injection hw).trans (envOnly_write32 ctx.regBase .dbgCmd 0 t)
    exact ((hkill.staysLifted.forgetKilled ctx).clearInflight c ctx).deliver _
  · have hnote := (envOnly_injection hw).trans (envOnly_noteInjection t)
    exact (hnote.staysLifted.forgetKilled ctx).deliver _

theorem staysLifted_killCommand {c : Nat} {s t : State} (h : execKillCommand c s = .next t) : StaysLifted s t := by
  rcases execKillCommand_cases c s with e | ⟨ctx, -, -, e⟩ <;> rw [e] at h <;> cases h
  · exact .of_eq rfl
  · unfold killThread
    rcases killWait_cases ctx s with ⟨r, hr, -, e⟩ | ⟨k, e⟩ <;> rw [e]
    · exact (hr.trans (envOnly_readState ctx r)).staysLifted.trans (staysLifted_killSettled c ctx _ _)
    · exact (((envOnly_readState ctx s).trans (afterPolls_env ctx k _)).trans (envOnly_readState ctx _)).staysLifted.deliver _

/-- No instruction that answers a next state restores ENV_PROTOCOL. -/
theorem staysLifted_exec {i : Instr} {s t : State} (h : exec i s = .next t) : StaysLifted s t := by
  by_cases hm : isMicro i = true
  · exact staysLifted_micro hm h
  · cases i with
    | build req bufBase cap =>
      rcases execBuild_cases req bufBase cap s with ⟨cause, e⟩ | ⟨u, e, hu⟩ <;> cases e.symm.trans h
      · exact .of_eq rfl
      · exact staysLifted_buildEnds hu
    | buildZf dst size bufBase cap =>
      rcases execBuildZf_cases dst size bufBase cap s with ⟨cause, e⟩ | ⟨u, e, hu⟩ <;> cases e.symm.trans h
      · exact .of_eq rfl
      · exact staysLifted_buildEnds hu
    | start c p => exact staysLifted_start h
    | poll c => exact staysLifted_poll h
    | finish c tmo => exact staysLifted_finish h
    | killCommand c => exact staysLifted_killCommand h
    | _ => exact absurd rfl hm

/-! ### Events and the flag -/

/-- Another agent's write touches the channel's own flag (U3), not this one. -/
theorem agentWrites_wild (r : DmacReg) (v : Word) (s : State) : (agentWrites r v s).wild = s.wild := by
  have hstores : (agentStores r v s).wild = s.wild := by
    unfold agentStores
    split_ifs
    · rw [noteInjection_wild, storeReg_wild]
    · exact storeReg_wild r v s
  have hlift : (liftChannel r s (agentStores r v s)).wild = (agentStores r v s).wild := by
    unfold liftChannel
    split
    · split_ifs
      · exact noteChan_wild _ _ _
      · rfl
    · rfl
  exact hlift.trans hstores

/-- No event restores ENV_PROTOCOL, a reset of the DMAC or of the block neither (R360, R362). -/
theorem staysLifted_afterEvent (e : HostEvent) (s : State) : StaysLifted s (afterEvent e s) := by
  cases e with
  | hostWrite a v => exact fun h => (storeByte_wild a v s).trans (by rw [h, Bool.true_or])
  | agentWrite r v => exact .of_eq (agentWrites_wild r v s)
  | create | command | dmacReset | blockReset => exact .of_eq rfl

/-- The flag is for good: every step that answers a next state leaves it set (U1; log 16). -/
theorem staysLifted_step {s t : State} (h : step s = .next t) : StaysLifted s t := by
  rcases step_next_cases h with ⟨i, u, hf, he⟩ | hd
  · obtain ⟨-, hu⟩ := fetch_run hf
    have hfetch : u.wild = s.wild := (congrArg State.wild hu : _)
    exact (StaysLifted.of_eq hfetch).trans (staysLifted_exec he)
  · rcases fetch_done hd with rfl | ⟨e, rest, -, rfl⟩
    · exact .of_eq rfl
    · exact staysLifted_afterEvent e { s with inbox := rest }

/-- Settles O58: the host write's step is `storeByte` on the state without the event, and the flag is for good. -/
theorem mutatingARunningProgramLiftsTheProtocol : Obligations.MutatingARunningProgramLiftsTheProtocol := by
  refine ⟨fun s rest a v ha he hi => ?_, fun s t hw h => staysLifted_step h hw, fun s => protocolOn_of_wild⟩
  obtain ⟨hstored, hdisturbs⟩ := storeByte_stores a v { s with inbox := rest }
  refine ⟨_, step_event ha he hi nofun, rfl, fun i him hopen hin => ?_, hstored, hdisturbs, rfl⟩
  have hm : mutates a i = true := by rw [mutates, hopen, hin, Bool.true_and]
  exact storeByte_mutating v him hm

end Sys2Proof.Machine
end

section
/-! PROOF. The decoder and the encoder (R80 to R92): what each format reads, that the decoder reads a microinstruction exactly
where its encoding stands, and that programs and commands come back from their carriers. -/

namespace Sys2Proof.Machine

/-! ### What each format reads -/

/-- Format F2P reads the number in byte 1 (R81). -/
theorem decodeF2P_eq_instr_iff {b0 : Byte} {mk : Nat → Instr} {bs : List Byte} {i : Instr} {n : Nat} :
    decodeF2P b0 mk bs = .instr i n ↔ ∃ p ≤ 31, ∃ rest, i = mk p ∧ n = 2 ∧ bs = fieldHi5 p :: rest := by
  constructor
  · intro h
    cases bs with
    | nil => cases h
    | cons b1 rest =>
      simp only [decodeF2P] at h
      split at h
      case isTrue hlow =>
        obtain ⟨hp, hb⟩ := fieldHi5_of_byte b1 hlow
        cases h
        exact ⟨_, hp, rest, rfl, rfl, by rw [hb]⟩
      case isFalse => cases h
  · rintro ⟨p, hp, rest, rfl, rfl, rfl⟩
    obtain ⟨hlow, hread⟩ := fieldHi5_reads hp
    simp [decodeF2P, hlow, hread]

/-- Format F2I reads byte 1 (R81). -/
theorem decodeF2I_eq_instr_iff {mk : Nat → Instr} {bs : List Byte} {i : Instr} {n : Nat} :
    decodeF2I mk bs = .instr i n ↔ ∃ d ≤ 255, ∃ rest, i = mk d ∧ n = 2 ∧ bs = BitVec.ofNat 8 d :: rest := by
  constructor
  · intro h
    cases bs with
    | nil => cases h
    | cons b1 rest =>
      cases h
      exact ⟨b1.toNat, Nat.le_of_lt_succ b1.isLt, rest, rfl, rfl, by simp⟩
  · rintro ⟨d, hd, rest, rfl, rfl, rfl⟩
    have hread : (BitVec.ofNat 8 d).toNat = d := by simp; omega
    simp [decodeF2I, hread]

/-- The count of LP is read one above byte 1 (R84). -/
theorem decodeF2I_count {mk : Nat → Instr} {c : Nat} (rest : List Byte) (hc : 1 ≤ c ∧ c ≤ 256) :
    decodeF2I (fun n => mk (n + 1)) (BitVec.ofNat 8 (c - 1) :: rest) = .instr (mk c) 2 := by
  obtain ⟨h1, h256⟩ := hc
  refine decodeF2I_eq_instr_iff.2 ⟨c - 1, by omega, rest, ?_, rfl, rfl⟩
  rw [Nat.sub_add_cancel h1]

/-- What follows byte 0 in format F6 is too short, or a byte 1 and an immediate (R81, R83). -/
theorem f6_cases (bs : List Byte) :
    bs.length < 5 ∨ ∃ (b1 : Byte) (w : Word) (rest : List Byte), bs = b1 :: (wordBytes w ++ rest) := by
  match bs with
  | [] | [_] | [_, _] | [_, _, _] | [_, _, _, _] => exact Or.inl (by simp)
  | b1 :: b2 :: b3 :: b4 :: b5 :: rest =>
    exact Or.inr ⟨b1, leWord b2 b3 b4 b5, rest, by rw [wordBytes_leWord]; rfl⟩

theorem decodeMov_short {b0 : Byte} {bs : List Byte} (h : bs.length < 5) : decodeMov b0 bs = .truncated := by
  unfold decodeMov
  split
  · simp only [List.length_cons] at h
    omega
  · rfl

theorem decodeGo_short {b0 : Byte} {mk : Nat → Word → Instr} {bs : List Byte} (h : bs.length < 5) :
    decodeGo b0 mk bs = .truncated := by
  unfold decodeGo
  split
  · simp only [List.length_cons] at h
    omega
  · rfl

/-- MOV with its immediate whole: byte 1 selects the register (R86). -/
theorem decodeMov_word (b0 b1 : Byte) (w : Word) (rest : List Byte) :
    decodeMov b0 (b1 :: (wordBytes w ++ rest))
      = if b1 = 0x00 then .instr (.movSar w) 6
        else if b1 = 0x01 then .instr (.movCcr w) 6
        else if b1 = 0x02 then .instr (.movDar w) 6
        else .unknown2 b0 b1 := by
  simp only [wordBytes, List.cons_append, List.nil_append, decodeMov, leWord_wordBytes]

/-- GO with its address whole: byte 1 is the channel (R86). -/
theorem decodeGo_word (b0 : Byte) (mk : Nat → Word → Instr) (b1 : Byte) (w : Word) (rest : List Byte) :
    decodeGo b0 mk (b1 :: (wordBytes w ++ rest))
      = if b1.extractLsb' 3 5 = 0 then .instr (mk b1.toNat w) 6 else .unknown2 b0 b1 := by
  simp only [wordBytes, List.cons_append, List.nil_append, decodeGo, leWord_wordBytes]

/-- MOV reads one of its three selectors and the immediate. -/
theorem decodeMov_eq_instr {b0 : Byte} {bs : List Byte} {i : Instr} {n : Nat} (h : decodeMov b0 bs = .instr i n) :
    ∃ w rest, n = 6 ∧ ((i = .movSar w ∧ bs = 0x00 :: (wordBytes w ++ rest))
      ∨ (i = .movCcr w ∧ bs = 0x01 :: (wordBytes w ++ rest))
      ∨ (i = .movDar w ∧ bs = 0x02 :: (wordBytes w ++ rest))) := by
  rcases f6_cases bs with hshort | ⟨b1, w, rest, rfl⟩
  · rw [decodeMov_short hshort] at h
    cases h
  · rw [decodeMov_word] at h
    refine ⟨w, rest, ?_⟩
    split at h
    case isTrue hsar => cases h; simp [hsar]
    split at h
    case isTrue hccr => cases h; simp [hccr]
    split at h
    case isTrue hdar => cases h; simp [hdar]
    cases h

/-- GO reads a channel number and the address. -/
theorem decodeGo_eq_instr_iff {b0 : Byte} {mk : Nat → Word → Instr} {bs : List Byte} {i : Instr} {n : Nat} :
    decodeGo b0 mk bs = .instr i n
      ↔ ∃ c ≤ 7, ∃ w rest, i = mk c w ∧ n = 6 ∧ bs = BitVec.ofNat 8 c :: (wordBytes w ++ rest) := by
  constructor
  · intro h
    rcases f6_cases bs with hshort | ⟨b1, w, rest, rfl⟩
    · rw [decodeGo_short hshort] at h
      cases h
    · rw [decodeGo_word] at h
      split at h
      case isTrue hhigh =>
        cases h
        exact ⟨b1.toNat, goByte_of_byte b1 hhigh, w, rest, rfl, rfl, by simp⟩
      case isFalse => cases h
  · rintro ⟨c, hc, w, rest, rfl, rfl, rfl⟩
    obtain ⟨hhigh, hread⟩ := goByte_reads hc
    rw [decodeGo_word, if_pos hhigh, hread]

/-! ### Where the decoder reads an instruction -/

/-- Bytes that begin with the encoding of a microinstruction in the domains of R86, `n` bytes long. -/
def BeginsWith (bs : List Byte) (i : Instr) (n : Nat) : Prop :=
  isMicro i = true ∧ i.wf = true ∧ n = i.size ∧ ∃ rest, bs = enc i ++ rest

theorem beginsWith_of_enc {i : Instr} {bs : List Byte} (rest : List Byte) (hm : isMicro i = true) (hw : i.wf = true)
    (he : enc i = bs) : BeginsWith (bs ++ rest) i bs.length :=
  ⟨hm, hw, by rw [← he, enc_length], rest, by rw [he]⟩

/-- A row of format F2P. -/
theorem beginsWith_of_decodeF2P {b0 : Byte} {mk : Nat → Instr} {rest : List Byte} {i : Instr} {n : Nat}
    (h : decodeF2P b0 mk rest = .instr i n) (hm : ∀ p, isMicro (mk p) = true) (hw : ∀ p ≤ 31, (mk p).wf = true)
    (he : ∀ p, enc (mk p) = [b0, fieldHi5 p]) : BeginsWith (b0 :: rest) i n := by
  obtain ⟨p, hp, tail, rfl, rfl, rfl⟩ := decodeF2P_eq_instr_iff.1 h
  exact beginsWith_of_enc tail (hm p) (hw p hp) (he p)

/-- A row of format F2I. -/
theorem beginsWith_of_decodeF2I {b0 : Byte} {mk : Nat → Instr} {rest : List Byte} {i : Instr} {n : Nat}
    (h : decodeF2I mk rest = .instr i n) (hm : ∀ d, isMicro (mk d) = true) (hw : ∀ d ≤ 255, (mk d).wf = true)
    (he : ∀ d, enc (mk d) = [b0, BitVec.ofNat 8 d]) : BeginsWith (b0 :: rest) i n := by
  obtain ⟨d, hd, tail, rfl, rfl, rfl⟩ := decodeF2I_eq_instr_iff.1 h
  exact beginsWith_of_enc tail (hm d) (hw d hd) (he d)

/-- The rows of MOV. -/
theorem beginsWith_of_decodeMov {rest : List Byte} {i : Instr} {n : Nat} (h : decodeMov 0xBC rest = .instr i n) :
    BeginsWith (0xBC :: rest) i n := by
  obtain ⟨w, tail, rfl, ⟨rfl, rfl⟩ | ⟨rfl, rfl⟩ | ⟨rfl, rfl⟩⟩ := decodeMov_eq_instr h <;>
    exact beginsWith_of_enc tail rfl rfl rfl

/-- A row of GO. -/
theorem beginsWith_of_decodeGo {b0 : Byte} {mk : Nat → Word → Instr} {rest : List Byte} {i : Instr} {n : Nat}
    (h : decodeGo b0 mk rest = .instr i n) (hm : ∀ c w, isMicro (mk c w) = true)
    (hw : ∀ c ≤ 7, ∀ w, (mk c w).wf = true) (he : ∀ c w, enc (mk c w) = b0 :: BitVec.ofNat 8 c :: wordBytes w) :
    BeginsWith (b0 :: rest) i n := by
  obtain ⟨c, hc, w, tail, rfl, rfl, rfl⟩ := decodeGo_eq_instr_iff.1 h
  exact beginsWith_of_enc tail (hm c w) (hw c hc w) (he c w)

/-- Whatever decodes begins with the encoding of what it decodes to, row by row of R87. -/
theorem beginsWith_of_decode {bs : List Byte} {i : Instr} {n : Nat} (h : decode bs = .instr i n) :
    BeginsWith bs i n := by
  cases bs with
  | nil => cases h
  | cons b0 rest =>
    simp only [decode] at h
    split at h
    case h_27 => cases h
    all_goals
      rename_i hb0
      obtain rfl := byte_of_toNat hb0
    -- the twelve rows of format F1
    case h_1 | h_2 | h_3 | h_4 | h_5 | h_6 | h_7 | h_8 | h_9 | h_10 | h_11 | h_12 =>
      cases h
      exact beginsWith_of_enc rest rfl rfl rfl
    -- LP
    case h_13 | h_14 =>
      exact beginsWith_of_decodeF2I h (fun _ => rfl) (fun d hd => (countOk_iff _).2 (by omega)) (fun _ => rfl)
    -- STP, WFP and FLUSHP; SEV
    case h_15 | h_16 | h_17 | h_18 | h_19 | h_21 =>
      exact beginsWith_of_decodeF2P h (fun _ => rfl) (fun p => (periphOk_iff p).2) (fun _ => rfl)
    case h_20 => exact beginsWith_of_decodeF2P h (fun _ => rfl) (fun e => (eventOk_iff e).2) (fun _ => rfl)
    -- LPEND
    case h_22 | h_23 =>
      exact beginsWith_of_decodeF2I h (fun _ => rfl) (fun d => (bjumpOk_iff d).2) (fun _ => rfl)
    -- GO, MOV
    case h_24 | h_25 =>
      exact beginsWith_of_decodeGo h (fun _ _ => rfl) (fun c hc _ => (chanOk_iff c).2 hc) (fun _ _ => rfl)
    case h_26 => exact beginsWith_of_decodeMov h

/-- An encoding decodes to its instruction, whatever bytes follow (R90). -/
theorem decode_enc_append {i : Instr} (hm : isMicro i = true) (hw : i.wf = true) (rest : List Byte) :
    decode (enc i ++ rest) = .instr i i.size := by
  cases i
  case movSar w => exact decodeMov_word 0xBC 0x00 w rest
  case movCcr w => exact decodeMov_word 0xBC 0x01 w rest
  case movDar w => exact decodeMov_word 0xBC 0x02 w rest
  case goSecure c w | goNs c w =>
    exact decodeGo_eq_instr_iff.2 ⟨c, (chanOk_iff c).1 hw, w, rest, rfl, rfl, rfl⟩
  case stps p | stpb p | flushp p | wfpSingle p | wfpBurst p | wfpPeriph p =>
    exact decodeF2P_eq_instr_iff.2 ⟨p, (periphOk_iff p).1 hw, rest, rfl, rfl, rfl⟩
  case sev e => exact decodeF2P_eq_instr_iff.2 ⟨e, (eventOk_iff e).1 hw, rest, rfl, rfl, rfl⟩
  case lpLc0 c | lpLc1 c => exact decodeF2I_count rest ((countOk_iff c).1 hw)
  case lpendLc0 d | lpendLc1 d =>
    exact decodeF2I_eq_instr_iff.2 ⟨d, (bjumpOk_iff d).1 hw, rest, rfl, rfl, rfl⟩
  case build | buildZf | start | poll | finish | killCommand => cases hm
  all_goals rfl

/-- The decoder reads an instruction exactly where its encoding stands (R88, R90). -/
theorem decode_eq_instr_iff {bs : List Byte} {i : Instr} {n : Nat} :
    decode bs = .instr i n ↔ BeginsWith bs i n := by
  refine ⟨beginsWith_of_decode, ?_⟩
  rintro ⟨hm, hw, rfl, rest, rfl⟩
  exact decode_enc_append hm hw rest

/-- An encoding alone decodes to its instruction. -/
theorem decode_enc {i : Instr} (hm : isMicro i = true) (hw : i.wf = true) : decode (enc i) = .instr i i.size :=
  decode_eq_instr_iff.2 ⟨hm, hw, rfl, [], (List.append_nil _).symm⟩

/-- Emission is injective (R90): equal bytes decode to the same instruction. -/
theorem enc_injective {i j : Instr} (hmi : isMicro i = true) (hwi : i.wf = true) (hmj : isMicro j = true)
    (hwj : j.wf = true) (h : enc i = enc j) : i = j := by
  have hi := decode_enc hmi hwi
  rw [h, decode_enc hmj hwj] at hi
  cases hi
  rfl

/-! ### Programs -/

/-- Walking a program takes an encoding off its front (R88). -/
theorem decodeProgram_enc_append {i : Instr} (hm : isMicro i = true) (hw : i.wf = true) (fuel : Nat)
    (rest : List Byte) :
    decodeProgram (fuel + 1) (enc i ++ rest) = (decodeProgram fuel rest).map (fun is => i :: is) := by
  have hd := decode_enc_append hm hw rest
  have hdrop : (enc i ++ rest).drop i.size = rest := List.drop_left' (enc_length i)
  obtain ⟨b, tail, hbs⟩ := List.exists_cons_of_ne_nil (ne_nil_of_decode_instr hd)
  rw [hbs] at hd hdrop ⊢
  simp only [decodeProgram, hd, hdrop]

/-- A concatenation of encodings decodes to the sequence, with any fuel that is as much as its bytes (R90). -/
theorem decodeProgram_programBytes {is : List Instr} (h : ∀ i ∈ is, isMicro i = true ∧ i.wf = true) {fuel : Nat}
    (hf : (programBytes is).length ≤ fuel) : decodeProgram fuel (programBytes is) = some is := by
  induction is generalizing fuel with
  | nil => cases fuel <;> rfl
  | cons i is ih =>
    obtain ⟨⟨hm, hw⟩, his⟩ := List.forall_mem_cons.1 h
    have hbytes : programBytes (i :: is) = enc i ++ programBytes is := List.flatMap_cons
    rw [hbytes, List.length_append, enc_length] at hf
    have hpos := size_pos hm
    obtain ⟨fuel, rfl⟩ : ∃ k, fuel = k + 1 := ⟨fuel - 1, by omega⟩
    rw [hbytes, decodeProgram_enc_append hm hw, ih his (by omega), Option.map_some]

/-- Settles O1: the round trip per instruction, and its two consequences. -/
theorem emittedMicroinstructionsDecodeBack : Obligations.EmittedMicroinstructionsDecodeBack :=
  ⟨fun _ rest hm hw => decode_enc_append hm hw rest, fun _ _ => enc_injective,
    fun _ h => decodeProgram_programBytes h le_rfl⟩

/-- Settles O3: the bytes read are the encoding at the front. -/
theorem decodedBytesAreTheEncoding : Obligations.DecodedBytesAreTheEncoding := by
  intro bs i n h
  obtain ⟨hm, hw, rfl, rest, rfl⟩ := decode_eq_instr_iff.1 h
  refine ⟨hm, hw, rfl, ?_, (List.take_left' (enc_length i)).symm⟩
  rw [List.length_append, enc_length]
  exact Nat.le_add_right _ _

/-! ### Carriers -/

theorem encode_micro {i : Instr} (h : isMicro i = true) : encode i = .bytes (enc i) := by
  cases i
  case build | buildZf | start | poll | finish | killCommand => cases h
  all_goals rfl

/-- A command comes back from its transaction with the operands R92 lists for it. -/
theorem decodeWire_encode_command {i : Instr} (h : isMicro i = false) : decodeWire (encode i) = .instr i i.size := by
  cases i
  case build | buildZf | start | poll | finish | killCommand => rfl
  all_goals cases h

/-- Settles O2: a microinstruction by the round trip of its bytes, a command by its transaction. -/
theorem everyInstructionSurvivesItsCarrier : Obligations.EveryInstructionSurvivesItsCarrier := by
  intro i hw
  cases hm : isMicro i with
  | true =>
    rw [encode_micro hm]
    exact decode_enc hm hw
  | false => exact decodeWire_encode_command hm

end Sys2Proof.Machine
end

section
/-! PROOF. What the decoder answers where there is no instruction (R88, R89); lengths and listed words (R80, R87); reserved
command codes (R92). -/

namespace Sys2Proof.Machine

/-! ### Where the decoder reads no instruction -/

/-- A byte 0 is Unknown whatever follows it, or begins an instruction whose other bytes are 0. -/
theorem decode_zeros_or_unknown (b0 : Byte) (rest : List Byte) :
    decode (b0 :: rest) = .unknown b0 ∨ ∃ i n, decode (b0 :: List.replicate 5 0) = .instr i n := by
  simp only [decode]
  generalize b0.toNat = k
  split
  case h_27 => exact Or.inl rfl
  all_goals exact Or.inr ⟨_, _, rfl⟩

/-- A byte 0 that begins no encoding is Unknown (R88, R89). -/
theorem decode_unknown {b0 : Byte} (h : ∀ i, isMicro i = true → i.wf = true → (enc i).head? ≠ some b0)
    (rest : List Byte) : decode (b0 :: rest) = .unknown b0 := by
  refine (decode_zeros_or_unknown b0 rest).resolve_right ?_
  rintro ⟨i, n, hd⟩
  obtain ⟨hm, hw, -, tail, hbytes⟩ := decode_eq_instr_iff.1 hd
  have hne : enc i ≠ [] := List.ne_nil_of_length_pos (by rw [enc_length]; exact size_pos hm)
  obtain ⟨b, bs, henc⟩ := List.exists_cons_of_ne_nil hne
  rw [henc] at hbytes
  injection hbytes with hhead
  exact h i hm hw (by rw [henc, hhead]; rfl)

/-- An encoding cut short is Truncated (R88). -/
theorem decode_take_enc {i : Instr} {k : Nat} (hk : k < i.size) : decode ((enc i).take k) = .truncated := by
  cases k with
  | zero => rfl
  | succ k =>
    cases i
    case movSar | movCcr | movDar =>
      exact decodeMov_short ((List.length_take_le k _).trans_lt (Nat.lt_of_succ_lt_succ hk))
    case goSecure | goNs =>
      exact decodeGo_short ((List.length_take_le k _).trans_lt (Nat.lt_of_succ_lt_succ hk))
    case stps | stpb | flushp | wfpSingle | wfpBurst | wfpPeriph | sev | lpLc0 | lpLc1 | lpendLc0 | lpendLc1 =>
      obtain rfl : k = 0 := Nat.lt_one_iff.1 (Nat.lt_of_succ_lt_succ hk)
      rfl
    all_goals simp [Instr.size] at hk

/-- An F2P byte 1 with bits [2:0] not 0 is Unknown (R88). -/
theorem decodeF2P_unknown (b0 : Byte) (mk : Nat → Instr) {b1 : Byte} (rest : List Byte) (h : b1.toNat % 8 ≠ 0) :
    decodeF2P b0 mk (b1 :: rest) = .unknown2 b0 b1 := by
  refine if_neg fun hlow => h ?_
  simpa using congrArg BitVec.toNat hlow

/-- A GO byte 1 with bits [7:3] not 0 is Unknown (R88). -/
theorem decodeGo_unknown (b0 : Byte) (mk : Nat → Word → Instr) {b1 : Byte} (b2 b3 b4 b5 : Byte) (rest : List Byte)
    (h : 8 ≤ b1.toNat) : decodeGo b0 mk (b1 :: b2 :: b3 :: b4 :: b5 :: rest) = .unknown2 b0 b1 := by
  refine if_neg fun hhigh => ?_
  have := goByte_of_byte b1 hhigh
  omega

/-- A MOV selector above 2 is Unknown (R86, R88). -/
theorem decodeMov_unknown (b0 : Byte) {b1 : Byte} (b2 b3 b4 b5 : Byte) (rest : List Byte) (h : 3 ≤ b1.toNat) :
    decodeMov b0 (b1 :: b2 :: b3 :: b4 :: b5 :: rest) = .unknown2 b0 b1 := by
  have hne : ∀ c : Byte, c.toNat < 3 → b1 ≠ c := by
    rintro c hc rfl
    omega
  exact (if_neg (hne 0 (by decide))).trans ((if_neg (hne 1 (by decide))).trans (if_neg (hne 2 (by decide))))

/-- Settles O4: each format's rejections, at the bytes 0 of its rows. -/
theorem decoderRejectsByName : Obligations.DecoderRejectsByName := by
  refine ⟨rfl, fun b0 rest h => decode_unknown h rest, fun i k _ _ hk => decode_take_enc hk,
    fun b0 b1 rest hb0 h => ?_, fun b1 b2 b3 b4 b5 rest h => decodeMov_unknown _ b2 b3 b4 b5 rest h,
    fun b0 b1 b2 b3 b4 b5 rest hb0 h => ?_⟩
  · simp only [List.mem_cons, List.not_mem_nil, or_false] at hb0
    rcases hb0 with rfl | rfl | rfl | rfl | rfl | rfl | rfl <;> exact decodeF2P_unknown _ _ rest h
  · simp only [List.mem_cons, List.not_mem_nil, or_false] at hb0
    rcases hb0 with rfl | rfl <;> exact decodeGo_unknown _ _ b2 b3 b4 b5 rest h

/-! ### Lengths and listed words -/

/-- Byte 0 of an encoding, followed by zeros, decodes to an instruction of the same length, in its domain or not. -/
theorem decode_head_zeros {i : Instr} (h : isMicro i = true) :
    ∃ b0 j, (enc i).head? = some b0 ∧ decode (b0 :: List.replicate 5 0) = .instr j i.size := by
  cases i
  case build | buildZf | start | poll | finish | killCommand => cases h
  all_goals exact ⟨_, _, rfl, rfl⟩

/-- Byte 0 alone determines the length (R80). -/
theorem size_eq_of_head_eq {i j : Instr} (hi : isMicro i = true) (hj : isMicro j = true)
    (h : (enc i).head? = (enc j).head?) : i.size = j.size := by
  obtain ⟨b, i', hbi, hdi⟩ := decode_head_zeros hi
  obtain ⟨c, j', hcj, hdj⟩ := decode_head_zeros hj
  rw [hbi, hcj, Option.some.injEq] at h
  rw [h, hdj] at hdi
  injection hdi with _ hsize
  exact hsize.symm

/-- Settles O5: the table of lengths by definition, byte 0 by what it decodes to. -/
theorem lengthsAreAsTabled : Obligations.LengthsAreAsTabled :=
  ⟨fun i _ => enc_length i, fun _ _ => ⟨rfl, rfl, rfl, rfl, rfl⟩,
    fun _ => ⟨rfl, rfl, rfl, rfl, rfl, rfl, rfl, rfl, rfl, rfl, rfl⟩, by decide, fun _ _ => size_eq_of_head_eq⟩

/-- Settles O6: each word is the encoding of the instruction listed. -/
theorem listedWordsDecode : Obligations.ListedWordsDecode :=
  ⟨decode_enc (i := .movCcr 0x023DC8F7) rfl rfl, decode_enc (i := .wfpBurst 5) rfl rfl,
    decode_enc (i := .lpLc0 256) rfl rfl, decode_enc (i := .lpendLc1 11) rfl rfl,
    decode_enc (i := .goNs 2 0x12345678) rfl rfl, decode_enc (i := .stz) rfl rfl⟩

/-! ### Reserved command codes -/

/-- Codes 1 to 6 are the commands; the others are reserved (R92). -/
theorem decodeCommand_reserved {tx : Transaction} (h : tx.code.toNat < 1 ∨ 6 < tx.code.toNat) :
    decodeCommand tx = none := by
  unfold decodeCommand
  split
  case h_7 => rfl
  all_goals omega

/-- Settles O8: a reserved code is an event over in its step. -/
theorem reservedCodeReturnsRefused : Obligations.ReservedCodeReturnsRefused := by
  intro s tx rest ha he hi hcode
  refine step_event ha he hi ?_
  rintro _ ⟨⟩
  exact decodeCommand_reserved hcode

end Sys2Proof.Machine
end

section
/-! PROOF. The emitter (R110 to R117, R142 to R148): a microinstruction other than LP and LPEND emits the bytes of its rule
and the builder does nothing after it; and what the emitter refuses (U7, R23). -/

namespace Sys2Proof.Machine

/-! ### What the emitter refuses -/

theorem buildRunning_of_noBuild {s : State} (h : s.build = none) : buildRunning s = false := by
  simp [buildRunning, h]

/-- Settles O15: the emitter looks at the operands first, then at the build. -/
theorem emitterRefusesWhatIsNeverPassed : Obligations.EmitterRefusesWhatIsNeverPassed := by
  refine ⟨fun i s hm hw => ?_, fun i s hm hw hb => ?_⟩
  · rw [exec_micro hm, emitMeaning_illFormed hw]
  · rw [exec_micro hm, emitMeaning_noBuild hw (buildRunning_of_noBuild hb)]

/-! ### Microinstructions that touch no loop frame -/

/-- A 5-bit number in bits [7:3] is eight times the number (R81). -/
theorem fieldHi5_eq_mul (n : Nat) : fieldHi5 n = BitVec.ofNat 8 (n * 8) := by
  apply BitVec.eq_of_toNat_eq
  simp only [fieldHi5, BitVec.toNat_shiftLeft, BitVec.toNat_ofNat, Nat.shiftLeft_eq]
  omega

/-- A well-formed microinstruction after which the builder does nothing emits its encoding (R110, R210). -/
theorem emitsBytes_of_enc_eq {i : Instr} {bs : List Byte} (hm : isMicro i = true) (hw : i.wf = true)
    (hafter : afterEmit i = id) (henc : enc i = bs) : EmitsBytes i bs id := by
  rw [← henc]
  exact emitsBytes_enc hm hw (fun _ => rfl) fun x u _ => congrFun hafter { u with build := some x }

/-- The same for format F2P, whose byte 1 holds the peripheral or event number (R81). -/
theorem emitsBytes_of_enc_eq_f2p {i : Instr} {b0 : Byte} {n : Nat} (hm : isMicro i = true) (hw : i.wf = true)
    (hafter : afterEmit i = id) (henc : enc i = [b0, fieldHi5 n]) :
    EmitsBytes i [b0, BitVec.ofNat 8 (n * 8)] id :=
  emitsBytes_of_enc_eq hm hw hafter (by rw [henc, fieldHi5_eq_mul])

/-- Settles O10: MOV, LD and ST have no operand to check, STP, FLUSHP and WFP a peripheral. -/
theorem transferMicroinstructionsEmitTheirBytes : Obligations.TransferMicroinstructionsEmitTheirBytes := by
  refine ⟨fun w => ?movSar, fun w => ?movCcr, fun w => ?movDar, ?ld, ?lds, ?ldb, ?st, ?sts, ?stb, ?stz,
    fun p hp => ?periph⟩
  case periph =>
    have hw : periphOk p = true := (periphOk_iff p).2 hp
    refine ⟨?stps, ?stpb, ?flushp, ?wfpSingle, ?wfpBurst, ?wfpPeriph⟩
    all_goals exact emitsBytes_of_enc_eq_f2p rfl hw rfl rfl
  all_goals exact emitsBytes_of_enc_eq rfl rfl rfl rfl

/-- Settles O11: GO has a channel to check, SEV an event, the others no operand. -/
theorem controlMicroinstructionsEmitTheirBytes : Obligations.ControlMicroinstructionsEmitTheirBytes := by
  refine ⟨?endp, ?nop, ?kill, ?rmb, ?wmb, fun c a hc => ?go, fun e he => ?sev⟩
  case go =>
    have hw : chanOk c = true := (chanOk_iff c).2 hc
    exact ⟨emitsBytes_of_enc_eq rfl hw rfl rfl, emitsBytes_of_enc_eq rfl hw rfl rfl⟩
  case sev => exact emitsBytes_of_enc_eq_f2p rfl ((eventOk_iff e).2 he) rfl rfl
  all_goals exact emitsBytes_of_enc_eq rfl rfl rfl rfl

end Sys2Proof.Machine
end

section
/-! PROOF. The planner's checks and their first failure (R171, R172, R185); what the split of a phase into loops moves (R179 to
R184); and the fields of a zero fill's control values (R185). -/

namespace Sys2Proof.Machine

/-! ### The first failing check -/

theorem firstFailing_cons (c : Cause × Bool) (cs : List (Cause × Bool)) :
    firstFailing (c :: cs) = if c.2 = true then some c.1 else firstFailing cs := by
  by_cases h : c.2 = true <;> simp [firstFailing, h]

theorem not_bufferFits_iff (bufBase : Word) (cap : Nat) :
    (!bufferFits bufBase cap) = true ↔ bufBase.toNat + cap > 2 ^ 32 := by
  rw [Bool.not_eq_true', ← Bool.not_eq_true, bufferFits_iff, not_le]

/-- The chain of `if`s in `validate` is the table of R171. -/
theorem validate_eq_firstFailing (cfg : Config.Params) (req : TransferRequest) (bufBase : Word) (cap : Nat) :
    validate cfg req bufBase cap = firstFailing (requestChecks cfg req bufBase cap) := by
  simp only [requestChecks, firstFailing_cons, Bool.or_eq_true, Bool.and_eq_true, decide_eq_true_eq, validate,
    not_bufferFits_iff]
  rfl

/-- The chain of `if`s in `validateZf` is the table of R185. -/
theorem validateZf_eq_firstFailing (cfg : Config.Params) (dst : Word) (size : Nat) (bufBase : Word) (cap : Nat) :
    validateZf cfg dst size bufBase cap = firstFailing (zeroFillChecks cfg dst size bufBase cap) := by
  simp only [zeroFillChecks, firstFailing_cons, decide_eq_true_eq, validateZf, not_bufferFits_iff]
  rfl

/-- BUILD of a request that fails a check ends with the cause of it. -/
theorem execBuild_of_invalid {req : TransferRequest} {bufBase : Word} {cap : Nat} {s : State} {cause : Cause}
    (h : validate s.cfg req bufBase cap = some cause) :
    execBuild req bufBase cap s = .next (deliver (.validationError cause) s) := by
  simp only [execBuild, plan, h]

/-- BUILD_ZF likewise. -/
theorem execBuildZf_of_invalid {dst : Word} {size : Nat} {bufBase : Word} {cap : Nat} {s : State} {cause : Cause}
    (h : validateZf s.cfg dst size bufBase cap = some cause) :
    execBuildZf dst size bufBase cap s = .next (deliver (.validationError cause) s) := by
  simp only [execBuildZf, planZf, h]

/-- Settles O17: the planner's checks are the two tables, and a failing one delivers its cause and no more. -/
theorem invalidRequestChangesNothing : Obligations.InvalidRequestChangesNothing := by
  refine ⟨fun s req bufBase cap cause h => ?request, fun s dst size bufBase cap cause h => ?zeroFill⟩
  case request =>
    rw [← validate_eq_firstFailing] at h
    exact execBuild_of_invalid h
  case zeroFill =>
    rw [← validateZf_eq_firstFailing] at h
    exact execBuildZf_of_invalid h

/-! ### One loop plan -/

/-- Up to 256 units fit one loop (R179). -/
theorem split_of_le {n : Nat} (h : n ≤ 256) : split n = (⟨n, none⟩, n) := if_pos h

/-- What `split` says of any number of units but none: its counts are encodable, its runs are the units it says it moves,
and these are at least one and no more than there are (R179, R184). -/
theorem split_spec {n : Nat} (h : 1 ≤ n) :
    countsOk (split n).1 ∧ (split n).1.runs = (split n).2 ∧ 1 ≤ (split n).2 ∧ (split n).2 ≤ n := by
  unfold split
  split_ifs with h1 h2
  · exact ⟨⟨h, h1, by simp⟩, Nat.mul_one n, h, le_rfl⟩
  · have hdiv : 1 ≤ n / 256 ∧ n / 256 ≤ 256 := by omega
    exact ⟨⟨Nat.le_add_left 1 255, le_rfl, by simpa using hdiv⟩, rfl, by omega, Nat.mul_div_le n 256⟩
  · exact ⟨⟨by decide, le_rfl, by simp⟩, rfl, by decide, by omega⟩

/-! ### A phase -/

/-- A pass takes whole units away: the units left are those it has not moved, and the rest is the same (R180). -/
theorem sub_mul_div_mod {rem unit k : Nat} (hk : k ≤ rem / unit) :
    (rem - k * unit) / unit = rem / unit - k ∧ (rem - k * unit) % unit = rem % unit := by
  rw [Nat.mul_comm]
  exact ⟨Nat.sub_mul_div .., Nat.sub_mul_mod ((Nat.mul_le_mul_left unit hk).trans (Nat.mul_div_le rem unit))⟩

/-- Less than a unit is left as it is (R180). -/
theorem phaseLoop_of_lt (fuel : Nat) {rem unit : Nat} (h : rem < unit) : phaseLoop fuel rem unit = ([], rem) := by
  cases fuel with
  | zero => rfl
  | succ fuel => exact if_pos h

/-- With passes enough, the loop of R180 moves every whole unit, in loops with encodable counts, and the rest remains. -/
theorem phaseLoop_spec {unit : Nat} (hu : 0 < unit) (fuel rem : Nat) (hf : rem / unit ≤ fuel) :
    (∀ p ∈ (phaseLoop fuel rem unit).1, countsOk p)
      ∧ unitsMoved (phaseLoop fuel rem unit).1 = rem / unit
      ∧ (phaseLoop fuel rem unit).2 = rem % unit := by
  induction fuel generalizing rem with
  | zero =>
    have hdiv : rem / unit = 0 := Nat.le_zero.1 hf
    have hlt : rem < unit := (Nat.div_eq_zero_iff_lt hu).1 hdiv
    simp [phaseLoop_of_lt 0 hlt, unitsMoved, hdiv, Nat.mod_eq_of_lt hlt]
  | succ fuel ih =>
    by_cases hlt : rem < unit
    · simp [phaseLoop_of_lt _ hlt, unitsMoved, Nat.div_eq_of_lt hlt, Nat.mod_eq_of_lt hlt]
    · obtain ⟨hcounts, hruns, hpos, hle⟩ := split_spec (Nat.div_pos (not_lt.1 hlt) hu)
      obtain ⟨hdiv, hmod⟩ := sub_mul_div_mod hle
      obtain ⟨ihcounts, ihmoved, ihrest⟩ := ih (rem - (split (rem / unit)).2 * unit) (by omega)
      simp only [phaseLoop, if_neg hlt, List.forall_mem_cons]
      refine ⟨⟨hcounts, ihcounts⟩, ?_, ihrest.trans hmod⟩
      calc (split (rem / unit)).1.runs + unitsMoved (phaseLoop fuel (rem - (split (rem / unit)).2 * unit) unit).1
          = (split (rem / unit)).2 + (rem / unit - (split (rem / unit)).2) := by rw [hruns, ihmoved, hdiv]
        _ = rem / unit := Nat.add_sub_cancel' hle

theorem phase_counts {unit : Nat} (hu : 0 < unit) (rem : Nat) : ∀ p ∈ (phase rem unit).1, countsOk p :=
  (phaseLoop_spec hu _ rem le_rfl).1

theorem unitsMoved_phase {unit : Nat} (hu : 0 < unit) (rem : Nat) : unitsMoved (phase rem unit).1 = rem / unit :=
  (phaseLoop_spec hu _ rem le_rfl).2.1

theorem phase_rest {unit : Nat} (hu : 0 < unit) (rem : Nat) : (phase rem unit).2 = rem % unit :=
  (phaseLoop_spec hu _ rem le_rfl).2.2

/-- The bytes a phase moves are all but its rest (R184). -/
theorem bytesMoved_phase {unit : Nat} (hu : 0 < unit) (rem : Nat) :
    unitsMoved (phase rem unit).1 * unit = rem - (phase rem unit).2 := by
  rw [unitsMoved_phase hu, phase_rest hu, Nat.mul_comm]
  exact (Nat.sub_eq_of_eq_add (Nat.div_add_mod rem unit).symm).symm

theorem phase_rest_lt {unit : Nat} (hu : 0 < unit) (rem : Nat) : (phase rem unit).2 < unit := by
  rw [phase_rest hu]
  exact Nat.mod_lt rem hu

theorem phase_rest_le {unit : Nat} (hu : 0 < unit) (rem : Nat) : (phase rem unit).2 ≤ rem := by
  rw [phase_rest hu]
  exact Nat.mod_le rem unit

/-- A phase of no more than 256 units is at most one plan, with no outer loop: the first pass moves them all (R181). -/
theorem phase_of_few {rem unit : Nat} (hu : 0 < unit) (h : rem / unit ≤ 256) :
    (phase rem unit).1.length ≤ 1 ∧ ∀ p ∈ (phase rem unit).1, p.outer = none := by
  unfold phase
  cases hn : rem / unit with
  | zero => simp [phaseLoop]
  | succ n =>
    have hge : ¬rem < unit := fun hlt => by simp [Nat.div_eq_of_lt hlt] at hn
    have hrest : rem - rem / unit * unit < unit := by
      rw [Nat.mul_comm, ← Nat.mod_eq_sub_mul_div]
      exact Nat.mod_lt rem hu
    simp [phaseLoop, hge, split_of_le h, phaseLoop_of_lt n hrest]

/-! ### The two phases of a plan -/

theorem singleBytes_pos (ssz : Nat) : 0 < singleBytes ssz := Nat.two_pow_pos ssz

theorem burstBytes_pos (bsz : Nat) {blen : Nat} (h : 1 ≤ blen) : 0 < burstBytes bsz blen :=
  Nat.mul_pos (Nat.two_pow_pos bsz) h

/-- What R184 says of the two phases of a geometry: the tail phase takes over what the burst phase leaves. -/
theorem planTotals_of_phases {P : Plan} {unitB unitS size : Nat} (hB : 0 < unitB) (hS : 0 < unitS)
    (hburst : P.burstPlans = (phase size unitB).1) (htail : P.tailPlans = (phase (phase size unitB).2 unitS).1)
    (hres : P.residual = (phase (phase size unitB).2 unitS).2) : planTotals P unitB unitS size := by
  unfold planTotals
  rw [hburst, htail, hres, List.forall_mem_append]
  exact ⟨⟨phase_counts hB _, phase_counts hS _⟩, (phase size unitB).2, bytesMoved_phase hB _, phase_rest_le hB _,
    phase_rest_lt hB _, bytesMoved_phase hS _, phase_rest_le hS _, phase_rest_lt hS _⟩

/-- The planner answers the plan of the zero fill where every check of R185 passes, and no other plan. -/
theorem planZf_ok_iff (cfg : Config.Params) (dst : Word) (size : Nat) (bufBase : Word) (cap : Nat) (P : Plan) :
    planZf cfg dst size bufBase cap = .ok P ↔
      validateZf cfg dst size bufBase cap = none ∧ P = planZfGeometry cfg size := by
  unfold planZf
  cases validateZf cfg dst size bufBase cap <;> simp [eq_comm]

/-- Settles O19: both kinds of plan are two phases with units of at least one byte. -/
theorem planCountsAndTotals : Obligations.PlanCountsAndTotals := by
  refine ⟨fun cfg req bufBase cap P hP => ?request, fun cfg dst size bufBase cap P hP => ?zeroFill⟩
  case request =>
    obtain ⟨hvalid, rfl⟩ := (plan_ok_iff cfg req bufBase cap P).1 hP
    obtain ⟨-, -, hblen, -⟩ := (validate_eq_none_iff cfg req bufBase cap).1 hvalid
    exact planTotals_of_phases (burstBytes_pos req.bsz hblen) (singleBytes_pos req.ssz) rfl rfl rfl
  case zeroFill =>
    obtain ⟨-, rfl⟩ := (planZf_ok_iff cfg dst size bufBase cap P).1 hP
    exact planTotals_of_phases (burstBytes_pos cfg.maxExp (by decide)) (singleBytes_pos 0) rfl rfl rfl

/-- A burst is a whole number of single units where the single size is at most the burst size (R182). -/
theorem singleBytes_dvd_burstBytes {bsz ssz : Nat} (h : ssz ≤ bsz) (blen : Nat) :
    singleBytes ssz ∣ burstBytes bsz blen :=
  (Nat.pow_dvd_pow 2 h).mul_right blen

/-- Settles O20: taking whole bursts away first does not change the size modulo the single unit. -/
theorem residualIsSizeModuloSingleUnit : Obligations.ResidualIsSizeModuloSingleUnit := by
  intro cfg req bufBase cap P hP
  obtain ⟨hvalid, rfl⟩ := (plan_ok_iff cfg req bufBase cap P).1 hP
  obtain ⟨-, hs, hblen, -⟩ := (validate_eq_none_iff cfg req bufBase cap).1 hvalid
  calc (planRequest req).residual
      = (phase (phase req.size (burstBytes req.bsz req.blen)).2 (singleBytes req.ssz)).2 := rfl
    _ = req.size % burstBytes req.bsz req.blen % singleBytes req.ssz := by
      rw [phase_rest (singleBytes_pos _), phase_rest (burstBytes_pos _ hblen)]
    _ = req.size % singleBytes req.ssz := Nat.mod_mod_of_dvd _ (singleBytes_dvd_burstBytes hs _)

/-- MAX_BURST_EXP is at most 4 (R7). -/
theorem maxExp_le_four (cfg : Config.Params) : cfg.maxExp ≤ 4 := Nat.le_of_lt_succ cfg.maxBurstExp.isLt

/-- The largest burst is 16 beats of 16 bytes (R7, R173). -/
theorem burstBytes_le {bsz blen : Nat} (hb : bsz ≤ 4) (hl : blen ≤ 16) : burstBytes bsz blen ≤ 256 :=
  Nat.mul_le_mul (Nat.pow_le_pow_right (by decide) hb) hl

/-- Settles O21: less than a burst is left, so no more than 256 single units. -/
theorem tailIsAtMostOneSingleLoop : Obligations.TailIsAtMostOneSingleLoop := by
  intro cfg req bufBase cap P hP
  obtain ⟨hvalid, rfl⟩ := (plan_ok_iff cfg req bufBase cap P).1 hP
  obtain ⟨hb, -, h1, h2, -⟩ := (validate_eq_none_iff cfg req bufBase cap).1 hvalid
  refine phase_of_few (singleBytes_pos req.ssz) ?_
  calc (phase req.size (burstBytes req.bsz req.blen)).2 / singleBytes req.ssz
      ≤ (phase req.size (burstBytes req.bsz req.blen)).2 := Nat.div_le_self _ _
    _ ≤ burstBytes req.bsz req.blen := (phase_rest_lt (burstBytes_pos _ h1) _).le
    _ ≤ 256 := burstBytes_le (hb.trans (maxExp_le_four cfg)) h2

/-! ### The control values of a zero fill -/

/-- The fields of a zero fill's control value, by its burst size and length (R7, R185). -/
theorem ccrValue_zeroFill {e l : Nat} (he : e ≤ 4) (h1 : 1 ≤ l) (h2 : l ≤ 16) :
    let v := ccrValue e l 0 1 Config.ccBaseSrc Config.ccBaseDst (protField Config.zfNonsecure)
    ccrSI v = 0 ∧ ccrDI v = 1
      ∧ (ccrSB v).toNat = e ∧ (ccrDB v).toNat = e
      ∧ (ccrSL v).toNat + 1 = l ∧ (ccrDL v).toNat + 1 = l
      ∧ ccrSP v = 0 ∧ ccrDP v = 0 ∧ ccrSC v = 1 ∧ ccrDC v = 1 ∧ ccrES v = 0 := by
  intro v
  obtain ⟨si, di, sb, db, sl, dl, sp, dp, sc, dc, es⟩ := ccrValue_fields (e := e) (len := l) (si := 0) (di := 1)
    (sc := Config.ccBaseSrc) (dc := Config.ccBaseDst) (by omega) (by omega) (by decide) (by decide) (by decide)
    (by decide) (protField_lt Config.zfNonsecure)
  have burst : (BitVec.ofNat 3 e).toNat = e := Nat.mod_eq_of_lt (by omega)
  have len : (BitVec.ofNat 4 (l - 1)).toNat + 1 = l := by
    rw [BitVec.toNat_ofNat, Nat.mod_eq_of_lt (by omega)]
    omega
  exact ⟨si, di, sb ▸ burst, db ▸ burst, sl ▸ len, dl ▸ len, sp, dp, sc, dc, es⟩

/-- Settles O23: both values of a zero fill stay in their fields' range. -/
theorem zeroFillControlValueFields : Obligations.ZeroFillControlValueFields := by
  intro cfg dst size bufBase cap P hP v e l hv
  obtain ⟨-, rfl⟩ := (planZf_ok_iff cfg dst size bufBase cap P).1 hP
  rcases hv with ⟨rfl, rfl, rfl⟩ | ⟨rfl, rfl, rfl⟩
  · exact ccrValue_zeroFill (maxExp_le_four cfg) (by decide) (by decide)
  · exact ccrValue_zeroFill (by decide) (by decide) (by decide)

end Sys2Proof.Machine
end

section
/-! PROOF. The builder (R210 to R225): a microinstruction that does not fit, what BUILD and BUILD_ZF leave with room for the
program and without, and what stands in the programs they lay out. -/

namespace Sys2Proof.Machine

/-! ### A microinstruction without room -/

/-- An overflow in a running build is all a microinstruction does that does not fit (R210, R220). -/
theorem exec_micro_overflows {i : Instr} {s : State} {b : BuildState} (hm : isMicro i = true) (hw : i.wf = true)
    (hb : s.build = some b) (hst : b.status = .building) (hover : b.cap < b.off + i.size) :
    exec i s = .next { s with
      result := some (.bufferOverflow b.needed b.cap b.off), build := none, emitPort := [] } := by
  rw [exec_micro hm, emitMeaning_running hw ((buildRunning_iff s).2 ⟨b, hb, hst⟩), cemit_overflows hb hst hover,
    afterEmit_failed i (b := { b with status := .failed }) rfl rfl]
  rfl

/-- Settles O14: the overflow touches the result, the build and the port, and no other field. -/
theorem unfittingMicroinstructionWritesNothing : Obligations.UnfittingMicroinstructionWritesNothing :=
  fun _ _ _ hm hw hb hst hover => ⟨_, exec_micro_overflows hm hw hb hst hover, rfl, rfl, rfl, rfl⟩

/-! ### What a build command leaves -/

/-- The state a build command leaves that has written `bs` from the buffer's base on. -/
def afterBuild (bufBase : Word) (bs : List Byte) (r : Result) (ps : List ProgramEntry) (s : State) : State :=
  { memWriteBytes bufBase bs s with build := none, result := some r, programs := ps }

/-- A build with room for its listing writes all of it and returns its record (R219). -/
theorem runBuild_of_room {ops : List BuildOp} {is : List Instr} {cap needed : Nat} (bufBase : Word)
    (data : DataRanges) (residual : Nat) (s : State)
    (h : ∃ b', LaysOut ops is (openRegs bufBase cap data.size needed) b') (hneeded : (programBytes is).length = needed)
    (hcap : needed ≤ cap) :
    runBuild ops residual data needed bufBase cap s
      = afterBuild bufBase (programBytes is) (.okProgram ⟨bufBase, cap, needed, residual⟩)
          (⟨⟨bufBase, cap, needed, residual⟩, data⟩ :: s.programs) s := by
  obtain ⟨b', hlays, hfollows⟩ := h
  rw [runBuild_fits s residual data hlays hfollows (hneeded.trans_le hcap), hneeded, afterBuild]

/-- A build without that room writes the instructions before the first that does not fit, and returns no record
(R220, R334). -/
theorem runBuild_of_noRoom {ops : List BuildOp} {is : List Instr} {cap needed : Nat} (bufBase : Word)
    (data : DataRanges) (residual : Nat) (s : State)
    (h : ∃ b', LaysOut ops is (openRegs bufBase cap data.size needed) b') (hneeded : (programBytes is).length = needed)
    (hcap : cap < needed) :
    ∃ done i rest, is = done ++ i :: rest ∧ (programBytes done).length ≤ cap
      ∧ cap < (programBytes done).length + i.size
      ∧ runBuild ops residual data needed bufBase cap s
        = afterBuild bufBase (programBytes done) (.bufferOverflow needed cap (programBytes done).length)
            s.programs s := by
  obtain ⟨b', hlays, -⟩ := h
  obtain ⟨done, i, rest, his, hdone, hover, hrun⟩ :=
    runBuild_overflows s residual data hlays (hcap.trans_eq hneeded.symm)
  refine ⟨done, i, rest, his, hdone, hover, hrun.trans ?_⟩
  rw [afterBuild, ← (memOnly_memWriteBytes bufBase (programBytes done) s).programs]

/-- A build command touches the bytes it writes with what they disturb, the accesses, the build state, the result and the
records, and no other field. -/
theorem afterBuild_frame (bufBase : Word) (bs : List Byte) (r : Result) (ps : List ProgramEntry) (s : State) :
    { afterBuild bufBase bs r ps s with
      mem := s.mem, build := s.build, bus := s.bus, wild := s.wild, issues := s.issues, result := s.result,
      programs := s.programs } = s :=
  congrArg (fun t : State => { t with build := s.build, result := s.result, programs := s.programs })
    (memOnly_memWriteBytes bufBase bs s)

theorem afterBuild_storedBytes (bufBase : Word) {bs : List Byte} (r : Result) (ps : List ProgramEntry) (s : State)
    (h : bs.length ≤ 2 ^ 32) : storedBytes s (afterBuild bufBase bs r ps s) bufBase bs :=
  storedBytes_congr rfl (storedBytes_memWriteBytes bufBase bs s h)

/-- What the bytes of a build command disturb (R365, U1). -/
theorem afterBuild_storeDisturbs (bufBase : Word) (bs : List Byte) (r : Result) (ps : List ProgramEntry) (s : State) :
    storeDisturbs s (afterBuild bufBase bs r ps s) bufBase bs.length :=
  storeDisturbs_memWriteBytes bufBase bs s

/-- The accesses of a build command (R61, R67). -/
theorem afterBuild_bus (bufBase : Word) (bs : List Byte) (r : Result) (ps : List ProgramEntry) (s : State) :
    (afterBuild bufBase bs r ps s).bus = s.bus ++ writeEvents bufBase bs :=
  memWriteBytes_bus bufBase bs s

/-! ### The length of a listing -/

theorem programBytes_loops (k : BodyKind) (g : BurstCond) (ps : List LoopPlan) :
    (programBytes (ps.flatMap (expectedLoop k g))).length = (ps.map (loopLength k)).sum := by
  induction ps with
  | nil => rfl
  | cons p ps ih =>
    rw [List.flatMap_cons, programBytes_append, List.length_append, programBytes_loop, ih, List.map_cons, List.sum_cons]

/-- The two MOV CCR, the loops of both phases and END (R221). -/
theorem programBytes_phases (k : BodyKind) (P : Plan) :
    (programBytes (expectedPhases k P)).length
      = 6 + ((P.burstPlans ++ P.tailPlans).map (loopLength k)).sum + 6 + 1 := by
  simp only [expectedPhases, programBytes_append, List.length_append, programBytes_singleton, enc_length, Instr.size,
    programBytes_loops, List.map_append, List.sum_append]
  omega

/-- `required_size` of a request is the length of its listing (R221). -/
theorem programBytes_request (req : TransferRequest) : (programBytes (expectedProgram req)).length = requiredSize req := by
  have hheader : (programBytes
      ([.movSar req.src, .movDar req.dst] ++ (if req.kind = .mem2mem then [] else [.flushp req.periph]))).length + 6
      = headerLength req := by
    unfold headerLength
    split_ifs <;> rfl
  rw [expectedProgram, programBytes_append, List.length_append, programBytes_phases, requiredSize, requiredLength,
    ← hheader]
  omega

/-- `required_size` of a zero fill is the length of its listing (R221, R223). -/
theorem programBytes_zeroFill (cfg : Config.Params) (dst : Word) (size : Nat) :
    (programBytes (expectedZeroFill cfg dst size)).length = requiredSizeZf cfg size := by
  have hheader : (programBytes [.movDar dst]).length + 6 = 12 := rfl
  rw [expectedZeroFill, programBytes_append, List.length_append, programBytes_phases, requiredSizeZf, requiredLength,
    ← hheader]
  omega

/-! ### BUILD and BUILD_ZF past their checks -/

/-- BUILD of a valid request is the build of its listing (R211). -/
theorem exec_build_of_plan {s : State} {req : TransferRequest} {bufBase : Word} {cap : Nat} {P : Plan}
    (hP : plan s.cfg req bufBase cap = .ok P) :
    exec (.build req bufBase cap) s
      = .next (runBuild (buildOps req (planRequest req)) P.residual (requestRanges req)
          (requiredSize req) bufBase cap s) := by
  obtain ⟨-, rfl⟩ := (plan_ok_iff s.cfg req bufBase cap P).1 hP
  show execBuild req bufBase cap s = _
  simp only [execBuild, hP]

/-- BUILD_ZF of a valid zero fill likewise (R223). -/
theorem exec_buildZf_of_plan {s : State} {dst : Word} {size : Nat} {bufBase : Word} {cap : Nat} {P : Plan}
    (hP : planZf s.cfg dst size bufBase cap = .ok P) :
    exec (.buildZf dst size bufBase cap) s
      = .next (runBuild (buildZfOps dst (planZfGeometry s.cfg size)) P.residual ⟨none, dst, size⟩
          (requiredSizeZf s.cfg size) bufBase cap s) := by
  obtain ⟨-, rfl⟩ := (planZf_ok_iff s.cfg dst size bufBase cap P).1 hP
  show execBuildZf dst size bufBase cap s = _
  simp only [execBuildZf, hP]

/-- The buffer of a valid request is no longer than the address space (R61, R171). -/
theorem cap_le_of_plan {cfg : Config.Params} {req : TransferRequest} {bufBase : Word} {cap : Nat} {P : Plan}
    (hP : plan cfg req bufBase cap = .ok P) : cap ≤ 2 ^ 32 := by
  obtain ⟨hvalid, -⟩ := (plan_ok_iff cfg req bufBase cap P).1 hP
  obtain ⟨-, -, -, -, -, -, -, -, hbuf⟩ := (validate_eq_none_iff cfg req bufBase cap).1 hvalid
  omega

/-- The buffer of a valid zero fill likewise (R185). -/
theorem cap_le_of_planZf {cfg : Config.Params} {dst : Word} {size : Nat} {bufBase : Word} {cap : Nat} {P : Plan}
    (hP : planZf cfg dst size bufBase cap = .ok P) : cap ≤ 2 ^ 32 := by
  obtain ⟨hvalid, -⟩ := (planZf_ok_iff cfg dst size bufBase cap P).1 hP
  obtain ⟨-, -, hbuf⟩ := (validateZf_eq_none_iff cfg dst size bufBase cap).1 hvalid
  have := (bufferFits_iff bufBase cap).1 hbuf
  omega

/-- Settles O24: the listing is laid out whole, because it is as long as `required_size` says. -/
theorem buildLaysOutTheProgram : Obligations.BuildLaysOutTheProgram := by
  intro s req bufBase cap P hP hroom
  have hlen := programBytes_request req
  have hrun := runBuild_of_room bufBase (requestRanges req) P.residual s (laysOut_request req rfl rfl) hlen hroom
  have hspace := hlen.trans_le (hroom.trans (cap_le_of_plan hP))
  refine ⟨_, (exec_build_of_plan hP).trans (congrArg _ hrun), rfl, rfl, hlen, afterBuild_storedBytes _ _ _ _ hspace, ?_,
    afterBuild_bus _ _ _ _ _, rfl, afterBuild_frame _ _ _ _ _⟩
  rw [← hlen]
  exact afterBuild_storeDisturbs _ _ _ _ _

/-- Settles O25: the listing is cut at the first instruction that does not fit. -/
theorem buildStopsAtTheFirstOverflow : Obligations.BuildStopsAtTheFirstOverflow := by
  intro s req bufBase cap P hP hnoRoom
  obtain ⟨done, i, rest, his, hdone, hover, hrun⟩ := runBuild_of_noRoom bufBase (requestRanges req) P.residual s
    (laysOut_request req rfl rfl) (programBytes_request req) hnoRoom
  have hspace := hdone.trans (cap_le_of_plan hP)
  exact ⟨_, done, i, rest, (exec_build_of_plan hP).trans (congrArg _ hrun), his, hdone, hover, rfl,
    afterBuild_storedBytes _ _ _ _ hspace, afterBuild_storeDisturbs _ _ _ _ _, afterBuild_bus _ _ _ _ _, rfl,
    afterBuild_frame _ _ _ _ _⟩

/-- Settles O26: with room as for BUILD, and without. -/
theorem zeroFillLaysOutOrOverflows : Obligations.ZeroFillLaysOutOrOverflows := by
  intro s dst size bufBase cap P hP
  have hlen := programBytes_zeroFill s.cfg dst size
  by_cases hroom : requiredSizeZf s.cfg size ≤ cap
  · have hrun := runBuild_of_room bufBase ⟨none, dst, size⟩ P.residual s (laysOut_zeroFill s.cfg dst size rfl rfl)
      hlen hroom
    have hspace := hlen.trans_le (hroom.trans (cap_le_of_planZf hP))
    refine ⟨_, _, [], (exec_buildZf_of_plan hP).trans (congrArg _ hrun), (List.append_nil _).symm,
      afterBuild_storedBytes _ _ _ _ hspace, afterBuild_storeDisturbs _ _ _ _ _, afterBuild_bus _ _ _ _ _, rfl,
      afterBuild_frame _ _ _ _ _, ?_⟩
    rw [if_pos hroom]
    exact ⟨rfl, hlen, rfl, rfl⟩
  · obtain ⟨done, i, rest, his, hdone, hover, hrun⟩ := runBuild_of_noRoom bufBase ⟨none, dst, size⟩ P.residual s
      (laysOut_zeroFill s.cfg dst size rfl rfl) hlen (not_le.1 hroom)
    have hspace := hdone.trans (cap_le_of_planZf hP)
    refine ⟨_, done, i :: rest, (exec_buildZf_of_plan hP).trans (congrArg _ hrun), his,
      afterBuild_storedBytes _ _ _ _ hspace, afterBuild_storeDisturbs _ _ _ _ _, afterBuild_bus _ _ _ _ _, rfl,
      afterBuild_frame _ _ _ _ _, ?_⟩
    rw [if_neg hroom]
    exact ⟨hdone, ⟨i, rest, rfl, hover⟩, rfl, rfl⟩

/-! ### What stands in a program -/

/-- The five distances an LPEND of the builder may jump back by (R222). -/
def distanceOk (d : Nat) : Bool := [3, 4, 7, 8, 11].contains d

theorem distanceOk_iff (d : Nat) : distanceOk d = true ↔ d ∈ [3, 4, 7, 8, 11] := List.contains_iff_mem

theorem bjumpOk_of_distanceOk {d : Nat} (h : distanceOk d = true) : bjumpOk d = true := by
  have hall : ∀ d ∈ [3, 4, 7, 8, 11], bjumpOk d = true := by decide
  exact hall d ((distanceOk_iff d).1 h)

/-- What the builder puts into a program, with the operands it may have there (R211 to R218, R222, R225). -/
def builderPuts : Instr → Bool
  | .movSar _ | .movCcr _ | .movDar _ => true
  | .ld | .st | .stz | .rmb | .wmb | .endp => true
  | .stps p | .stpb p | .wfpSingle p | .wfpBurst p | .flushp p => periphOk p
  | .lpLc0 n | .lpLc1 n => countOk n
  | .lpendLc0 d | .lpendLc1 d => distanceOk d
  | .lds | .ldb | .sts | .stb | .nop | .kill => false
  | .wfpPeriph _ | .sev _ | .goSecure _ _ | .goNs _ _ => false
  | .build _ _ _ | .buildZf _ _ _ _ | .start _ _ | .poll _ | .finish _ _ | .killCommand _ => false

/-- It is a microinstruction with its operands in their domains (R86). -/
theorem wf_of_builderPuts {i : Instr} (h : builderPuts i = true) : i.wf = true ∧ isMicro i = true := by
  cases i
  case lpendLc0 d => exact ⟨bjumpOk_of_distanceOk h, rfl⟩
  case lpendLc1 d => exact ⟨bjumpOk_of_distanceOk h, rfl⟩
  all_goals first | exact ⟨h, rfl⟩ | cases h

theorem ne_of_builderPuts {i j : Instr} (h : builderPuts i = true) (hj : builderPuts j = false) : i ≠ j := by
  rintro rfl
  exact Bool.noConfusion (h.symm.trans hj)

/-- What stands between a program's header and its END. -/
def InPhases (i : Instr) : Prop := builderPuts i = true ∧ i ≠ .endp ∧ isFlushp i = false

/-- The peripheral of a loop body, where it has one, is encodable (R171). -/
def bodyOk : BodyKind → Bool
  | .periph p => periphOk p
  | _ => true

theorem inPhases_body {k : BodyKind} (hk : bodyOk k = true) (g : BurstCond) : ∀ i ∈ bodyInstrs k g, InPhases i := by
  cases k with
  | copy => simp [bodyInstrs, InPhases, builderPuts, isFlushp]
  | zeroFill => simp [bodyInstrs, InPhases, builderPuts, isFlushp]
  | periph p =>
    have hp : periphOk p = true := hk
    cases g <;> simp [bodyInstrs, wfpFor, stpFor, InPhases, builderPuts, isFlushp, hp]

/-- The body is 4, 7 or 3 bytes long, and the inner loop 4 more: the five distances (R215, R216, R222). -/
theorem inPhases_lpend (k : BodyKind) :
    InPhases (.lpendLc0 (bodySize k)) ∧ InPhases (.lpendLc1 (bodySize k + 4)) := by
  cases k <;> exact ⟨⟨rfl, nofun, rfl⟩, rfl, nofun, rfl⟩

theorem inPhases_loop {k : BodyKind} (hk : bodyOk k = true) (g : BurstCond) {p : LoopPlan} (hp : countsOk p) :
    ∀ i ∈ expectedLoop k g p, InPhases i := by
  obtain ⟨n, outer⟩ := p
  obtain ⟨h1, h256, houter⟩ := hp
  have hbody := inPhases_body hk g
  obtain ⟨hinner, hend⟩ := inPhases_lpend k
  have hlp : InPhases (.lpLc0 n) := ⟨(countOk_iff n).2 ⟨h1, h256⟩, nofun, rfl⟩
  cases outer with
  | none => simpa [expectedLoop, or_imp, forall_and] using ⟨hlp, hbody, hinner⟩
  | some m =>
    have hlp' : InPhases (.lpLc1 m) := ⟨(countOk_iff m).2 (houter m rfl), nofun, rfl⟩
    simpa [expectedLoop, or_imp, forall_and] using ⟨hlp', hlp, hbody, hinner, hend⟩

/-- A program after its header and without its END. -/
def phaseInstrs (k : BodyKind) (P : Plan) : List Instr :=
  [.movCcr P.ccrBurst] ++ P.burstPlans.flatMap (expectedLoop k .burst)
    ++ [.movCcr P.ccrTail] ++ P.tailPlans.flatMap (expectedLoop k .single)

theorem expectedPhases_eq (k : BodyKind) (P : Plan) : expectedPhases k P = phaseInstrs k P ++ [.endp] := rfl

theorem inPhases_phases {k : BodyKind} (hk : bodyOk k = true) {P : Plan}
    (hP : ∀ p ∈ P.burstPlans ++ P.tailPlans, countsOk p) : ∀ i ∈ phaseInstrs k P, InPhases i := by
  obtain ⟨hburst, htail⟩ := List.forall_mem_append.1 hP
  have hccr (w : Word) : InPhases (.movCcr w) := ⟨rfl, nofun, rfl⟩
  have hloops (g : BurstCond) {ps : List LoopPlan} (hps : ∀ p ∈ ps, countsOk p) :
      ∀ i ∈ ps.flatMap (expectedLoop k g), InPhases i := by
    intro i hi
    obtain ⟨p, hp, hip⟩ := List.mem_flatMap.1 hi
    exact inPhases_loop hk g (hps p hp) i hip
  simp only [phaseInstrs, List.forall_mem_append, List.forall_mem_singleton]
  exact ⟨⟨⟨hccr _, hloops .burst hburst⟩, hccr _⟩, hloops .single htail⟩

/-- `is` is a program of the builder's instructions that ends with its one END and flushes at most one peripheral (R218,
R225). -/
def WellBuilt (is : List Instr) : Prop :=
  ∃ body, is = body ++ [.endp] ∧ .endp ∉ body ∧ (∀ i ∈ body, builderPuts i = true) ∧ body.countP isFlushp ≤ 1

/-- A header with at most one FLUSHP, and the phases behind it, are such a program. -/
theorem wellBuilt_of_header {header : List Instr} {k : BodyKind} {P : Plan}
    (hputs : ∀ i ∈ header, builderPuts i = true) (hend : .endp ∉ header) (hflush : header.countP isFlushp ≤ 1)
    (hk : bodyOk k = true) (hP : ∀ p ∈ P.burstPlans ++ P.tailPlans, countsOk p) :
    WellBuilt (header ++ expectedPhases k P) := by
  have hphases := inPhases_phases hk hP
  have hnoFlush : (phaseInstrs k P).countP isFlushp = 0 :=
    List.countP_eq_zero.2 fun i hi => by
      obtain ⟨-, -, hflush⟩ := hphases i hi
      simp [hflush]
  have hnoEnd : .endp ∉ phaseInstrs k P := fun h => by
    obtain ⟨-, hne, -⟩ := hphases _ h
    exact hne rfl
  refine ⟨header ++ phaseInstrs k P, by rw [expectedPhases_eq, List.append_assoc], ?_, ?_, ?_⟩
  · exact fun h => (List.mem_append.1 h).elim hend hnoEnd
  · exact List.forall_mem_append.2 ⟨hputs, fun i hi => (hphases i hi).1⟩
  · rw [List.countP_append, hnoFlush]
    exact hflush

theorem requestBody_ok {req : TransferRequest} (h : req.kind ≠ .mem2mem → req.periph ≤ 31) :
    bodyOk (requestBody req) = true := by
  unfold requestBody
  cases hkind : req.kind with
  | mem2mem => rfl
  | mem2periph => exact (periphOk_iff _).2 (h (by simp [hkind]))
  | periph2mem => exact (periphOk_iff _).2 (h (by simp [hkind]))

/-- The program of a valid request (R211). -/
theorem wellBuilt_request {cfg : Config.Params} {req : TransferRequest} {bufBase : Word} {cap : Nat} {P : Plan}
    (hP : plan cfg req bufBase cap = .ok P) : WellBuilt (expectedProgram req) := by
  obtain ⟨hcounts, -⟩ := planCountsAndTotals.1 cfg req bufBase cap P hP
  obtain ⟨hvalid, rfl⟩ := (plan_ok_iff cfg req bufBase cap P).1 hP
  obtain ⟨-, -, -, -, hperiph, -⟩ := (validate_eq_none_iff cfg req bufBase cap).1 hvalid
  have hbody := requestBody_ok hperiph
  by_cases hkind : req.kind = .mem2mem
  · have e : expectedProgram req
        = [.movSar req.src, .movDar req.dst] ++ expectedPhases (requestBody req) (planRequest req) := by
      simp [expectedProgram, hkind]
    rw [e]
    exact wellBuilt_of_header (by simp [builderPuts]) (by simp) (by simp [isFlushp]) hbody hcounts
  · have hp : periphOk req.periph = true := (periphOk_iff _).2 (hperiph hkind)
    have e : expectedProgram req
        = [.movSar req.src, .movDar req.dst, .flushp req.periph]
          ++ expectedPhases (requestBody req) (planRequest req) := by
      simp [expectedProgram, hkind]
    rw [e]
    exact wellBuilt_of_header (by simp [builderPuts, hp]) (by simp) (by simp [isFlushp]) hbody hcounts

/-- The program of a zero fill of any size (R223). -/
theorem wellBuilt_zeroFill (cfg : Config.Params) (dst : Word) (size : Nat) :
    WellBuilt (expectedZeroFill cfg dst size) := by
  obtain ⟨hcounts, -⟩ := planTotals_of_phases (P := planZfGeometry cfg size) (size := size)
    (burstBytes_pos cfg.maxExp (blen := 16) (by decide)) (singleBytes_pos 0) rfl rfl rfl
  exact wellBuilt_of_header (header := [.movDar dst]) (by simp [builderPuts]) (by simp) (by simp [isFlushp]) rfl hcounts

theorem WellBuilt.puts {is : List Instr} (h : WellBuilt is) : ∀ i ∈ is, builderPuts i = true := by
  obtain ⟨body, rfl, -, hputs, -⟩ := h
  exact List.forall_mem_append.2 ⟨hputs, List.forall_mem_singleton.2 rfl⟩

/-- Settles O28: both kinds of program are well built, and the instructions it names are none the builder puts in. -/
theorem programsEndOnceAndHoldNothingForeign : Obligations.ProgramsEndOnceAndHoldNothingForeign := by
  intro is hprogram
  have hbuilt : WellBuilt is := by
    rcases hprogram with ⟨cfg, req, bufBase, cap, P, hP, rfl⟩ | ⟨cfg, dst, size, rfl⟩
    · exact wellBuilt_request hP
    · exact wellBuilt_zeroFill cfg dst size
  have hall := hbuilt.puts
  obtain ⟨body, rfl, hend, -, hflush⟩ := hbuilt
  refine ⟨⟨body, rfl, hend⟩, by simpa [List.countP_append, isFlushp] using hflush, fun i hi => ?_⟩
  obtain ⟨hwf, hmicro⟩ := wf_of_builderPuts (hall i hi)
  have hne {j : Instr} (hj : builderPuts j = false) : i ≠ j := ne_of_builderPuts (hall i hi) hj
  exact ⟨hwf, hmicro, hne rfl, hne rfl, hne rfl, hne rfl, hne rfl, hne rfl, fun _ _ => ⟨hne rfl, hne rfl⟩,
    fun _ => ⟨hne rfl, hne rfl⟩⟩

/-! ### The bytes a build command writes -/

/-- The bytes written between two states, from this address on, are those of instructions the builder puts in. -/
def WritesPut (base : Word) (s t : State) : Prop :=
  ∃ is, (∀ i ∈ is, builderPuts i = true) ∧ t.bus = s.bus ++ writeEvents base (programBytes is)

/-- A build, with or without room, writes its listing from the first instruction on (R219, R220). -/
theorem runBuild_writesPut {ops : List BuildOp} {is : List Instr} {bufBase : Word} {cap needed : Nat}
    {data : DataRanges} (residual : Nat) (s : State)
    (h : ∃ b', LaysOut ops is (openRegs bufBase cap data.size needed) b') (hneeded : (programBytes is).length = needed)
    (hbuilt : WellBuilt is) : WritesPut bufBase s (runBuild ops residual data needed bufBase cap s) := by
  by_cases hroom : needed ≤ cap
  · rw [runBuild_of_room bufBase data residual s h hneeded hroom]
    exact ⟨is, hbuilt.puts, afterBuild_bus _ _ _ _ _⟩
  · obtain ⟨done, i, rest, rfl, -, -, hrun⟩ := runBuild_of_noRoom bufBase data residual s h hneeded (not_le.1 hroom)
    rw [hrun]
    exact ⟨done, fun j hj => hbuilt.puts j (List.mem_append_left _ hj), afterBuild_bus _ _ _ _ _⟩

/-- A command whose request fails a check writes no byte (R172, R333). -/
theorem writesPut_deliver (base : Word) (r : Result) (s : State) : WritesPut base s (deliver r s) :=
  ⟨[], by simp, by simp [writeEvents]⟩

theorem writesPut_build {s t : State} {req : TransferRequest} {bufBase : Word} {cap : Nat}
    (h : exec (.build req bufBase cap) s = .next t) : WritesPut bufBase s t := by
  cases hvalid : validate s.cfg req bufBase cap with
  | none =>
    have hP := (plan_ok_iff s.cfg req bufBase cap _).2 ⟨hvalid, rfl⟩
    rw [exec_build_of_plan hP] at h
    cases h
    exact runBuild_writesPut _ s (laysOut_request req rfl rfl) (programBytes_request req)
      (wellBuilt_request hP)
  | some cause =>
    have he : exec (.build req bufBase cap) s = .next (deliver (.validationError cause) s) :=
      execBuild_of_invalid hvalid
    rw [he] at h
    cases h
    exact writesPut_deliver bufBase _ s

theorem writesPut_buildZf {s t : State} {dst : Word} {size : Nat} {bufBase : Word} {cap : Nat}
    (h : exec (.buildZf dst size bufBase cap) s = .next t) : WritesPut bufBase s t := by
  cases hvalid : validateZf s.cfg dst size bufBase cap with
  | none =>
    have hP := (planZf_ok_iff s.cfg dst size bufBase cap _).2 ⟨hvalid, rfl⟩
    rw [exec_buildZf_of_plan hP] at h
    cases h
    exact runBuild_writesPut _ s (data := ⟨none, dst, size⟩) (laysOut_zeroFill s.cfg dst size rfl rfl)
      (programBytes_zeroFill s.cfg dst size) (wellBuilt_zeroFill s.cfg dst size)
  | some cause =>
    have he : exec (.buildZf dst size bufBase cap) s = .next (deliver (.validationError cause) s) :=
      execBuildZf_of_invalid hvalid
    rw [he] at h
    cases h
    exact writesPut_deliver bufBase _ s

/-- Settles O27: the bytes are those of instructions the builder puts in, and decode back to them. -/
theorem backwardJumpsAreTheFiveDistances : Obligations.BackwardJumpsAreTheFiveDistances := by
  intro i s t bufBase hi h
  have hwrites : WritesPut bufBase s t := by
    rcases hi with ⟨req, cap, rfl⟩ | ⟨dst, size, cap, rfl⟩
    · exact writesPut_build h
    · exact writesPut_buildZf h
  obtain ⟨is, hputs, hbus⟩ := hwrites
  refine ⟨programBytes is, is, hbus,
    decodeProgram_programBytes (fun i hi => (wf_of_builderPuts (hputs i hi)).symm) le_rfl, fun d hd => ?_⟩
  rcases hd with hd | hd
  · exact (distanceOk_iff d).1 (hputs _ hd)
  · exact (distanceOk_iff d).1 (hputs _ hd)

end Sys2Proof.Machine
end

section
/-! PROOF. The two debug words (R39, R40, R251, R252): each as the concatenation of what it holds, and its fields. -/

namespace Sys2Proof.Machine

/-! ### The words as concatenations -/

/-- DBGINST0[15:0]: the thread bit and the channel number, both 0 for the manager thread (R39). -/
def threadHalf (chan : Nat) (toManager : Bool) : BitVec 16 :=
  if toManager then 0 else 1 ||| (BitVec.ofNat 16 chan <<< 8)

theorem dbgInst0Word_eq_append {chan : Nat} (hc : chan < 8) (toManager : Bool) (b0 b1 : Byte) (rest : List Byte) :
    dbgInst0Word chan toManager (b0 :: b1 :: rest) = b1 ++ b0 ++ threadHalf chan toManager := by
  have halves : ∀ h : BitVec 16, b0.setWidth 32 <<< 16 ||| b1.setWidth 32 <<< 24 ||| h.setWidth 32 = b1 ++ b0 ++ h := by
    intro h
    apply BitVec.eq_of_getLsbD_eq
    intro i hi
    simp only [BitVec.getLsbD_append, BitVec.getLsbD_or, BitVec.getLsbD_shiftLeft, BitVec.getLsbD_setWidth]
    interval_cases i <;> simp
  have half : ∀ m : Fin 8, ∀ t : Bool, (if t then (0 : Word) else 1 ||| (BitVec.ofNat 32 m.val <<< 8))
      = (threadHalf m.val t).setWidth 32 := by decide
  rw [← halves, ← half ⟨chan, hc⟩ toManager]
  rfl

/-- DBGINST1 holds bytes 2 to 5 in address order (R40, R62). -/
theorem dbgInst1Word_eq_leWord (b0 b1 b2 b3 b4 b5 : Byte) :
    dbgInst1Word [b0, b1, b2, b3, b4, b5] = leWord b2 b3 b4 b5 := by
  show b2.setWidth 32 ||| b3.setWidth 32 <<< 8 ||| b4.setWidth 32 <<< 16 ||| b5.setWidth 32 <<< 24 = leWord b2 b3 b4 b5
  apply BitVec.eq_of_getLsbD_eq
  intro i hi
  simp only [leWord, BitVec.getLsbD_append, BitVec.getLsbD_or, BitVec.getLsbD_shiftLeft, BitVec.getLsbD_setWidth]
  interval_cases i <;> simp

/-! ### Their fields -/

/-- The thread bit, the channel number, and the reserved bits around it. -/
theorem threadHalf_fields {chan : Nat} (hc : chan < 8) (toManager : Bool) :
    (threadHalf chan toManager).extractLsb' 0 1 = (if toManager then 0 else 1)
    ∧ ((threadHalf chan toManager).extractLsb' 8 3).toNat = (if toManager then 0 else chan)
    ∧ (threadHalf chan toManager).extractLsb' 1 7 = 0 ∧ (threadHalf chan toManager).extractLsb' 11 5 = 0 := by
  have key : ∀ m : Fin 8, ∀ t : Bool, (threadHalf m.val t).extractLsb' 0 1 = (if t then 0 else 1)
      ∧ ((threadHalf m.val t).extractLsb' 8 3).toNat = (if t then 0 else m.val)
      ∧ (threadHalf m.val t).extractLsb' 1 7 = 0 ∧ (threadHalf m.val t).extractLsb' 11 5 = 0 := by decide
  exact key ⟨chan, hc⟩ toManager

/-- The second word of a GO is its start address (R145, R252). -/
theorem dbgInst1Word_encGo (sec : Security) (chan : Nat) (addr : Word) : dbgInst1Word (encGo sec chan addr) = addr :=
  (dbgInst1Word_eq_leWord _ _ _ _ _ _).trans (leWord_wordBytes addr)

/-- That of a KILL is 0 (R144, R252). -/
theorem dbgInst1Word_killBytes : dbgInst1Word killBytes = 0 := dbgInst1Word_eq_leWord 0x01 0 0 0 0 0

/-- Settles O50: each field of a concatenation is the part that stands there. -/
theorem debugWordsHoldTheInstruction : Obligations.DebugWordsHoldTheInstruction := by
  intro chan toManager b0 b1 b2 b3 b4 b5 hc w0 w1
  have hw0 : w0 = b1 ++ b0 ++ threadHalf chan toManager := dbgInst0Word_eq_append hc toManager b0 b1 _
  have low : ∀ lo n, lo + n ≤ 16 → w0.extractLsb' lo n = (threadHalf chan toManager).extractLsb' lo n := fun lo n h => by
    rw [hw0, BitVec.extractLsb'_append_eq_of_add_le h]
  obtain ⟨hthread, hchan, hlow, hhigh⟩ := threadHalf_fields hc toManager
  have hbytes : wordBytes w1 = [b2, b3, b4, b5] := by
    rw [← wordBytes_leWord, ← dbgInst1Word_eq_leWord b0 b1]
  simp only [wordBytes, List.cons.injEq, and_true] at hbytes
  obtain ⟨hb2, hb3, hb4, hb5⟩ := hbytes
  refine ⟨?_, ?_, ?_, ?_, ?_, ?_, hb2, hb3, hb4, hb5, fun sec addr => dbgInst1Word_encGo sec chan addr,
    dbgInst1Word_killBytes⟩
  · rw [hw0, BitVec.extractLsb'_append_eq_of_le (by decide), BitVec.extractLsb'_append_eq_right]
  · rw [hw0, BitVec.extractLsb'_append_eq_of_le (by decide), BitVec.extractLsb'_append_eq_left]
  · rw [low 0 1 (by decide), hthread]
  · rw [low 8 3 (by decide), hchan]
  · rw [low 1 7 (by decide), hlow]
  · rw [low 11 5 (by decide), hhigh]

end Sys2Proof.Machine
end

section
/-! PROOF. The controller's commands with a context they can use and without one (R255, R261, R268, R294), and what a command
leaves that makes status reads alone (R257, R268). -/

namespace Sys2Proof.Machine

/-! ### A context a command cannot use -/

theorem numChannels_le_eight (cfg : Config.Params) : cfg.numChannels ≤ 8 := cfg.numChannelsLess1.isLt

theorem notChannelContext_iff (cfg : Config.Params) (ctx : ExecutionContext) :
    notChannelContext cfg ctx = true ↔ ctx.isManager = true ∨ cfg.numChannels ≤ ctx.chan := by
  simp [notChannelContext]

theorem badChannel_iff (cfg : Config.Params) (ctx : ExecutionContext) :
    badChannel cfg ctx = true ↔ ctx.isManager = false ∧ cfg.numChannels ≤ ctx.chan := by
  simp [badChannel]

section
variable {s : State} {c : Nat}

theorem execStart_badContext (p : Microprogram)
    (h : ∀ ctx, s.ctxs[c]? = some ctx → notChannelContext s.cfg ctx = true) :
    execStart c p s = .next (deliver (.validationError .badContext) s) := by
  unfold execStart
  split
  · rfl
  · rw [if_pos (h _ ‹_›)]

theorem execFinish_badContext (tmo : Option Nat)
    (h : ∀ ctx, s.ctxs[c]? = some ctx → notChannelContext s.cfg ctx = true) :
    execFinish c tmo s = .next (deliver (.validationError .badContext) s) := by
  unfold execFinish
  split
  · rfl
  · rw [if_pos (h _ ‹_›)]

theorem execPoll_badContext (h : ∀ ctx, s.ctxs[c]? = some ctx → badChannel s.cfg ctx = true) :
    execPoll c s = .next (deliver (.validationError .badContext) s) := by
  unfold execPoll
  split
  · rfl
  · rw [if_pos (h _ ‹_›)]

theorem execKillCommand_badContext (h : ∀ ctx, s.ctxs[c]? = some ctx → badChannel s.cfg ctx = true) :
    execKillCommand c s = .next (deliver (.validationError .badContext) s) := by
  unfold execKillCommand
  split
  · rfl
  · rw [if_pos (h _ ‹_›)]

end

/-- Settles O39: START and FINISH check for a channel context, POLL and KILL for a channel the DMAC has. -/
theorem unusableContextIsRejected : Obligations.UnusableContextIsRejected := by
  intro s c
  refine ⟨fun h => ?_, fun h => ?_⟩
  · have hbad : ∀ ctx, s.ctxs[c]? = some ctx → notChannelContext s.cfg ctx = true := fun ctx hc =>
      (notChannelContext_iff _ _).2 (h ctx hc)
    exact ⟨fun p => execStart_badContext p hbad, fun tmo => execFinish_badContext tmo hbad⟩
  · have hbad : ∀ ctx, s.ctxs[c]? = some ctx → badChannel s.cfg ctx = true := fun ctx hc =>
      (badChannel_iff _ _).2 (h ctx hc)
    exact ⟨execPoll_badContext hbad, execKillCommand_badContext hbad⟩

/-! ### A context it can use -/

/-- A context whose channel, where it has one, is one the DMAC has. -/
theorem usable_of_channel {cfg : Config.Params} {ctx : ExecutionContext}
    (h : ctx.isManager = false → ctx.chan < cfg.numChannels) : usable ctx := fun hm =>
  (h hm).trans_le (numChannels_le_eight cfg)

section
variable {s : State} {c : Nat} {ctx : ExecutionContext}

theorem exec_start_of_channel {p : Microprogram} (hc : s.ctxs[c]? = some ctx) (hm : ctx.isManager = false)
    (hn : ctx.chan < s.cfg.numChannels) (hp : ∃ e ∈ s.programs, e.record = p) :
    exec (.start c p) s = .next (startChannel c ctx p s) := by
  have hctx : ¬ notChannelContext s.cfg ctx = true := by simp [notChannelContext, hm, hn]
  have hknown : programKnown s p = true := by simpa [programKnown] using hp
  show execStart c p s = _
  unfold execStart
  rw [hc]
  dsimp only
  rw [if_neg hctx, if_pos hknown]

theorem not_badChannel (h : ctx.isManager = true ∨ ctx.chan < s.cfg.numChannels) : ¬ badChannel s.cfg ctx = true := by
  rw [badChannel_iff]
  rintro ⟨hm, hn⟩
  rcases h with h | h
  · rw [hm] at h
    cases h
  · omega

theorem exec_poll_of_usable (hc : s.ctxs[c]? = some ctx) (h : ¬ badChannel s.cfg ctx = true) :
    exec (.poll c) s = .next (deliver (.okState (oracleShows ctx s)) (readState ctx s).2) := by
  show execPoll c s = _
  unfold execPoll
  rw [hc]
  dsimp only
  rw [if_neg h, readState_value]

theorem exec_kill_of_usable (hc : s.ctxs[c]? = some ctx) (h : ctx.isManager = true ∨ ctx.chan < s.cfg.numChannels) :
    exec (.killCommand c) s = .next (killThread c ctx s) := by
  show execKillCommand c s = _
  unfold execKillCommand
  rw [hc]
  dsimp only
  rw [if_neg (not_badChannel h)]

theorem usable_of_kill (h : ctx.isManager = true ∨ ctx.chan < s.cfg.numChannels) : usable ctx :=
  usable_of_channel (cfg := s.cfg) fun hm => h.resolve_left (by simp [hm])

theorem startChannel_inflight (p : Microprogram) (hf : ctx.inflight = true) :
    startChannel c ctx p s = deliver (.busyError none) s := if_pos hf

theorem startChannel_running (p : Microprogram) (hf : ctx.inflight = false) (hs : oracleShows ctx s ≠ .stopped) :
    startChannel c ctx p s = deliver (.busyError (some (oracleShows ctx s))) (readState ctx s).2 := by
  simp [startChannel, hf, hs]

end

/-! ### START on a context in flight -/

/-- Settles O36: the flag is checked before anything else is done. -/
theorem startInFlightIsBusy : Obligations.StartInFlightIsBusy := by
  intro s c ctx p hc hm hn hp hf
  rw [exec_start_of_channel hc hm hn hp, startChannel_inflight p hf]
  rfl

/-- Of the ways START ends only the injected GO returns Ok, and it leaves the context in flight (R259). -/
theorem inflight_of_start_ok {s t : State} {c : Nat} {p : Microprogram} (h : execStart c p s = .next t)
    (hr : t.result = some .okUnit) :
    ∃ ctx, t.ctxs[c]? = some ctx ∧ ctx.isManager = false ∧ ctx.chan < t.cfg.numChannels ∧ ctx.inflight = true := by
  rcases execStart_cases c p s with e | e | ⟨ctx, hc, hm, hn, hp, e⟩ <;> rw [e] at h <;> cases h
  · cases hr
  · have hread : EnvOnly s (readState ctx s).2 := envOnly_readState ctx s
    rcases startChannel_cases c ctx p s with ⟨-, e⟩ | ⟨-, -, e⟩ | ⟨-, -, busy, idle, t, hw, e⟩
      | ⟨-, -, busy, last, t, hw, e⟩ <;> rw [e] at hr ⊢
    · cases hr
    · cases hr
    · have hgo := (hread.trans (envOnly_injection hw)).trans (envOnly_write32 ctx.regBase .dbgCmd 0 t)
      have hopens := (opens_goIssued (c := c) (ctx := ctx) hread.quiet hgo.quiet hp).deliver .okUnit
      refine ⟨{ ctx with progBase := p.base, inflight := true }, ?_, hm, ?_, rfl⟩
      · rw [hopens.ctxs, List.getElem?_set_self (List.getElem?_eq_some_iff.1 hc).1]
      · rw [hopens.cfg]
        exact hn
    · cases hr

/-- Settles O37: START left the context in flight, and START on a context in flight is busy. -/
theorem secondStartIsBusy : Obligations.SecondStartIsBusy := by
  intro s c p q t h hr hq
  obtain ⟨ctx, hc, hm, hn, hf⟩ := inflight_of_start_ok h hr
  exact startInFlightIsBusy t c ctx q hc hm hn hq hf

/-! ### Commands that make status reads alone -/

/-- What a status read leaves after `k` polls of a context, and a result with it. -/
theorem deliver_lastPoll {ctx : ExecutionContext} (hu : usable ctx) (r : Result) (k : Nat) (s : State) :
    let t := deliver r (readState ctx (afterPolls ctx k s)).2
    t.result = some r
    ∧ t.bus = s.bus ++ pollEvents ctx k s ++ [statusEvent ctx (afterPolls ctx k s)]
    ∧ answersUsed s t (k + 1)
    ∧ (∀ q, q ≠ statusReg ctx → getReg q t.dmac = getReg q s.dmac)
    ∧ chansBecome ctx (shownTo (polledStates ctx (k + 1) s)) s t
    ∧ { t with draws := s.draws, drawCount := s.drawCount, dmac := s.dmac, chans := s.chans, bus := s.bus,
               result := s.result } = s := by
  intro t
  refine ⟨rfl, ?_, fun m => ?_, fun q hq => ?_, chansBecome_lastPoll hu k s, ?_⟩
  · exact (readState_bus_eq ctx _).trans (by rw [afterPolls_bus])
  · show drawStream (readState ctx (afterPolls ctx k s)).2 m = _
    rw [drawStream_readState, drawStream_afterPolls]
    congr 1
    omega
  · exact (getReg_readState ctx _ hq).trans (getReg_afterPolls ctx k s q hq)
  · have henv : EnvOnly s (readState ctx (afterPolls ctx k s)).2 :=
      (afterPolls_env ctx k s).trans (envOnly_readState ctx _)
    exact congrArg (fun x : State => { x with result := s.result }) (henv.status
      (by rw [readState_dbgEnv, afterPolls_dbgEnv]) (by rw [readState_regFrees, afterPolls_regFrees]))

/-- With no poll before it: what one status read leaves. -/
theorem deliver_readState {ctx : ExecutionContext} (hu : usable ctx) (r : Result) (s : State) :
    let t := deliver r (readState ctx s).2
    t.result = some r
    ∧ t.bus = s.bus ++ [statusEvent ctx s]
    ∧ answersUsed s t 1
    ∧ (∀ q, q ≠ statusReg ctx → getReg q t.dmac = getReg q s.dmac)
    ∧ chansBecome ctx (shownTo [oracleShows ctx s]) s t
    ∧ { t with draws := s.draws, drawCount := s.drawCount, dmac := s.dmac, chans := s.chans, bus := s.bus,
               result := s.result } = s := by
  obtain ⟨hresult, hbus, hused, hregs, hchans, hframe⟩ := deliver_lastPoll hu r 0 s
  exact ⟨hresult, by simpa [pollEvents, afterPolls] using hbus, hused, hregs, hchans, hframe⟩

/-- Settles O38: START stops after its status read. -/
theorem startNeedsStopped : Obligations.StartNeedsStopped := by
  intro s c ctx p hc hm hn hp hf hs
  exact ⟨_, by rw [exec_start_of_channel hc hm hn hp, startChannel_running p hf hs],
    deliver_readState (usable_of_channel fun _ => hn) _ s⟩

/-- Settles O40: POLL is its status read. -/
theorem pollReadsTheStatusOnce : Obligations.PollReadsTheStatusOnce := by
  intro s c ctx hc
  split_ifs with hbad
  · refine execPoll_badContext fun ctx' hc' => ?_
    rw [hc] at hc'
    cases hc'
    exact (badChannel_iff _ _).2 hbad
  · have hn : ctx.isManager = false → ctx.chan < s.cfg.numChannels := fun hm => not_le.1 fun h => hbad ⟨hm, h⟩
    exact ⟨_, exec_poll_of_usable hc (by rwa [badChannel_iff]), deliver_readState (usable_of_channel hn) _ s⟩

end Sys2Proof.Machine
end

section
/-! PROOF. A status read and then a debug injection (R250 to R254): what it leaves, said once for both ways it ends. START and
KILL use it with their instructions. -/

namespace Sys2Proof.Machine

/-! ### How an injection ends -/

/-- The end of a debug injection: the accesses it made, the DMAC's answers it used, what it leaves in DBGCMD, and what is
known of the debug interface then. -/
structure InjectionEnd where
  events : List BusEvent
  answers : Nat
  cmd : Word
  dbg : DebugEnv

/-- The interface answers idle after `k` busy reads, and the instruction is started (R254). A status read in `s` comes
before. -/
def idleEnd (ctx : ExecutionContext) (m : Bool) (insn : List Byte) (s : State) (k : Nat) : InjectionEnd where
  events := injectEvents ctx m insn (dbgAnswers s 1 k) (dbgShown s 1 k)
  answers := k + 1
  cmd := 0
  dbg := { afterIdle s.dbgEnv with pending := true }

/-- Every read within the bound answers busy (R253). -/
def busyEnd (ctx : ExecutionContext) (m : Bool) (insn : List Byte) (s : State) : InjectionEnd where
  events := timeoutEvents ctx m insn (dbgAnswers s 1 (s.cfg.dbgPollLimit - 1)) (dbgShown s 1 (s.cfg.dbgPollLimit - 1))
  answers := s.cfg.dbgPollLimit
  cmd := s.dmac.dbgCmd
  dbg := afterBusy s.dbgEnv s.cfg.dbgPollLimit

/-- `s` with the instruction in this word of DBGINST0 noted. -/
def noteWord (w : Word) (s : State) : State := noteInjection { s with dmac := putReg .dbgInst0 w s.dmac }

/-- What a status read in `s` and a debug injection that ends so leave (R250 to R254, R302). A register that a transfer
reaches into holds a free value (U14; log 40), and where that is DBGINST0 some other instruction is noted. -/
structure Injected (ctx : ExecutionContext) (m : Bool) (insn : List Byte) (e : InjectionEnd) (s t : State) : Prop where
  env : EnvOnly s t
  bus : t.bus = s.bus ++ [statusEvent ctx s] ++ e.events
  used : answersUsed s t (e.answers + 1)
  regs : ∀ q, q ≠ .dbgStatus → q ≠ .dbgCmd → regMay (readState ctx s).2 q = false →
    getReg q t.dmac = getReg q (debugLoaded ctx m insn (readState ctx s).2).dmac
  cmd : regMay (readState ctx s).2 .dbgCmd = false → t.dmac.dbgCmd = e.cmd
  free : regsFree (readState ctx s).2 t
  dbg : t.dbgEnv = e.dbg
  noted : oneNoted (readState ctx s).2 t
  chans : regMay (readState ctx s).2 .dbgInst0 = false →
    ∀ n, chanEnv t n = chanEnv (noteWord (dbgInst0Word ctx.chan m insn) (readState ctx s).2) n

section
variable {ctx : ExecutionContext} {m : Bool} {insn : List Byte} {e : InjectionEnd} {s t : State}

/-- The two words stay in their registers (R251, R252). -/
theorem Injected.inst0 (h : Injected ctx m insn e s t) (hr : regMay (readState ctx s).2 .dbgInst0 = false) :
    t.dmac.dbgInst0 = dbgInst0Word ctx.chan m insn :=
  (h.regs .dbgInst0 (by decide) (by decide) hr).trans (debugLoaded_inst0 ctx m insn hr)

theorem Injected.inst1 (h : Injected ctx m insn e s t) (hr : regMay (readState ctx s).2 .dbgInst1 = false) :
    t.dmac.dbgInst1 = dbgInst1Word insn :=
  (h.regs .dbgInst1 (by decide) (by decide) hr).trans (debugLoaded_inst1 ctx m insn hr)

theorem ne_debug_of_not_debugReg {q : DmacReg} (h : debugReg q = false) :
    q ≠ .dbgStatus ∧ q ≠ .dbgCmd ∧ q ≠ .dbgInst0 ∧ q ≠ .dbgInst1 := by
  refine ⟨?_, ?_, ?_, ?_⟩ <;> (rintro rfl; cases h)

theorem Injected.others (h : Injected ctx m insn e s t) : otherRegsKept ctx (readState ctx s).2 s t := by
  intro q hq hd hr
  obtain ⟨hstatus, hcmd, hinst0, hinst1⟩ := ne_debug_of_not_debugReg hd
  rw [h.regs q hstatus hcmd hr, debugLoaded_regs ctx m insn hr hinst0 hinst1, getReg_readState ctx s hq]

/-- What is noted of the channels, for an instruction that is noted of the context's channel alone. -/
theorem Injected.chansBecome {f : ChannelEnv → ChannelEnv} (h : Injected ctx m insn e s t)
    (hf : Machine.chansBecome ctx f (readState ctx s).2 (noteWord (dbgInst0Word ctx.chan m insn) (readState ctx s).2))
    (hr : regMay (readState ctx s).2 .dbgInst0 = false) : Machine.chansBecome ctx f (readState ctx s).2 t := fun n => by
  rw [h.chans hr, hf n]

end

/-! ### The status read and the wait -/

/-- A status read uses one answer and tells nothing of DBGSTATUS. -/
theorem dbgShown_readState (ctx : ExecutionContext) (s : State) (j : Nat) :
    dbgShown (readState ctx s).2 0 j = dbgShown s 1 j :=
  dbgShown_congr (fun k => by rw [drawStream_readState, Nat.add_comm]) (envOnly_readState ctx s).protocolOn
    (readState_dbgEnv ctx s) 0 j

theorem dbgAnswers_readState (ctx : ExecutionContext) (s : State) (n : Nat) :
    dbgAnswers (readState ctx s).2 0 n = dbgAnswers s 1 n := by
  unfold dbgAnswers
  rw [funext (dbgShown_readState ctx s)]

theorem oneNoted_congr {s s' t : State} (h : s'.chans = s.chans) (hn : oneNoted s t) : oneNoted s' t := by
  obtain ⟨w, hw⟩ := hn
  exact ⟨w, fun n hlt => by rw [hw n hlt, chanEnv_congr h]⟩

section
variable {ctx : ExecutionContext} {m : Bool} {insn : List Byte} {busy : List Word} {last : Word} {s r t : State}

/-- The wait tells nothing of the channels, so transfers reach into the same registers after it. -/
theorem Waits.chans_loaded (h : Waits ctx.regBase busy last (debugLoaded ctx m insn r) t) : t.chans = r.chans := by
  rw [h.chans, debugLoaded_chans]

theorem Waits.regMay_loaded (h : Waits ctx.regBase busy last (debugLoaded ctx m insn r) t) (q : DmacReg) :
    regMay t q = regMay r q := (envOnly_injection h).regMay h.chans_loaded q

theorem Waits.inst0 (h : Waits ctx.regBase busy last (debugLoaded ctx m insn r) t)
    (hr : regMay r .dbgInst0 = false) : t.dmac.dbgInst0 = dbgInst0Word ctx.chan m insn :=
  (h.regs .dbgInst0 (by decide)).trans (debugLoaded_inst0 ctx m insn hr)

/-- What is noted when the instruction in DBGINST0 runs after the wait. -/
theorem Waits.chanEnv_note (h : Waits ctx.regBase busy last (debugLoaded ctx m insn r) t)
    (hr : regMay r .dbgInst0 = false) (n : Nat) :
    chanEnv (noteInjection t) n = chanEnv (noteWord (dbgInst0Word ctx.chan m insn) r) n :=
  chanEnv_congr (noteInjection_chans_congr (s := { r with dmac := putReg .dbgInst0 _ r.dmac }) (h.inst0 hr)
    h.chans_loaded) n

/-- The accesses of a status read, the two writes, and the wait. -/
theorem Waits.bus_loaded (h : Waits ctx.regBase busy last (debugLoaded ctx m insn (readState ctx s).2) t) :
    t.bus = s.bus ++ [statusEvent ctx s] ++ timeoutEvents ctx m insn busy last := by
  rw [h.bus, debugLoaded_bus, readState_bus_eq]
  simp [timeoutEvents, busyEvents, debugRead]

theorem Waits.draws_loaded (h : Waits ctx.regBase busy last (debugLoaded ctx m insn (readState ctx s).2) t) :
    answersUsed s t (busy.length + 2) := fun k => by
  rw [h.draws, debugLoaded_draws, drawStream_readState]
  congr 1
  omega

theorem Waits.dbg_loaded (h : Waits ctx.regBase busy last (debugLoaded ctx m insn (readState ctx s).2) t) :
    t.dbgEnv = (afterBusy s.dbgEnv busy.length).shown (dbgBusy last) := by
  rw [h.dbg, debugLoaded_dbgEnv, readState_dbgEnv]

/-! ### The two ends -/

/-- An injection that ends with DBGCMD written: the registers are settled once more (U14). -/
theorem injected_of_started (h : Waits ctx.regBase busy last (debugLoaded ctx m insn (readState ctx s).2) t)
    (hidle : dbgBusy last = false) :
    Injected ctx m insn ⟨injectEvents ctx m insn busy last, busy.length + 1, 0, { afterIdle s.dbgEnv with pending := true }⟩
      s (write32 ctx.regBase .dbgCmd 0 t) where
  env := ((envOnly_readState ctx s).trans (envOnly_injection h)).trans (envOnly_write32 _ _ _ t)
  bus := by
    rw [write32_bus, h.bus_loaded]
    simp [timeoutEvents, injectEvents]
  used k := (drawStream_write32 _ _ _ t k).trans (h.draws_loaded k)
  regs q hstatus hcmd hr := by
    rw [getReg_write32 ((h.regMay_loaded q).trans hr), getReg_putReg_of_ne _ _ hcmd, h.regs q hstatus]
  cmd hr := getReg_write32 (q := .dbgCmd) ((h.regMay_loaded .dbgCmd).trans hr)
  free q hb _ hr := write32_free hb ((h.regMay_loaded q).trans hr)
  dbg := by
    rw [write32_dbgCmd_dbgEnv, h.dbg_loaded, hidle]
    rfl
  noted := oneNoted_congr h.chans_loaded.symm (oneNoted_write32_dbgCmd ctx.regBase t)
  chans hr n := by
    rw [chanEnv_write32_dbgCmd _ ((h.regMay_loaded _).trans hr), h.chanEnv_note hr]

/-- One that runs out of polls: the pending instruction may run as the one just written (U5; log 31). -/
theorem injected_of_timedOut (h : Waits ctx.regBase busy last (debugLoaded ctx m insn (readState ctx s).2) t)
    (hbusy : dbgBusy last = true) :
    Injected ctx m insn ⟨timeoutEvents ctx m insn busy last, busy.length + 1, s.dmac.dbgCmd,
      afterBusy s.dbgEnv (busy.length + 1)⟩ s (noteInjection t) where
  env := ((envOnly_readState ctx s).trans (envOnly_injection h)).trans (envOnly_noteInjection t)
  bus := by rw [noteInjection_bus, h.bus_loaded]
  used k := (drawStream_congr (noteInjection_draws t) (noteInjection_drawCount t) k).trans (h.draws_loaded k)
  regs q hstatus _ _ := by rw [noteInjection_dmac, h.regs q hstatus]
  cmd hr := by
    have hkept := debugLoaded_regs ctx m insn hr (by decide) (by decide)
    have hread := getReg_readState (q := .dbgCmd) ctx s (by unfold statusReg; split_ifs <;> simp)
    rw [noteInjection_dmac]
    exact (h.regs .dbgCmd (by decide)).trans (hkept.trans hread)
  free q hb hstatus hr := by
    obtain ⟨k, hk⟩ := debugLoaded_free ctx m insn hb hr
    exact ⟨k, by rw [noteInjection_dmac, h.regs q hstatus, hk]⟩
  dbg := by
    rw [noteInjection_dbgEnv, h.dbg_loaded, hbusy]
    simp [afterBusy, DebugEnv.shown, Nat.sub_sub]
  noted := oneNoted_congr h.chans_loaded.symm (oneNoted_noteInjection t)
  chans hr n := h.chanEnv_note hr n

end

section
variable {ctx : ExecutionContext} {s : State} (m : Bool) (insn : List Byte)

/-- After a status read, with the debug interface idle within the bound, the instruction is injected (R250 to R254). -/
theorem debugExec_idle {k : Nat} (hi : idleAfter s 1 k) (hk : k < s.cfg.dbgPollLimit) :
    ∃ t, debugExec ctx m insn (readState ctx s).2 = .ready t ∧ Injected ctx m insn (idleEnd ctx m insn s k) s t := by
  have hi' : idleAfter (readState ctx s).2 0 k := by
    simpa only [idleAfter, dbgShown_readState] using hi
  obtain ⟨t, ht, hw⟩ := debugExec_ready (ctx := ctx) (m := m) (insn := insn) (by rwa [readState_cfg]) hi'
  refine ⟨_, ht, ?_⟩
  rw [dbgAnswers_readState, dbgShown_readState] at hw
  have h := injected_of_started hw hi.2
  rwa [dbgAnswers_length] at h

/-- With it busy in every read within the bound, it is not started. -/
theorem debugExec_busy (hb : busyFor s 1 s.cfg.dbgPollLimit) :
    ∃ t, debugExec ctx m insn (readState ctx s).2 = .timedOut s.cfg.dbgPollLimit t
      ∧ Injected ctx m insn (busyEnd ctx m insn s) s t := by
  have hpos : s.cfg.dbgPollLimit - 1 + 1 = s.cfg.dbgPollLimit := rfl
  have hb' : busyFor (readState ctx s).2 0 (readState ctx s).2.cfg.dbgPollLimit := by
    simpa only [busyFor, dbgShown_readState, readState_cfg] using hb
  obtain ⟨t, ht, hw⟩ := debugExec_timedOut (ctx := ctx) (m := m) (insn := insn) hb'
  rw [readState_cfg] at ht hw
  refine ⟨_, ht, ?_⟩
  rw [dbgAnswers_readState, dbgShown_readState] at hw
  have h := injected_of_timedOut hw (hb _ (by omega))
  rwa [dbgAnswers_length, hpos] at h

end

end Sys2Proof.Machine
end

section
/-! PROOF. START past its checks (R258 to R260): the transfers that begin after the injection, when the GO was started and when
it only may run. -/

namespace Sys2Proof.Machine

/-! ### The GO -/

/-- The GO is noted of its context's channel alone (R302, R368). -/
theorem chansBecome_noteGo {ctx : ExecutionContext} (hu : usable ctx) (hm : ctx.isManager = false) (addr : Word)
    (r : State) :
    chansBecome ctx ChannelEnv.gone r (noteWord (dbgInst0Word ctx.chan true (goBytes ctx addr)) r) := fun n => by
  have h := chanEnv_noteGo (addr := addr)
    (s := { r with dmac := putReg .dbgInst0 (dbgInst0Word ctx.chan true (goBytes ctx addr)) r.dmac }) (hu hm) rfl n
  simp only [hm, true_and]
  exact h

/-- After its GO a channel has not come to rest, so its transfers may be executing (R368). -/
theorem mayRun_of_gone {t : State} {i : Issue} {e : ChannelEnv} (h : chanEnv t i.chan = e.gone) : mayRun t i = true := by
  simp [mayRun, h, channelIdle, ChannelEnv.gone]

/-- A channel at rest after an instruction was noted was at rest before. -/
theorem channelIdle_of_oneNoted {r t : State} (h : oneNoted r t) (n : Nat) (hi : channelIdle (chanEnv t n) = true) :
    channelIdle (chanEnv r n) = true := by
  obtain ⟨w, hw⟩ := h
  by_cases hn : n < 8
  · rw [hw n hn] at hi
    exact channelIdle_of_wordNoted hi
  · have hbank : ∀ u : State, chanEnv u n = launchEnv n := fun u => by simp [chanEnv, Vector.getD, hn]
    rwa [hbank] at hi ⊢

/-! ### The transfers that begin -/

theorem newIssues_congr {s t : State} (h : t.programs = s.programs) (isOpen : Bool) (c chan : Nat) (p : Microprogram) :
    newIssues t isOpen c chan p = newIssues s isOpen c chan p := by
  unfold newIssues
  rw [h]

/-- The bytes a transfer moves, its residual left out, are among those it may write. -/
theorem mayWrite_moved_of_dst {i : Issue} {a : Word}
    (h : inRange i.data.dst (i.data.size - i.record.residual) a = true) : mayWrite movedLength i a = true := by
  have hwhole : inRange i.data.dst i.data.size a = true := inRange_mono (Nat.sub_le _ _) h
  unfold mayWrite movedLength
  split_ifs
  · exact List.any_eq_true.2 ⟨(i.data.dst, i.data.size), by simp [transferRanges], hwhole⟩
  · exact hwhole
  · exact h

/-- What both ends of START's injection leave besides the result and the context. -/
structure StartLeaves (c : Nat) (ctx : ExecutionContext) (p : Microprogram) (opened : Bool) (e : InjectionEnd)
    (s t : State) : Prop where
  bus : t.bus = s.bus ++ [statusEvent ctx s] ++ e.events
  used : answersUsed s t (e.answers + 1)
  inst0 : regMay t .dbgInst0 = false →
    t.dmac.dbgInst0 = dbgInst0Word ctx.chan true (encGo ctx.security ctx.chan p.base)
  inst1 : regMay t .dbgInst1 = false → t.dmac.dbgInst1 = p.base
  cmd : regMay t .dbgCmd = false → t.dmac.dbgCmd = e.cmd
  others : otherRegsKept ctx t s t
  free : regsFree t t
  noted : oneNoted (readState ctx s).2 t
  gone : regMay (readState ctx s).2 .dbgInst0 = false → chansBecome ctx ChannelEnv.gone (readState ctx s).2 t
  dbg : t.dbgEnv = e.dbg
  issues : t.issues
    = (newIssues s opened c ctx.chan p ++ openIssues (readState ctx s).2 ctx.chan).map (markHazards t)
  forgets : onlyForgetsDma s t
  wild : t.wild = (s.wild || transfersDisturb t)
  frame : { t with draws := s.draws, drawCount := s.drawCount, dmac := s.dmac, chans := s.chans, dbgEnv := s.dbgEnv,
                   regFrees := s.regFrees, bus := s.bus, result := s.result, ctxs := s.ctxs, issues := s.issues,
                   mem := s.mem, wild := s.wild } = s

/-- A GO's record has a transfer for each request it was returned for (R305). -/
theorem exists_newIssue {s : State} {d : ProgramEntry} (hd : d ∈ s.programs) (isOpen : Bool) (c chan : Nat) :
    ∃ i ∈ newIssues s isOpen c chan d.record,
      i.data = d.data ∧ i.record = d.record ∧ i.chan = chan ∧ i.isOpen = isOpen :=
  ⟨_, List.mem_map.2 ⟨d, List.mem_filter.2 ⟨hd, beq_self_eq_true _⟩, rfl⟩, rfl, rfl, rfl, rfl⟩

/-- The bytes that the program of a GO moves are not known, where it was started or its channel is known to have seen it. -/
theorem StartLeaves.moved {c : Nat} {ctx : ExecutionContext} {p : Microprogram} {opened : Bool} {e : InjectionEnd}
    {s t : State} (h : StartLeaves c ctx p opened e s t) (hm : ctx.isManager = false)
    (ho : opened = true ∨ regMay (readState ctx s).2 .dbgInst0 = false) :
    ∀ d ∈ s.programs, d.record = p →
      ∀ a, inRange d.data.dst (d.data.size - p.residual) a = true → byteAt t a = none := by
  rintro d hd rfl a ha
  obtain ⟨i, hi, hdata, hrecord, hchan, hopen⟩ := exists_newIssue hd opened c ctx.chan
  have hmem : markHazards t i ∈ t.issues := by
    rw [h.issues]
    exact List.mem_map_of_mem (List.mem_append_left _ hi)
  have hrun : mayRun t i = true := by
    rcases ho with rfl | hr
    · simp [mayRun, hopen]
    · have hgone := h.gone hr i.chan
      rw [if_pos ⟨hm, hchan⟩] at hgone
      exact mayRun_of_gone hgone
  have hwrites : mayWrite movedLength (markHazards t i) a = true := by
    rw [← hdata, ← hrecord] at ha
    exact mayWrite_moved_of_dst (i := markHazards t i) ha
  have hmay : dmaMay t a = true :=
    List.any_eq_true.2 ⟨markHazards t i, hmem, (Bool.and_eq_true _ _).mpr ⟨hrun, hwrites⟩⟩
  rw [h.forgets a, if_pos hmay]

/-- Transfers that begin after the injection of the GO, with the contexts as START leaves them. -/
theorem startLeaves_of_injected {c : Nat} {ctx : ExecutionContext} {p : Microprogram} {e : InjectionEnd} {s v : State}
    (hu : usable ctx) (hm : ctx.isManager = false) (h : Injected ctx true (goBytes ctx p.base) e s v) (opened : Bool)
    (ctxs : List ExecutionContext) (res : Result) :
    StartLeaves c ctx p opened e s
      (deliver res (transfersBegin (newIssues v opened c ctx.chan p ++ openIssues (readState ctx s).2 ctx.chan)
        { v with ctxs := ctxs })) := by
  obtain ⟨hissues, hwild, hforgets, hregs, hfree, hframe⟩ := transfersBegin_spec
    (newIssues v opened c ctx.chan p ++ openIssues (readState ctx s).2 ctx.chan) { v with ctxs := ctxs }
  set t := transfersBegin (newIssues v opened c ctx.chan p ++ openIssues (readState ctx s).2 ctx.chan)
    { v with ctxs := ctxs }
  have hchans : t.chans = v.chans := transfersBegin_chans _ _
  have hcfg : t.cfg = (readState ctx s).2.cfg := by
    rw [readState_cfg, ← h.env.cfg]
    exact transfersBegin_cfg _ _
  have hnoted : oneNoted (readState ctx s).2 t := by
    obtain ⟨w, hw⟩ := h.noted
    exact ⟨w, fun n hn => by rw [chanEnv_congr hchans, hw n hn]⟩
  have hmay : ∀ q, regMay t q = false → regMay (readState ctx s).2 q = false := fun q hq => by
    by_contra hc
    rw [Bool.not_eq_false] at hc
    rw [regMay_openIssues hcfg hissues (channelIdle_of_oneNoted hnoted) hc] at hq
    cases hq
  constructor
  case bus => exact (transfersBegin_bus _ _).trans h.bus
  case used =>
    exact fun k => (drawStream_congr (transfersBegin_draws _ _) (transfersBegin_drawCount _ _) k).trans (h.used k)
  case inst0 => exact fun hr => (hregs .dbgInst0 hr).trans (h.inst0 (hmay _ hr))
  case inst1 => exact fun hr => (hregs .dbgInst1 hr).trans ((h.inst1 (hmay _ hr)).trans (dbgInst1Word_encGo _ _ _))
  case cmd => exact fun hr => (hregs .dbgCmd hr).trans (h.cmd (hmay _ hr))
  case others => exact fun q hq hd hr => (hregs q hr).trans (h.others q hq hd (hmay q hr))
  case free => exact hfree
  case noted => exact hnoted
  case gone => exact fun hr => (h.chansBecome (chansBecome_noteGo hu hm p.base _) hr).congr rfl hchans
  case dbg => exact (transfersBegin_dbgEnv _ _).trans h.dbg
  case issues =>
    rw [← newIssues_congr h.env.programs]
    exact hissues
  case forgets =>
    exact fun a => (hforgets a).trans (congrArg (fun b => if dmaMay t a then none else b) (h.env.byteAt a))
  case wild =>
    rw [← h.env.wild]
    exact hwild
  case frame =>
    have hback := congrArg (fun x : State => { envBack s x with result := s.result, ctxs := s.ctxs, issues := s.issues,
                                                                mem := s.mem, wild := s.wild }) hframe
    have henv := congrArg (fun x : State => { x with result := s.result, ctxs := s.ctxs, issues := s.issues, mem := s.mem,
                                                     wild := s.wild }) h.env
    exact hback.trans henv

/-! ### The two statements -/

section
variable {ctx : ExecutionContext} {s v : State} (c : Nat) (p : Microprogram)

/-- START on a channel that reads STOPPED, when the GO is started (R258, R259). -/
theorem startChannel_ready (hf : ctx.inflight = false) (hs : oracleShows ctx s = .stopped)
    (hv : debugExec ctx true (goBytes ctx p.base) (readState ctx s).2 = .ready v) :
    startChannel c ctx p s = deliver .okUnit (goIssued c ctx p (openIssues (readState ctx s).2 ctx.chan) v) := by
  simp [startChannel, hf, hs, hv]

/-- When it is not (R260). -/
theorem startChannel_timedOut {n : Nat} (hf : ctx.inflight = false) (hs : oracleShows ctx s = .stopped)
    (hv : debugExec ctx true (goBytes ctx p.base) (readState ctx s).2 = .timedOut n v) :
    startChannel c ctx p s
      = deliver (.timeout .debug n) (goOverwrote c ctx p (openIssues (readState ctx s).2 ctx.chan) v) := by
  simp [startChannel, hf, hs, hv]

end

/-- Settles O34: the transfers that begin after a GO that was started are open. -/
theorem startInjectsGo : Obligations.StartInjectsGo := by
  intro s c ctx p k hc hm hn hp hf hs hi hk
  have hu : usable ctx := usable_of_channel fun _ => hn
  obtain ⟨v, hv, hinj⟩ := debugExec_idle true (goBytes ctx p.base) hi hk
  have hexec : exec (.start c p) s
      = .next (deliver .okUnit (goIssued c ctx p (openIssues (readState ctx s).2 ctx.chan) v)) := by
    rw [exec_start_of_channel hc hm hn hp, startChannel_ready c p hf hs hv]
  have h := startLeaves_of_injected (c := c) hu hm hinj true
    (v.ctxs.set c { ctx with progBase := p.base, inflight := true }) .okUnit
  have hread := chansBecome_readState hu s
  rw [hs] at hread
  refine ⟨_, hexec, rfl, ?_, h.bus, h.used, h.inst0, h.inst1, h.cmd, h.others, h.free, hread, h.noted,
    fun hr => (hread.trans (h.gone hr)).of_eq fun _ => rfl, h.dbg, h.moved hm (Or.inl rfl), h.issues, h.forgets, h.wild,
    h.frame⟩
  rw [deliver_ctxs, (goIssued_spec _ _ _ _ _).1, hinj.env.ctxs]

/-- Settles O35: those of a GO that was not started are not open, and the context stays. -/
theorem startTimesOutOnBusyDebug : Obligations.StartTimesOutOnBusyDebug := by
  intro s c ctx p hc hm hn hp hf hs hb
  have hu : usable ctx := usable_of_channel fun _ => hn
  obtain ⟨v, hv, hinj⟩ := debugExec_busy true (goBytes ctx p.base) hb
  have hexec : exec (.start c p) s = .next (deliver (.timeout .debug s.cfg.dbgPollLimit)
      (goOverwrote c ctx p (openIssues (readState ctx s).2 ctx.chan) v)) := by
    rw [exec_start_of_channel hc hm hn hp, startChannel_timedOut c p hf hs hv]
  have h := startLeaves_of_injected (c := c) hu hm hinj false v.ctxs (.timeout .debug s.cfg.dbgPollLimit)
  have hctxs : (deliver (.timeout .debug s.cfg.dbgPollLimit)
      (goOverwrote c ctx p (openIssues (readState ctx s).2 ctx.chan) v)).ctxs = s.ctxs :=
    (transfersBegin_ctxs _ _).trans hinj.env.ctxs
  have hread := chansBecome_readState hu s
  rw [hs] at hread
  refine ⟨_, hexec, rfl, h.bus, h.used, h.inst0, h.inst1, h.cmd, h.others, h.free, hread, h.noted,
    fun hr => (hread.trans (h.gone hr)).of_eq fun _ => rfl, h.dbg, h.issues, fun hr => h.moved hm (Or.inr hr), h.forgets,
    h.wild, ?_⟩
  have hframe := h.frame
  rw [← hctxs] at hframe
  exact hframe

end Sys2Proof.Machine
end

section
/-! PROOF. KILL (R261 to R265): the wait for FAULT_COMPLETING, a channel that is ending, and the injection, when the KILL was
started and when it only may run. -/

namespace Sys2Proof.Machine

/-! ### What a KILL does to the transfers -/

theorem closes_eq_closedBy (c : Nat) (ctx : ExecutionContext) (i : Issue) : closes c ctx i = closedBy c ctx i := by
  simp [closes, closedBy]

section
variable {s u : State} (c : Nat) (ctx : ExecutionContext)

theorem onlyCloses_clearInflight (h : EnvOnly s u) : onlyCloses c ctx s (clearInflight c ctx u) := by
  show u.issues.map _ = _
  simp only [h.issues, closes_eq_closedBy]

theorem onlyDisturbs_forgetKilled (h : EnvOnly s u) :
    onlyDisturbs s (forgetKilled ctx u) (fun i => !ctx.isManager && i.chan == ctx.chan) := by
  refine ⟨fun a => ?_, congrArg (List.map _) h.issues⟩
  refine (byteAt_forgetTransfers (killedIssue ctx) wholeLength u a).trans ?_
  rw [h.issues, h.byteAt a]
  rfl

theorem onlyKills_forgetKilled (h : EnvOnly s u) : onlyKills c ctx s (clearInflight c ctx (forgetKilled ctx u)) := by
  obtain ⟨hforgets, hmarked⟩ := onlyDisturbs_forgetKilled ctx h
  refine ⟨hforgets, ?_⟩
  show (forgetKilled ctx u).issues.map _ = _
  simp only [hmarked, List.map_map, closes_eq_closedBy]
  rfl

end

/-- The KILL is noted of its context's channel alone; a manager has none (R302). -/
theorem chansBecome_noteKill {ctx : ExecutionContext} (hu : usable ctx) (r : State) :
    chansBecome ctx ChannelEnv.killed r (noteWord (dbgInst0Word ctx.chan ctx.isManager killBytes) r) := fun n =>
  chanEnv_noteKill (s := { r with dmac := putReg .dbgInst0 (dbgInst0Word ctx.chan ctx.isManager killBytes) r.dmac }) hu rfl n

/-! ### KILL by the state it reads -/

theorem killIsNoOp_iff (st : ChannelState) :
    killIsNoOp st = true ↔ st ∈ [ChannelState.completing, .killing, .stopped] := by
  simp [killIsNoOp, or_assoc]

section
variable {c : Nat} {ctx : ExecutionContext} {s : State}

/-- KILL goes on from where its wait ends (R261). -/
theorem killThread_of_settled {st : ChannelState} {u : State} (h : killWait ctx s = .settled st u) :
    killThread c ctx s = killSettled c ctx st u := by
  simp [killThread, h]

/-- Where the wait runs out of polls, so does KILL (R264). -/
theorem killThread_of_timedOut {w : Nat} {u : State} (h : killWait ctx s = .timedOut w u) :
    killThread c ctx s = deliver (.timeout .killWait w) u := by
  simp [killThread, h]

/-- In any state but FAULT_COMPLETING the first read ends the wait (R261). -/
theorem killThread_settled (h : oracleShows ctx s ≠ .faultCompleting) :
    killThread c ctx s = killSettled c ctx (oracleShows ctx s) (readState ctx s).2 :=
  killThread_of_settled (if_neg h)

/-- In a state that is ending KILL makes no write (R262, R265). -/
theorem killThread_ending (h : oracleShows ctx s ∈ [ChannelState.completing, .killing, .stopped]) :
    killThread c ctx s = deliver .okUnit (clearInflight c ctx
      (if oracleShows ctx s = .stopped then (readState ctx s).2 else forgetKilled ctx (readState ctx s).2)) := by
  have hne : oracleShows ctx s ≠ .faultCompleting := fun he => by
    rw [he] at h
    simp at h
  rw [killThread_settled hne]
  exact if_pos ((killIsNoOp_iff _).2 h)

/-- In any other it goes on past its wait to inject (R263). -/
theorem killThread_injects (h : oracleShows ctx s ∉ [ChannelState.completing, .killing, .stopped, .faultCompleting]) :
    killIsNoOp (oracleShows ctx s) = false
      ∧ killThread c ctx s = killSettled c ctx (oracleShows ctx s) (readState ctx s).2 := by
  refine ⟨?_, killThread_settled fun he => ?_⟩
  · rw [← Bool.not_eq_true, killIsNoOp_iff]
    exact fun hk => h (List.mem_append_left [ChannelState.faultCompleting] hk)
  · rw [he] at h
    simp at h

/-- When the KILL is started (R263). -/
theorem killThread_ready {v : State}
    (h : oracleShows ctx s ∉ [ChannelState.completing, .killing, .stopped, .faultCompleting])
    (hv : debugExec ctx ctx.isManager killBytes (readState ctx s).2 = .ready v) :
    killThread c ctx s = deliver .okUnit (clearInflight c ctx (forgetKilled ctx v)) := by
  obtain ⟨hnoop, hsettled⟩ := killThread_injects (c := c) h
  rw [hsettled]
  simp [killSettled, hnoop, hv]

/-- When it is not (R264). -/
theorem killThread_timedOut {n : Nat} {v : State}
    (h : oracleShows ctx s ∉ [ChannelState.completing, .killing, .stopped, .faultCompleting])
    (hv : debugExec ctx ctx.isManager killBytes (readState ctx s).2 = .timedOut n v) :
    killThread c ctx s = deliver (.timeout .debug n) (forgetKilled ctx v) := by
  obtain ⟨hnoop, hsettled⟩ := killThread_injects (c := c) h
  rw [hsettled]
  simp [killSettled, hnoop, hv]

/-- In FAULT_COMPLETING it waits (R261). -/
theorem killWait_faultCompleting (h : oracleShows ctx s = .faultCompleting) :
    killWait ctx s = killWaitLoop ctx s.cfg.killWaitLimitLess1 1 (readState ctx s).2 := if_pos h

end

/-- Settles O41: the state read decides what is forgotten. -/
theorem killOfAnEndingChannelIsANoOp : Obligations.KillOfAnEndingChannelIsANoOp := by
  intro s c ctx hc hn hs
  have hread : EnvOnly s (readState ctx s).2 := envOnly_readState ctx s
  obtain ⟨-, hbus, hused, hregs, hchans, -⟩ := deliver_readState (usable_of_kill hn) .okUnit s
  have hexec := (exec_kill_of_usable hc hn).trans (congrArg _ (killThread_ending hs))
  have hctxs := congrArg (fun x : List ExecutionContext => x.set c { ctx with inflight := false }) hread.ctxs
  have hframe := congrArg (fun x : State => { x with result := s.result, ctxs := s.ctxs, mem := s.mem, issues := s.issues })
    (readState_frame ctx s)
  by_cases hst : oracleShows ctx s = .stopped
  · rw [if_pos hst] at hexec
    exact ⟨_, hexec, rfl, hctxs, hbus, hused, hregs, hchans,
      fun _ => ⟨hread.byteAt, onlyCloses_clearInflight c ctx hread⟩, fun hne => absurd hst hne, hframe⟩
  · rw [if_neg hst] at hexec
    exact ⟨_, hexec, rfl, hctxs, hbus, hused, hregs, hchans, fun he => absurd he hst,
      fun _ => onlyKills_forgetKilled c ctx hread, hframe⟩

/-- Settles O42: after the injection the context's transfers are closed and disturbed. -/
theorem killInjectsKill : Obligations.KillInjectsKill := by
  intro s c ctx k hc hn hs hi hk
  have hu : usable ctx := usable_of_kill hn
  obtain ⟨v, hv, hinj⟩ := debugExec_idle ctx.isManager killBytes hi hk
  have hexec : exec (.killCommand c) s = .next (deliver .okUnit (clearInflight c ctx (forgetKilled ctx v))) := by
    rw [exec_kill_of_usable hc hn, killThread_ready hs hv]
  have hread := chansBecome_readState hu s
  exact ⟨_, hexec, rfl, congrArg (fun x : List ExecutionContext => x.set c { ctx with inflight := false }) hinj.env.ctxs,
    hinj.bus, hinj.used, hinj.inst0, fun hr => (hinj.inst1 hr).trans dbgInst1Word_killBytes, hinj.cmd, hinj.others,
    hinj.free, hread, hinj.noted,
    fun hr => (hread.trans (hinj.chansBecome (chansBecome_noteKill hu _) hr)).of_eq fun _ => rfl,
    hinj.dbg, onlyKills_forgetKilled c ctx hinj.env,
    congrArg (fun x : State => { x with result := s.result, ctxs := s.ctxs, mem := s.mem, issues := s.issues }) hinj.env⟩

/-- Settles O43: without the start they are disturbed, and the context stays. -/
theorem killTimesOutOnBusyDebug : Obligations.KillTimesOutOnBusyDebug := by
  intro s c ctx hc hn hs hb
  have hu : usable ctx := usable_of_kill hn
  obtain ⟨v, hv, hinj⟩ := debugExec_busy ctx.isManager killBytes hb
  have hexec : exec (.killCommand c) s
      = .next (deliver (.timeout .debug s.cfg.dbgPollLimit) (forgetKilled ctx v)) := by
    rw [exec_kill_of_usable hc hn, killThread_timedOut hs hv]
  have hread := chansBecome_readState hu s
  exact ⟨_, hexec, rfl, hinj.bus, hinj.used, hinj.inst0, fun hr => (hinj.inst1 hr).trans dbgInst1Word_killBytes,
    hinj.cmd, hinj.others, hinj.free, hread, hinj.noted,
    fun hr => (hread.trans (hinj.chansBecome (chansBecome_noteKill hu _) hr)).of_eq fun _ => rfl,
    hinj.dbg, onlyDisturbs_forgetKilled ctx hinj.env,
    congrArg (fun x : State => { x with result := s.result, mem := s.mem, issues := s.issues }) hinj.env⟩

/-! ### The wait -/

/-- What polls after a first read leave, and a result with them. -/
theorem deliver_lastPoll_after_read {ctx : ExecutionContext} (hu : usable ctx) (r : Result) (k : Nat) (s : State) :
    let s1 := (readState ctx s).2
    let t := deliver r (readState ctx (afterPolls ctx k s1)).2
    t.result = some r
    ∧ t.bus = s.bus ++ [statusEvent ctx s] ++ pollEvents ctx k s1 ++ [statusEvent ctx (afterPolls ctx k s1)]
    ∧ answersUsed s t (k + 1 + 1)
    ∧ (∀ q, q ≠ statusReg ctx → getReg q t.dmac = getReg q s.dmac)
    ∧ chansBecome ctx (shownTo (oracleShows ctx s :: polledStates ctx (k + 1) s1)) s t
    ∧ { t with draws := s.draws, drawCount := s.drawCount, dmac := s.dmac, chans := s.chans, bus := s.bus,
               result := s.result } = s := by
  intro s1 t
  obtain ⟨hresult, hbus, hused, hregs, hchans, hframe⟩ := deliver_lastPoll hu r k s1
  refine ⟨hresult, ?_, fun m => ?_, fun q hq => ?_, ?_, ?_⟩
  · exact hbus.trans (by rw [readState_bus_eq])
  · rw [hused m, drawStream_readState, Nat.add_right_comm (k + 1)]
  · exact (hregs q hq).trans (getReg_readState ctx s hq)
  · exact ((chansBecome_readState hu s).trans hchans).of_eq fun e => shownTo_append _ _ e
  · have hback := congrArg (fun x : State => { x with draws := s.draws, drawCount := s.drawCount, dmac := s.dmac,
                                                       chans := s.chans, bus := s.bus, result := s.result }) hframe
    exact hback.trans (congrArg (fun x : State => { x with result := s.result }) (readState_frame ctx s))

/-- Settles O44: the wait ends as KILL of a channel that shows that state at once, or it is reads alone. -/
theorem killWaitsOutFaultCompleting : Obligations.KillWaitsOutFaultCompleting := by
  rintro s c ctx s1 hc hn hs rfl
  have hwait := killWait_faultCompleting hs
  refine ⟨fun k hbefore hk hend => ?_, fun hnone => ?_⟩
  · have henv : EnvOnly s (afterPolls ctx k (readState ctx s).2) :=
      (envOnly_readState ctx s).trans (afterPolls_env ctx k _)
    have hk' : k ≤ s.cfg.killWaitLimitLess1 := Nat.le_of_lt_succ hk
    have hne : oracleShows ctx (afterPolls ctx k (readState ctx s).2) ≠ .faultCompleting := fun he => by
      rw [polled, he] at hend
      simp at hend
    rw [killWaitLoop_settled hk' hbefore hend] at hwait
    refine ⟨?_, rfl, henv.ctxs, henv.cfg, by rw [afterPolls_bus, readState_bus_eq]⟩
    rw [exec_kill_of_usable hc hn, exec_kill_of_usable (henv.ctxs ▸ hc) (henv.cfg ▸ hn), killThread_settled hne,
      killThread_of_settled hwait, polled]
  · rw [killWaitLoop_timedOut hnone, Nat.add_comm 1] at hwait
    have hexec : exec (.killCommand c) s = .next (deliver (.timeout .killWait s.cfg.killWaitLimit)
        (readState ctx (afterPolls ctx s.cfg.killWaitLimitLess1 (readState ctx s).2)).2) :=
      (exec_kill_of_usable hc hn).trans (congrArg _ (killThread_of_timedOut hwait))
    have h := deliver_lastPoll_after_read (usable_of_kill hn) (.timeout .killWait s.cfg.killWaitLimit)
      s.cfg.killWaitLimitLess1 s
    rw [hs] at h
    exact ⟨_, hexec, h⟩

end Sys2Proof.Machine
end

section
/-! PROOF. What a read shows (R290 to R292, R301, R302): the maps and the fault names, an answer of the DMAC as it is or as
ENV_PROTOCOL lets it show, and the graph of channel states. -/

namespace Sys2Proof.Machine

/-! ### The maps and the fault names -/

/-- Settles O30. -/
theorem oracleMapsAreAsTabled : Obligations.OracleMapsAreAsTabled := ⟨by decide, by decide⟩

/-- The bit a fault name stands for (R298). -/
def ftrBitOf : FaultName → Nat
  | .undefInstr => 0
  | .operandInvalid => 1
  | .chEvntErr => 5
  | .chPeriphErr => 6
  | .chRdwrErr => 7
  | .mfifoErr => 12
  | .stDataUnavailable => 13
  | .instrFetchErr => 16
  | .dataWriteErr => 17
  | .dataReadErr => 18
  | .dbgInstr => 30
  | .lockupErr => 31
  | .reserved k => k

/-- No two bits have the same name. -/
theorem ftrBitOf_ftrBitName : Function.LeftInverse ftrBitOf ftrBitName := by
  intro k
  unfold ftrBitName
  split <;> rfl

theorem mem_decodeFtr (v : Word) (f : FaultName) :
    f ∈ decodeFtr v ↔ ∃ k, k < 32 ∧ v.getLsbD k = true ∧ ftrBitName k = f := by
  simp [decodeFtr, and_assoc]

/-- A bit the table leaves out is RESERVED (R298). -/
theorem ftrBitName_reserved {k : Nat} (h : k ∉ [0, 1, 5, 6, 7, 12, 13, 16, 17, 18, 30, 31]) :
    ftrBitName k = .reserved k := by
  unfold ftrBitName
  split <;> simp_all

/-- Settles O49: a name is in the set for its own bit only. -/
theorem faultNamesAreTheSetBits : Obligations.FaultNamesAreTheSetBits := by
  refine ⟨fun v k hk => ?_, fun v f hf => ?_, rfl, fun k => ftrBitName_reserved⟩
  · rw [mem_decodeFtr]
    constructor
    · rintro ⟨j, -, hj, hname⟩
      rwa [← ftrBitOf_ftrBitName.injective hname]
    · exact fun hset => ⟨k, hk, hset, rfl⟩
  · obtain ⟨k, hk, -, hname⟩ := (mem_decodeFtr v f).1 hf
    exact ⟨k, hk, hname.symm⟩

/-! ### Reads -/

/-- An agent's write of an active channel's register lifts ENV_PROTOCOL for its status (U3; log 16). -/
theorem presented_of_lifted {s : State} {n : Nat} (h : (chanEnv s n).lifted = true) :
    presented (.csr n) s = nextDraw s := by
  simp [presented, chanProtocol, h]

/-- What a DBGSTATUS read tells of the debug interface (R302, R369; logs 17, 31). -/
theorem debugShown_eq (d : DebugEnv) (busy : Bool) :
    d.shown busy = if busy = true then afterBusy d 1 else afterIdle d := by
  cases busy <;> simp [DebugEnv.shown, afterBusy, afterIdle]

/-- Under ENV_PROTOCOL a busy answer is one of the reads the busy run has left (R302; log 17). -/
theorem left_pos_of_busy {s : State} (hp : protocolOn s = true)
    (hb : dbgBusy (presented .dbgStatus s) = true) : 0 < s.dbgEnv.left := by
  refine Nat.pos_of_ne_zero fun h0 => ?_
  simp [presented, hp, debugFilter, h0, dbgBusy] at hb

/-- So some read within the busy run shows idle (R302). -/
theorem exists_idle_dbgRead (base : Word) (left : Nat) {s : State} (hp : protocolOn s = true)
    (hl : s.dbgEnv.left = left) :
    ∃ k, k ≤ left ∧
      dbgBusy (read32 base .dbgStatus ((fun u => (read32 base .dbgStatus u).2)^[k] s)).1 = false := by
  induction left generalizing s with
  | zero =>
    refine ⟨0, le_rfl, ?_⟩
    rw [← Bool.not_eq_true]
    exact fun hb => (left_pos_of_busy hp hb).ne' hl
  | succ left ih =>
    by_cases hb : dbgBusy (presented .dbgStatus s) = true
    · have hleft : (read32 base .dbgStatus s).2.dbgEnv.left = left := by
        rw [read32_dbgStatus_dbgEnv, hb, DebugEnv.shown, if_pos rfl, hl]
        rfl
      obtain ⟨k, hk, hidle⟩ := ih ((envOnly_read32 base .dbgStatus s).protocolOn.trans hp) hleft
      exact ⟨k + 1, Nat.succ_le_succ hk, hidle⟩
    · exact ⟨0, Nat.zero_le _, Bool.not_eq_true _ ▸ hb⟩

/-- Settles O31: a read presents the next answer but for the two registers ENV_PROTOCOL binds. -/
theorem readsAreDrawsOfTheEnvironment : Obligations.ReadsAreDrawsOfTheEnvironment := by
  refine ⟨fun base r s => ⟨fun h => ?_, presented_dbgStatus s, fun k => ?_, read32_bus base r s, ?_⟩,
    fun base s hp => exists_idle_dbgRead base _ hp rfl, fun base n => by simp [regAddr, regOffset]⟩
  · rw [read32_value, drawStream_zero]
    rcases h with hoff | ⟨n, rfl, hlifted⟩ | ⟨hdbg, hcsr⟩
    · exact presented_of_off r hoff
    · exact presented_of_lifted hlifted
    · exact presented_of_free s hcsr hdbg
  · rw [drawStream_read32, Nat.add_comm]
  · by_cases hr : r = .dbgStatus
    · subst hr
      rw [if_pos rfl]
      exact (read32_dbgStatus_dbgEnv base s).trans (debugShown_eq _ _)
    · rw [if_neg hr]
      exact read32_dbgEnv base s hr

/-! ### The graph of channel states -/

section
variable {goSeen killSeen : Bool}

/-- One move of the graph of R302. -/
def ProtocolMove (goSeen killSeen : Bool) (a b : ChannelState) : Prop := protocolMove goSeen killSeen a b = true

theorem mem_allStates (a : ChannelState) : a ∈ allStates := by
  cases a <;> decide

/-- An expansion adds the states one move away. -/
theorem mem_protocolExpand {xs : List ChannelState} {b : ChannelState} :
    b ∈ protocolExpand goSeen killSeen xs ↔ ∃ a ∈ xs, a = b ∨ ProtocolMove goSeen killSeen a b := by
  simp [protocolExpand, mem_allStates, ProtocolMove]

/-- Whatever rounds of expansion reach lies on a path. -/
theorem path_of_mem_protocolReach {k : Nat} {xs : List ChannelState} {b : ChannelState}
    (h : b ∈ protocolReach goSeen killSeen k xs) :
    ∃ a ∈ xs, Relation.ReflTransGen (ProtocolMove goSeen killSeen) a b := by
  induction k generalizing xs with
  | zero => exact ⟨b, h, .refl⟩
  | succ k ih =>
    obtain ⟨m, hm, hpath⟩ := ih h
    obtain ⟨a, ha, rfl | hmove⟩ := mem_protocolExpand.1 hm
    · exact ⟨a, ha, hpath⟩
    · exact ⟨a, ha, .head hmove hpath⟩

/-- Rounds of expansion lose no state. -/
theorem mem_protocolReach_of_mem (k : Nat) {xs : List ChannelState} {a : ChannelState} (h : a ∈ xs) :
    a ∈ protocolReach goSeen killSeen k xs := by
  induction k generalizing xs with
  | zero => exact h
  | succ k ih => exact ih (mem_protocolExpand.2 ⟨a, h, .inl rfl⟩)

/-- The key fact: no path of the graph needs more than six moves, so a seventh round adds nothing. -/
theorem protocolReach_six_closed (goSeen killSeen : Bool) (a : ChannelState) :
    protocolExpand goSeen killSeen (protocolReach goSeen killSeen 6 [a]) = protocolReach goSeen killSeen 6 [a] := by
  cases goSeen <;> cases killSeen <;> cases a <;> rfl

end

/-- Settles O32: the states six rounds reach are closed under moves, and each of them lies on a path. -/
theorem allowedStatesAreThePaths : Obligations.AllowedStatesAreThePaths := by
  intro goSeen killSeen a b
  rw [protocolAllows, List.contains_iff_mem]
  constructor
  · intro h
    obtain ⟨a', ha', hpath⟩ := path_of_mem_protocolReach h
    rw [List.mem_singleton] at ha'
    exact ha' ▸ hpath
  · intro h
    induction h with
    | refl => exact mem_protocolReach_of_mem 6 (List.mem_singleton_self a)
    | tail _ hmove ih =>
      rw [← protocolReach_six_closed]
      exact mem_protocolExpand.2 ⟨_, ih, .inr hmove⟩

/-! ### Status reads under ENV_PROTOCOL -/

theorem statusCode_setWidth (code : BitVec 4) : statusCode (code.setWidth 32) = code := by
  refine BitVec.eq_of_getLsbD_eq fun i hi => ?_
  interval_cases i <;> simp [statusCode]

theorem statusCode_clearBit3 (v : Word) : statusCode (v &&& 0xFFFFFFF7) = statusCode v &&& 7 := by
  refine BitVec.eq_of_getLsbD_eq fun i hi => ?_
  interval_cases i <;> simp [statusCode]

theorem statusCode_replace (v : Word) (code : BitVec 4) :
    statusCode ((v &&& 0xFFFFFFF0) ||| code.setWidth 32) = code := by
  refine BitVec.eq_of_getLsbD_eq fun i hi => ?_
  interval_cases i <;> simp [statusCode]

theorem channelMap_channelCode (st : ChannelState) : channelMap (channelCode st) = st := by
  cases st <;> rfl

/-- The codes that show INVALID have bit 3 set (R291). -/
theorem channelMap_clearBit3 (code : BitVec 4) : channelMap (code &&& 7) ≠ .invalid := by
  revert code
  decide

/-- A channel may show what lies on a path from the last state, and after launch or INVALID any state but INVALID. -/
theorem chanMayShow_iff (e : ChannelEnv) (st : ChannelState) :
    chanMayShow e st = true ↔ st ≠ .invalid ∧ ∀ l, e.last = some l → l ≠ .invalid →
      Relation.ReflTransGen (ProtocolMove e.goSeen e.killSeen) l st := by
  rw [chanMayShow, Bool.and_eq_true, bne_iff_ne]
  refine and_congr_right fun _ => ?_
  split
  · simp_all
  · simp_all
  · rename_i l hne hl
    rw [allowedStatesAreThePaths]
    refine ⟨fun h l' hl' _ => ?_, fun h => h l hl hne⟩
    obtain rfl : l = l' := Option.some.inj (hl.symm.trans hl')
    exact h

/-- Whatever the DMAC answers, the channel shows a state it may show (log 15). -/
theorem chanMayShow_protocolFilter (e : ChannelEnv) (v : Word) :
    chanMayShow e (channelMap (statusCode (protocolFilter e v))) = true := by
  unfold protocolFilter
  split_ifs with hshow
  · exact hshow
  · rw [chanMayShow_iff]
    unfold protocolWord
    split
    · rename_i hl
      rw [statusCode_clearBit3]
      exact ⟨channelMap_clearBit3 _, fun l h => by simp [hl] at h⟩
    · rename_i hl
      rw [statusCode_clearBit3]
      exact ⟨channelMap_clearBit3 _, fun l h hne => absurd (Option.some.inj (h.symm.trans hl)) hne⟩
    · rename_i l hne hl
      rw [statusCode_replace, channelMap_channelCode]
      refine ⟨hne, fun l' h _ => ?_⟩
      obtain rfl : l = l' := Option.some.inj (hl.symm.trans h)
      exact .refl

/-- A state the channel may show is shown where the DMAC answers with its code. -/
theorem protocolFilter_channelCode {e : ChannelEnv} {st : ChannelState} (h : chanMayShow e st = true) :
    channelMap (statusCode (protocolFilter e ((channelCode st).setWidth 32))) = st := by
  have hcode : channelMap (statusCode ((channelCode st).setWidth 32)) = st := by
    rw [statusCode_setWidth, channelMap_channelCode]
  rw [protocolFilter, if_pos (by rwa [hcode]), hcode]

/-- The oracle of a channel context under ENV_PROTOCOL shows the filtered answer (R290, R302). -/
theorem oracleShows_of_protocol {s : State} {ctx : ExecutionContext} (hm : ctx.isManager = false)
    (hp : chanProtocol s ctx.chan = true) :
    oracleShows ctx s = channelMap (statusCode (protocolFilter (chanEnv s ctx.chan) (nextDraw s))) := by
  simp [oracleShows, statusReg, hm, presented, hp, mapState]

/-- What it may show it shows for some answer (log 15). -/
theorem exists_draw_shows {s : State} {ctx : ExecutionContext} {st : ChannelState} (hm : ctx.isManager = false)
    (hp : chanProtocol s ctx.chan = true) (h : chanMayShow (chanEnv s ctx.chan) st = true) :
    ∃ v, oracleShows ctx { s with draws := v :: s.draws } = st := by
  refine ⟨(channelCode st).setWidth 32, ?_⟩
  rw [oracleShows_of_protocol (s := { s with draws := (channelCode st).setWidth 32 :: s.draws }) hm hp]
  exact protocolFilter_channelCode h

/-- Settles O33: the filter shows exactly what the channel may show. -/
theorem protocolReadsFollowTheGraph : Obligations.ProtocolReadsFollowTheGraph := by
  intro s ctx henv hwild hlifted hm hchan
  have hp : chanProtocol s ctx.chan = true := by simp [chanProtocol, protocolOn, henv, hwild, hlifted]
  have hmay := chanMayShow_protocolFilter (chanEnv s ctx.chan) (nextDraw s)
  rw [← oracleShows_of_protocol hm hp] at hmay
  obtain ⟨hvalid, hpath⟩ := (chanMayShow_iff _ _).1 hmay
  refine ⟨hvalid, chansBecome_readState (fun _ => hchan) s, fun l hl hne => ⟨hpath l hl hne, fun st hst hto => ?_⟩,
    fun hfirst st hst => ?_⟩
  · refine exists_draw_shows hm hp ((chanMayShow_iff _ _).2 ⟨hst, fun l' hl' _ => ?_⟩)
    obtain rfl : l = l' := Option.some.inj (hl.symm.trans hl')
    exact hto
  · refine exists_draw_shows hm hp ((chanMayShow_iff _ _).2 ⟨hst, fun l hl hne => ?_⟩)
    rcases hfirst with hnone | hinvalid
    · simp [hnone] at hl
    · exact absurd (Option.some.inj (hl.symm.trans hinvalid)) hne

end Sys2Proof.Machine
end

section
/-! PROOF. FINISH (R294 to R297): the poll that ends it, the transfers it closes, and the polls of a FINISH that goes on. -/

namespace Sys2Proof.Machine

section
variable {s u : State} {c : Nat} {ctx : ExecutionContext}

/-! ### The poll that ends it -/

/-- A poll that shows STOPPED or FAULTING is the end (R295). -/
theorem finishPoll_ends (h : oracleShows ctx s ∈ [ChannelState.stopped, .faulting]) : (finishPoll c ctx s).1 = true := by
  rcases List.mem_pair.1 h with h | h
  · rw [finishPoll_stopped h]
  · rw [finishPoll_faulting h]

theorem exec_finish_of_channel (hc : s.ctxs[c]? = some ctx) (hm : ctx.isManager = false)
    (hn : ctx.chan < s.cfg.numChannels) :
    (∀ t, exec (.finish c (some t)) s = .next (finishLoop c ctx (max t 1 - 1) 0 s))
    ∧ exec (.finish c none) s = .next (finishUnbounded c ctx s) := by
  have hctx : ¬ notChannelContext s.cfg ctx = true := by simp [notChannelContext, hm, hn]
  have hexec : ∀ tmo, exec (.finish c tmo) s = execFinish c tmo s := fun _ => rfl
  refine ⟨fun t => ?_, ?_⟩ <;>
  · rw [hexec]
    unfold execFinish
    rw [hc]
    dsimp only
    rw [if_neg hctx]

/-- FINISH ends at the first poll that shows STOPPED or FAULTING, if it makes that many polls (R295). -/
theorem exec_finish_ends {tmo : Option Nat} {k : Nat} (hc : s.ctxs[c]? = some ctx) (hm : ctx.isManager = false)
    (hn : ctx.chan < s.cfg.numChannels) (hbound : ∀ t, tmo = some t → k < max t 1) (hone : tmo = none → k = 0)
    (hbefore : ∀ j, j < k → polled ctx j s ∉ [ChannelState.stopped, .faulting])
    (hend : polled ctx k s ∈ [ChannelState.stopped, .faulting]) :
    exec (.finish c tmo) s = .next (finishPoll c ctx (afterPolls ctx k s)).2 := by
  obtain ⟨hbounded, hunbounded⟩ := exec_finish_of_channel hc hm hn
  cases tmo with
  | some t =>
    have hk : k ≤ max t 1 - 1 := Nat.le_sub_one_of_lt (hbound t rfl)
    rw [hbounded, finishLoop_ends hk hbefore hend]
  | none =>
    obtain rfl := hone rfl
    exact hunbounded.trans (congrArg _ (if_pos (finishPoll_ends hend)))

/-! ### The transfers it closes -/

/-- Closing clears the context's flag and forgets what the transfers it closes may have moved (R296, R297, R365). -/
theorem closeTransfer_spec (h : EnvOnly s u) :
    (closeTransfer c ctx u).ctxs = s.ctxs.set c { ctx with inflight := false }
    ∧ onlyForgets s (closeTransfer c ctx u) (fun i => i.isOpen && closedBy c ctx i) movedLength
    ∧ onlyCloses c ctx s (closeTransfer c ctx u) := by
  refine ⟨congrArg (fun x : List ExecutionContext => x.set c { ctx with inflight := false }) h.ctxs, fun a => ?_, ?_⟩
  · refine (byteAt_forgetTransfers (fun i => i.isOpen && closes c ctx i) movedLength u a).trans ?_
    simp only [h.issues, h.byteAt a, closes_eq_closedBy]
  · show u.issues.map _ = _
    simp only [h.issues, closes_eq_closedBy]

/-- The last poll and those before it touch the DMAC's side alone. -/
theorem envOnly_lastPoll (ctx : ExecutionContext) (k : Nat) (s : State) :
    EnvOnly s (readState ctx (afterPolls ctx k s)).2 :=
  (afterPolls_env ctx k s).trans (envOnly_readState ctx _)

/-! ### The fault report -/

/-- The state after FTR and CPC of the context's channel are read (R297). -/
def faultRead (ctx : ExecutionContext) (s : State) : State :=
  (read32 ctx.regBase (.cpc ctx.chan) (read32 ctx.regBase (.ftr ctx.chan) s).2).2

/-- `report_fault` reports the DMAC's next two answers as FTR and CPC (R297, R301). -/
theorem reportFault_eq (c : Nat) (ctx : ExecutionContext) (s : State) :
    reportFault c ctx s
      = deliver (.faultError (drawStream s 1 - ctx.progBase) (drawStream s 0) (drawStream s 1) (decodeFtr (drawStream s 0)))
          (closeTransfer c ctx (faultRead ctx s)) := by
  have hftr : (read32 ctx.regBase (.ftr ctx.chan) s).1 = drawStream s 0 := (drawStream_zero s).symm
  have hcpc : (read32 ctx.regBase (.cpc ctx.chan) (read32 ctx.regBase (.ftr ctx.chan) s).2).1 = drawStream s 1 :=
    (drawStream_zero _).symm.trans (drawStream_read32 _ _ s 0)
  unfold reportFault
  simp only [hftr, hcpc]
  rfl

/-- The two reads and nothing else (R297): of the channels they tell nothing. -/
theorem faultRead_spec (ctx : ExecutionContext) (s : State) :
    (faultRead ctx s).bus = s.bus ++ [.read32 (regAddr ctx.regBase (.ftr ctx.chan)) (drawStream s 0),
        .read32 (regAddr ctx.regBase (.cpc ctx.chan)) (drawStream s 1)]
    ∧ answersUsed s (faultRead ctx s) 2
    ∧ (∀ q, q ≠ .ftr ctx.chan → q ≠ .cpc ctx.chan → getReg q (faultRead ctx s).dmac = getReg q s.dmac)
    ∧ (faultRead ctx s).chans = s.chans
    ∧ { faultRead ctx s with draws := s.draws, drawCount := s.drawCount, dmac := s.dmac, chans := s.chans,
                             bus := s.bus } = s := by
  have hftr : presented (.ftr ctx.chan) s = drawStream s 0 := (drawStream_zero s).symm
  have hcpc : presented (.cpc ctx.chan) (read32 ctx.regBase (.ftr ctx.chan) s).2 = drawStream s 1 :=
    (drawStream_zero _).symm.trans (drawStream_read32 _ _ s 0)
  have henv : EnvOnly s (faultRead ctx s) := (envOnly_read32 _ _ s).trans (envOnly_read32 _ _ _)
  refine ⟨?_, fun m => ?_, fun q hq hq' => ?_, ?_, henv.status ?_ ?_⟩
  · simp [faultRead, hftr, hcpc]
  · rw [faultRead, drawStream_read32, drawStream_read32, Nat.add_comm 2]
  · exact (getReg_read32 _ _ hq').trans (getReg_read32 _ _ hq)
  · exact (read32_chans_kept _ _ (by simp)).trans (read32_chans_kept _ _ (by simp))
  · exact (read32_dbgEnv _ _ (by simp)).trans (read32_dbgEnv _ _ (by simp))
  · exact (read32_regFrees _ _ _).trans (read32_regFrees _ _ _)

end

/-! ### The three ends -/

/-- Settles O45: the last poll closes the transfer and nothing follows it. -/
theorem finishEndsAtStopped : Obligations.FinishEndsAtStopped := by
  intro s c ctx tmo k hc hm hn hk hbefore hend
  have hmem : polled ctx k s ∈ [ChannelState.stopped, .faulting] := List.mem_pair.2 (.inl hend)
  have hexec : exec (.finish c tmo) s
      = .next (deliver .okUnit (closeTransfer c ctx (readState ctx (afterPolls ctx k s)).2)) := by
    rw [exec_finish_ends hc hm hn (fun t e => by subst e; exact hk) (fun e => by subst e; exact hk) hbefore hmem,
      finishPoll_stopped hend]
  obtain ⟨hctxs, hforgets, hcloses⟩ := closeTransfer_spec (c := c) (ctx := ctx) (envOnly_lastPoll ctx k s)
  obtain ⟨hresult, hbus, hused, hregs, hchans, hframe⟩ := deliver_lastPoll (usable_of_channel fun _ => hn) .okUnit k s
  exact ⟨_, hexec, hresult, hctxs, hbus, hused, hregs, hchans, hforgets, hcloses,
    congrArg (fun x : State => { x with ctxs := s.ctxs, mem := s.mem, issues := s.issues }) hframe⟩

/-- Settles O46: after the last poll FTR and CPC are read, and then the transfer is closed. -/
theorem finishReportsTheFault : Obligations.FinishReportsTheFault := by
  intro s c ctx tmo k hc hm hn hk hbefore hend
  have hmem : polled ctx k s ∈ [ChannelState.stopped, .faulting] := List.mem_pair.2 (.inr hend)
  have hexec : exec (.finish c tmo) s = .next (reportFault c ctx (readState ctx (afterPolls ctx k s)).2) := by
    rw [exec_finish_ends hc hm hn (fun t e => by subst e; exact hk) (fun e => by subst e; exact hk) hbefore hmem,
      finishPoll_faulting hend]
  have hdraw : ∀ m, drawStream (readState ctx (afterPolls ctx k s)).2 m = drawStream s (k + 1 + m) := fun m => by
    rw [drawStream_readState, drawStream_afterPolls, Nat.add_comm m, Nat.add_assoc]
  rw [reportFault_eq, hdraw 0, hdraw 1] at hexec
  obtain ⟨-, hbus, -, hregs, hchans, hframe⟩ := deliver_lastPoll (usable_of_channel fun _ => hn) .okUnit k s
  obtain ⟨hbus', hused', hregs', hchans', hframe'⟩ := faultRead_spec ctx (readState ctx (afterPolls ctx k s)).2
  obtain ⟨hctxs, hforgets, hcloses⟩ := closeTransfer_spec (c := c) (ctx := ctx)
    (u := faultRead ctx (readState ctx (afterPolls ctx k s)).2)
    ((envOnly_lastPoll ctx k s).trans ((envOnly_read32 _ _ _).trans (envOnly_read32 _ _ _)))
  refine ⟨_, hexec, rfl, hctxs, ?_, fun m => ?_, fun r hr hf hp => (hregs' r hf hp).trans (hregs r hr),
    hchans.congr rfl hchans', hforgets, hcloses, ?_⟩
  · refine hbus'.trans ?_
    rw [hdraw, hdraw, show (readState ctx (afterPolls ctx k s)).2.bus = _ from hbus]
    simp
  · refine (hused' m).trans ((hdraw _).trans ?_)
    rw [← Nat.add_assoc]
  · have hback := congrArg (fun x : State => { x with draws := s.draws, drawCount := s.drawCount, dmac := s.dmac,
                                                       chans := s.chans, bus := s.bus, result := s.result,
                                                       ctxs := s.ctxs, mem := s.mem, issues := s.issues }) hframe'
    exact hback.trans (congrArg (fun x : State => { x with ctxs := s.ctxs, mem := s.mem, issues := s.issues }) hframe)

/-- Settles O47: the loop runs out, so all FINISH leaves is its polls' and the result. -/
theorem finishTimesOut : Obligations.FinishTimesOut := by
  intro s c ctx t hc hm hn hnone
  have hsucc : max t 1 - 1 + 1 = max t 1 := Nat.sub_add_cancel (le_max_right t 1)
  have hexec : exec (.finish c (some t)) s
      = .next (deliver (.timeout .finish (max t 1)) (readState ctx (afterPolls ctx (max t 1 - 1) s)).2) := by
    rw [(exec_finish_of_channel hc hm hn).1, finishLoop_timedOut (by rwa [hsucc]), Nat.zero_add, hsucc]
  have h := deliver_lastPoll (usable_of_channel fun _ => hn) (.timeout .finish (max t 1)) (max t 1 - 1) s
  rw [hsucc] at h
  exact ⟨_, hexec, h⟩

/-! ### FINISH without a bound -/

/-- The command port: what is still active, and the result. -/
def withPort (a : Option Instr) (r : Option Result) (s : State) : State := { s with active := a, result := r }

/-- A status read does not look at the command port. -/
theorem readState_withPort (ctx : ExecutionContext) (a : Option Instr) (r : Option Result) (s : State) :
    readState ctx (withPort a r s) = ((readState ctx s).1, withPort a r (readState ctx s).2) := by
  have hdraw : takeDraw (withPort a r s) = withPort a r (takeDraw s) := by
    unfold takeDraw withPort
    cases s.draws <;> rfl
  have hnote : ∀ v t, noteRead (statusReg ctx) v (withPort a r t) = withPort a r (noteRead (statusReg ctx) v t) := by
    intro v t
    unfold statusReg
    split_ifs <;> rfl
  have hshown : presented (statusReg ctx) (withPort a r s) = presented (statusReg ctx) s := by
    unfold statusReg
    split_ifs <;> rfl
  simp only [readState, read32, hshown, hdraw, hnote]
  rfl

/-- So neither do polls. -/
theorem afterPolls_withPort (ctx : ExecutionContext) (a : Option Instr) (r : Option Result) (k : Nat) (s : State) :
    afterPolls ctx k (withPort a r s) = withPort a r (afterPolls ctx k s) := by
  induction k with
  | zero => rfl
  | succ k ih =>
    rw [afterPolls_succ, afterPolls_succ, ih, readState_withPort]
    rfl

theorem polled_withPort (ctx : ExecutionContext) (a : Option Instr) (r : Option Result) (k : Nat) (s : State) :
    polled ctx k (withPort a r s) = polled ctx k s := by
  unfold polled
  rw [afterPolls_withPort]
  exact congrArg Prod.fst (readState_withPort ctx a r (afterPolls ctx k s))

section
variable {c : Nat} {ctx : ExecutionContext}

/-- A step with FINISH active, shown neither STOPPED nor FAULTING, is one poll and a delay (R295; log 14). -/
theorem step_finish_polls {s : State} (ha : s.active = some (.finish c none)) (hc : s.ctxs[c]? = some ctx)
    (hm : ctx.isManager = false) (hn : ctx.chan < s.cfg.numChannels)
    (hs : polled ctx 0 s ∉ [ChannelState.stopped, .faulting]) :
    step s = .next (withPort (some (.finish c none)) none (afterPolls ctx 1 s)) := by
  have hfetch : fetch s = .run (.finish c none) (withPort none s.result s) := by
    simp [fetch, ha, withPort]
  have hs' : oracleShows ctx (withPort none s.result s) ∉ [ChannelState.stopped, .faulting] := by
    rw [show oracleShows ctx (withPort none s.result s) = _ from polled_withPort ctx none s.result 0 s]
    exact hs
  rw [step_run hfetch, (exec_finish_of_channel (s := withPort none s.result s) hc hm hn).2, finishUnbounded,
    finishPoll_running hs', readState_withPort]
  rfl

/-- So are several steps. -/
theorem run_finish_polls (n : Nat) {s : State} (ha : s.active = some (.finish c none)) (hc : s.ctxs[c]? = some ctx)
    (hm : ctx.isManager = false) (hn : ctx.chan < s.cfg.numChannels)
    (hs : ∀ j, j < n + 1 → polled ctx j s ∉ [ChannelState.stopped, .faulting]) :
    Host.Core.run Sys2Proof.core (n + 1) s
      = .next (withPort (some (.finish c none)) none (afterPolls ctx (n + 1) s)) := by
  induction n generalizing s with
  | zero => exact run_succ Sys2Proof.core 0 (step_finish_polls ha hc hm hn (hs 0 (by omega)))
  | succ n ih =>
    have henv : EnvOnly s (afterPolls ctx 1 s) := afterPolls_env ctx 1 s
    rw [run_succ Sys2Proof.core (n + 1) (step_finish_polls ha hc hm hn (hs 0 (by omega)))]
    refine (ih (s := withPort (some (.finish c none)) none (afterPolls ctx 1 s)) rfl
      ((congrArg (·[c]?) henv.ctxs).trans hc) (hn.trans_eq (congrArg _ henv.cfg.symm)) fun j hj => ?_).trans ?_
    · rw [polled_withPort]
      exact hs (j + 1) (by omega)
    · rw [afterPolls_withPort]
      rfl

end

/-- Settles O48: the steps leave what their polls leave, but for the result. -/
theorem unboundedFinishKeepsPolling : Obligations.UnboundedFinishKeepsPolling := by
  intro n s c ctx ha hc hm hn hs
  refine ⟨_, run_finish_polls n ha hc hm hn hs, rfl, rfl, afterPolls_bus ctx (n + 1) s,
    fun m => drawStream_afterPolls ctx (n + 1) m s, getReg_afterPolls ctx (n + 1) s,
    (chansBecome_afterPolls (usable_of_channel fun _ => hn) (n + 1) s).congr rfl rfl, ?_⟩
  have henv : EnvOnly s (afterPolls ctx (n + 1) s) := afterPolls_env ctx (n + 1) s
  have hframe := henv.status (afterPolls_dbgEnv ctx (n + 1) s) (afterPolls_regFrees ctx (n + 1) s)
  rw [← ha]
  exact congrArg (fun x : State => { x with active := s.active, result := s.result }) hframe

end Sys2Proof.Machine
end

section
/-! PROOF. What the commands answer: every one of them a next state (R338; R255), each with its Ok or an error of its row of the
table (R330 to R332). -/

namespace Sys2Proof.Machine

/-! ### The causes the planner names -/

theorem mem_of_firstFailing {cause : Cause} {checks : List (Cause × Bool)} (h : firstFailing checks = some cause) :
    cause ∈ checks.map Prod.fst := by
  obtain ⟨check, hfind, rfl⟩ := Option.map_eq_some_iff.1 h
  exact List.mem_map_of_mem (List.mem_of_find?_eq_some hfind)

/-- No check of R171 is one of the context. -/
theorem validate_ne_badContext {cfg : Config.Params} {req : TransferRequest} {bufBase : Word} {cap : Nat} {cause : Cause}
    (h : validate cfg req bufBase cap = some cause) : cause ≠ .badContext := by
  rw [validate_eq_firstFailing] at h
  rintro rfl
  simpa [requestChecks] using mem_of_firstFailing h

/-- The causes of R185. -/
theorem validateZf_mem {cfg : Config.Params} {dst : Word} {size : Nat} {bufBase : Word} {cap : Nat} {cause : Cause}
    (h : validateZf cfg dst size bufBase cap = some cause) : cause ∈ [Cause.misalignedDst, .badSize, .badBuffer] := by
  rw [validateZf_eq_firstFailing] at h
  exact mem_of_firstFailing h

/-! ### The errors of each command -/

section
variable {s t : State}

/-- A build past its checks returns its record or BufferOverflow (R219, R220), whichever its listing has room for. -/
theorem runBuild_result {ops : List BuildOp} {is : List Instr} {needed : Nat} (bufBase : Word) (cap : Nat)
    (data : DataRanges) (residual : Nat) (s : State)
    (h : ∃ b', LaysOut ops is (openRegs bufBase cap data.size needed) b') (hneeded : (programBytes is).length = needed) :
    (∃ p, (runBuild ops residual data needed bufBase cap s).result = some (.okProgram p))
      ∨ ∃ n k a, (runBuild ops residual data needed bufBase cap s).result = some (.bufferOverflow n k a) := by
  by_cases hroom : needed ≤ cap
  · rw [runBuild_of_room bufBase data residual s h hneeded hroom]
    exact Or.inl ⟨_, rfl⟩
  · obtain ⟨done, i, rest, -, -, -, hrun⟩ := runBuild_of_noRoom bufBase data residual s h hneeded (not_le.1 hroom)
    rw [hrun]
    exact Or.inr ⟨_, _, _, rfl⟩

theorem build_result {req : TransferRequest} {bufBase : Word} {cap : Nat} (h : exec (.build req bufBase cap) s = .next t) :
    (∃ p, t.result = some (.okProgram p)) ∨ (∃ cause, cause ≠ .badContext ∧ t.result = some (.validationError cause))
      ∨ ∃ n k a, t.result = some (.bufferOverflow n k a) := by
  cases hv : validate s.cfg req bufBase cap with
  | some cause =>
    cases (execBuild_of_invalid hv).symm.trans h
    exact Or.inr (Or.inl ⟨cause, validate_ne_badContext hv, rfl⟩)
  | none =>
    cases (exec_build_of_plan ((plan_ok_iff _ _ _ _ _).2 ⟨hv, rfl⟩)).symm.trans h
    exact (runBuild_result bufBase cap (requestRanges req) _ s (laysOut_request req rfl rfl)
      (programBytes_request req)).imp_right Or.inr

theorem buildZf_result {dst : Word} {size : Nat} {bufBase : Word} {cap : Nat}
    (h : exec (.buildZf dst size bufBase cap) s = .next t) :
    (∃ p, t.result = some (.okProgram p))
      ∨ (∃ cause ∈ [Cause.misalignedDst, .badSize, .badBuffer], t.result = some (.validationError cause))
      ∨ ∃ n k a, t.result = some (.bufferOverflow n k a) := by
  cases hv : validateZf s.cfg dst size bufBase cap with
  | some cause =>
    cases (execBuildZf_of_invalid hv).symm.trans h
    exact Or.inr (Or.inl ⟨cause, validateZf_mem hv, rfl⟩)
  | none =>
    cases (exec_buildZf_of_plan ((planZf_ok_iff _ _ _ _ _ _).2 ⟨hv, rfl⟩)).symm.trans h
    exact (runBuild_result bufBase cap ⟨none, dst, size⟩ _ s (laysOut_zeroFill s.cfg dst size rfl rfl)
      (programBytes_zeroFill s.cfg dst size)).imp_right Or.inr

theorem start_result {c : Nat} {p : Microprogram} (h : exec (.start c p) s = .next t) :
    t.result = some .okUnit ∨ t.result = some (.validationError .badContext)
      ∨ (∃ st, t.result = some (.busyError st)) ∨ ∃ n, t.result = some (.timeout .debug n) := by
  rcases execStart_cases c p s with e | e | ⟨ctx, -, -, -, -, e⟩ <;> cases e.symm.trans h
  · exact Or.inr (Or.inl rfl)
  · rcases startChannel_cases c ctx p s with ⟨-, e⟩ | ⟨-, -, e⟩ | ⟨-, -, _, _, _, -, e⟩
      | ⟨-, -, _, _, _, -, e⟩ <;> rw [e]
    · exact Or.inr (Or.inr (Or.inl ⟨_, rfl⟩))
    · exact Or.inr (Or.inr (Or.inl ⟨_, rfl⟩))
    · exact Or.inl rfl
    · exact Or.inr (Or.inr (Or.inr ⟨_, rfl⟩))

theorem poll_result {c : Nat} (h : exec (.poll c) s = .next t) :
    (∃ st, t.result = some (.okState st)) ∨ t.result = some (.validationError .badContext) := by
  rcases execPoll_cases c s with e | ⟨ctx, -, -, e⟩ <;> cases e.symm.trans h
  · exact Or.inr rfl
  · exact Or.inl ⟨_, rfl⟩

theorem finish_result {c : Nat} {tmo : Option Nat} (h : exec (.finish c tmo) s = .next t) :
    t.result = some .okUnit ∨ t.result = some (.validationError .badContext)
      ∨ (∃ o f q ns, t.result = some (.faultError o f q ns))
      ∨ (∃ n, tmo ≠ none ∧ t.result = some (.timeout .finish n))
      ∨ (tmo = none ∧ t.result = none ∧ t.active = some (.finish c none)) := by
  rcases execFinish_cases c tmo s with
    e | ⟨ctx, k, -, -, -, ⟨-, e⟩ | ⟨-, e⟩ | ⟨n, hn, e⟩ | ⟨hnone, -, e⟩⟩ <;> cases e.symm.trans h
  · exact Or.inr (Or.inl rfl)
  · exact Or.inl rfl
  · exact Or.inr (Or.inr (Or.inl ⟨_, _, _, _, rfl⟩))
  · exact Or.inr (Or.inr (Or.inr (Or.inl ⟨_, by simp [hn], rfl⟩)))
  · exact Or.inr (Or.inr (Or.inr (Or.inr ⟨hnone, rfl, rfl⟩)))

/-- kill() after its wait ends with Ok or out of polls of the debug interface (R262 to R264). -/
theorem killSettled_result (c : Nat) (ctx : ExecutionContext) (st : ChannelState) (s : State) :
    (killSettled c ctx st s).result = some .okUnit ∨ ∃ n, (killSettled c ctx st s).result = some (.timeout .debug n) := by
  rcases killSettled_cases c ctx st s with ⟨-, e⟩ | ⟨-, _, _, _, -, e⟩ | ⟨-, _, _, _, -, e⟩ <;> rw [e]
  · exact Or.inl rfl
  · exact Or.inl rfl
  · exact Or.inr ⟨_, rfl⟩

theorem killCommand_result {c : Nat} (h : exec (.killCommand c) s = .next t) :
    t.result = some .okUnit ∨ t.result = some (.validationError .badContext)
      ∨ (∃ n, t.result = some (.timeout .killWait n)) ∨ ∃ n, t.result = some (.timeout .debug n) := by
  rcases execKillCommand_cases c s with e | ⟨ctx, -, -, e⟩ <;> cases e.symm.trans h
  · exact Or.inr (Or.inl rfl)
  · rcases killWait_cases ctx s with ⟨r, -, -, hw⟩ | ⟨k, hw⟩
    · rw [killThread_of_settled hw]
      exact (killSettled_result c ctx _ _).imp_right fun hdebug => Or.inr (Or.inr hdebug)
    · rw [killThread_of_timedOut hw]
      exact Or.inr (Or.inr (Or.inl ⟨_, rfl⟩))

end

/-- Settles O56: the numbers by definition, and each command's results by the cases in which it ends. -/
theorem commandsReturnOnlyTheirOwnErrors : Obligations.CommandsReturnOnlyTheirOwnErrors :=
  ⟨fun _ _ _ _ _ _ _ _ _ _ _ _ => ⟨rfl, rfl, rfl, rfl, rfl, rfl, rfl, rfl, rfl⟩, rfl,
    fun _ _ _ _ _ => build_result, fun _ _ _ _ _ _ => buildZf_result, fun _ _ _ _ => start_result,
    fun _ _ _ => poll_result, fun _ _ _ _ => finish_result, fun _ _ _ => killCommand_result⟩

/-! ### Every command answers -/

/-- The emitter refuses a microinstruction or answers a next state (R110, U7); it never faults. -/
theorem exec_micro_ne_fault {i : Instr} (hm : isMicro i = true) (s : State) (f : Fault) : exec i s ≠ .fault f := by
  rw [exec_micro hm]
  unfold emitMeaning
  split_ifs <;> simp

/-- A command other than START has a next state, whatever its operands (R338). -/
theorem exec_command_answers {i : Instr} (hm : isMicro i = false) (hstart : ∀ c p, i ≠ .start c p) (s : State) :
    ∃ t, exec i s = .next t := by
  cases i with
  | build req bufBase cap =>
    rcases execBuild_cases req bufBase cap s with ⟨_, e⟩ | ⟨_, e, -⟩ <;> exact ⟨_, e⟩
  | buildZf dst size bufBase cap =>
    rcases execBuildZf_cases dst size bufBase cap s with ⟨_, e⟩ | ⟨_, e, -⟩ <;> exact ⟨_, e⟩
  | start c p => exact absurd rfl (hstart c p)
  | poll c => rcases execPoll_cases c s with e | ⟨_, -, -, e⟩ <;> exact ⟨_, e⟩
  | finish c tmo =>
    rcases execFinish_cases c tmo s with e | ⟨_, _, -, -, -, ⟨-, e⟩ | ⟨-, e⟩ | ⟨_, -, e⟩ | ⟨-, -, e⟩⟩ <;> exact ⟨_, e⟩
  | killCommand c => rcases execKillCommand_cases c s with e | ⟨_, -, -, e⟩ <;> exact ⟨_, e⟩
  | _ => cases hm

theorem execStart_ne_fault (c : Nat) (p : Microprogram) (s : State) (f : Fault) : execStart c p s ≠ .fault f := by
  rcases execStart_cases c p s with e | e | ⟨_, -, -, -, -, e⟩ <;> simp [e]

theorem exec_ne_fault (i : Instr) (s : State) (f : Fault) : exec i s ≠ .fault f := by
  by_cases hm : isMicro i = true
  · exact exec_micro_ne_fault hm s f
  · by_cases hstart : ∃ c p, i = .start c p
    · obtain ⟨c, p, rfl⟩ := hstart
      exact execStart_ne_fault c p s f
    · obtain ⟨t, e⟩ := exec_command_answers (by simpa using hm) (by simpa using hstart) s
      simp [e]

/-- START with a record a build has returned has a next state, whatever the context (R255). -/
theorem exec_start_answers {s : State} (c : Nat) {p : Microprogram} (hp : ∃ e ∈ s.programs, e.record = p) :
    ∃ t, exec (.start c p) s = .next t := by
  by_cases hbad : ∀ ctx, s.ctxs[c]? = some ctx → notChannelContext s.cfg ctx = true
  · exact ⟨_, execStart_badContext p hbad⟩
  · push Not at hbad
    obtain ⟨ctx, hc, hctx⟩ := hbad
    rw [ne_eq, notChannelContext_iff, not_or, Bool.not_eq_true, not_le] at hctx
    obtain ⟨hm, hn⟩ := hctx
    exact ⟨_, exec_start_of_channel hc hm hn hp⟩

/-- START with a record no build has returned is refused where the context is usable (log 21). -/
theorem exec_start_foreign {s : State} {c : Nat} {ctx : ExecutionContext} {p : Microprogram} (hc : s.ctxs[c]? = some ctx)
    (hm : ctx.isManager = false) (hn : ctx.chan < s.cfg.numChannels) (hp : ∀ e ∈ s.programs, e.record ≠ p) :
    exec (.start c p) s = .refused .foreignProgram := by
  have hctx : ¬ notChannelContext s.cfg ctx = true := by simp [notChannelContext, hm, hn]
  have hunknown : ¬ programKnown s p = true := by simpa [programKnown] using hp
  show execStart c p s = _
  unfold execStart
  rw [hc]
  dsimp only
  rw [if_neg hctx, if_neg hunknown]

/-- Settles O57: the microinstructions end at the emitter, the commands by their cases. -/
theorem commandsAlwaysAnswer : Obligations.CommandsAlwaysAnswer :=
  ⟨exec_ne_fault, fun _ s hm hstart => exec_command_answers hm hstart s, fun _ c _ => exec_start_answers c,
    fun _ _ _ _ => exec_start_foreign⟩

end Sys2Proof.Machine
end

section
/-! PROOF. Another agent's write of a DMAC register (R366): the register's own write, what that injects or may inject (R66,
R369), and what it disturbs (U2, U3). Then a reset of the DMAC (R362), and a step with nothing to do. -/

namespace Sys2Proof.Machine

/-! ### What the write of the register leaves to the channels -/

/-- `t` with what is known of the channels put back. -/
def chansBack (s t : State) : State := { t with chans := s.chans }

/-- `t` differs from `s` at most in what is known of the channels. -/
def ChansOnly (s t : State) : Prop := chansBack s t = s

theorem ChansOnly.refl (s : State) : ChansOnly s s := rfl

theorem ChansOnly.trans {s t u : State} (h : ChansOnly s t) (h' : ChansOnly t u) : ChansOnly s u :=
  (congrArg (chansBack s) h').trans h

theorem ChansOnly.envOnly {s t : State} (h : ChansOnly s t) : EnvOnly s t := (congrArg (envBack s) h : _)

theorem chansOnly_noteChan (n : Nat) (f : ChannelEnv → ChannelEnv) (s : State) : ChansOnly s (noteChan n f s) := rfl

theorem chansOnly_noteInjection (s : State) : ChansOnly s (noteInjection s) := by
  unfold noteInjection
  split
  · exact chansOnly_noteChan _ _ s
  · split
    · exact chansOnly_noteChan _ _ s
    · exact .refl s

theorem chansOnly_liftChannel (r : DmacReg) (s t : State) : ChansOnly t (liftChannel r s t) := by
  unfold liftChannel
  split
  · split_ifs
    · exact chansOnly_noteChan _ _ t
    · exact .refl t
  · exact .refl t

theorem chansOnly_agentStores (r : DmacReg) (v : Word) (s : State) : ChansOnly (storeReg r v s) (agentStores r v s) := by
  unfold agentStores
  split_ifs
  · exact chansOnly_noteInjection _
  · exact .refl _

section
variable (r : DmacReg) (v : Word) (s : State)

/-- But for the channels' entries and the disturbance another agent's write is the register's write. -/
theorem chansOnly_agentLifts : ChansOnly (storeReg r v s) (liftChannel r s (agentStores r v s)) :=
  (chansOnly_agentStores r v s).trans (chansOnly_liftChannel r s _)

theorem agentWrites_dmac : (agentWrites r v s).dmac = (storeReg r v s).dmac :=
  (congrArg State.dmac (chansOnly_agentLifts r v s) : (chansBack _ _).dmac = _)

theorem agentWrites_dbgEnv :
    (agentWrites r v s).dbgEnv
      = { s.dbgEnv with pending := s.dbgEnv.pending || (r == .dbgCmd && dbgCmdField v == 0) } :=
  (congrArg State.dbgEnv (chansOnly_agentLifts r v s) : (chansBack _ _).dbgEnv = _).trans (storeReg_dbgEnv r v s)

theorem agentWrites_frame :
    { agentWrites r v s with dmac := s.dmac, regFrees := s.regFrees, chans := s.chans, dbgEnv := s.dbgEnv, mem := s.mem,
                             issues := s.issues } = s := by
  have hlift := congrArg
    (fun x : State =>
      { x with dmac := s.dmac, regFrees := s.regFrees, chans := s.chans, dbgEnv := s.dbgEnv, mem := s.mem,
               issues := s.issues })
    (chansOnly_agentLifts r v s)
  exact hlift.trans (congrArg (fun x : State => { x with mem := s.mem, issues := s.issues }) (storeReg_frame r v s))

end

/-! ### The registers -/

/-- A register no transfer reaches into holds what the write put there. -/
theorem getReg_agentWrites {q r : DmacReg} (v : Word) {s : State} (h : regMay s q = false) :
    getReg q (agentWrites r v s).dmac = getReg q (putReg r v s.dmac) := by
  rw [agentWrites_dmac]
  exact getReg_write32 (base := 0) h

/-- The others hold free values (U14; log 40). -/
theorem regsFree_agentWrites (r : DmacReg) (v : Word) (s : State) : regsFree s (agentWrites r v s) := by
  intro q hb _ hq
  rw [agentWrites_dmac]
  exact write32_free (base := 0) hb hq

/-! ### The instruction it starts -/

/-- A write injects, or may inject, in one of two ways: it starts an instruction (R66) or overwrites a pending one (R369). -/
theorem mayInject_eq_mayStart (r : DmacReg) (v : Word) (s : State) : mayInject r v s = mayStart s r v := by
  cases r with
  | dbgCmd => simp [mayInject, mayStart, overwritesPending, dbgCmdField]
  | dbgInst0 | dbgInst1 => simp [mayInject, mayStart, overwritesPending]
  | _ => rfl

theorem chanEnv_storeReg (r : DmacReg) (v : Word) (s : State) {n : Nat} (hn : n < 8) :
    chanEnv (storeReg r v s) n
      = if r = .dbgCmd ∧ dbgCmdField v = 0 then wordNoted (storeReg r v s).dmac.dbgInst0 n (chanEnv s n)
        else chanEnv s n := by
  by_cases hr : r = .dbgCmd
  · subst hr
    by_cases hv : dbgCmdField v = 0
    · rw [if_pos ⟨rfl, hv⟩, storeReg, if_pos hv, chanEnv_noteInjection_word _ hn, noteInjection_dmac]
      congr 1
      exact chanEnv_congr (settleRegs_chans _) n
    · rw [if_neg fun h => hv h.2, storeReg, if_neg hv]
      exact chanEnv_congr (settleRegs_chans _) n
  · rw [if_neg fun h => hr h.1]
    exact chanEnv_congr (write32_chans 0 v s hr) n

/-- The instruction that runs, or may run, is the one in DBGINST0 after the write. -/
theorem chanEnv_agentStores (r : DmacReg) (v : Word) (s : State) {n : Nat} (hn : n < 8) :
    chanEnv (agentStores r v s) n
      = if mayStart s r v then wordNoted (storeReg r v s).dmac.dbgInst0 n (chanEnv s n) else chanEnv s n := by
  rw [← mayInject_eq_mayStart, agentStores, mayInject]
  by_cases ho : overwritesPending r s = true
  · have hr : r ≠ .dbgCmd := by
      rintro rfl
      cases ho
    rw [if_pos ho, chanEnv_noteInjection_word _ hn, chanEnv_storeReg r v s hn, if_neg fun h => hr h.1, ho, Bool.or_true,
      if_pos rfl]
  · rw [if_neg ho, chanEnv_storeReg r v s hn]
    simp [ho]

/-! ### The channel it belongs to -/

theorem chanEnv_liftChannel (r : DmacReg) (s t : State) {n : Nat} (hn : n < 8) :
    chanEnv (liftChannel r s t) n
      = { chanEnv t n with lifted := (chanEnv t n).lifted || (regChannel r == some n && chanActive s n) } := by
  unfold liftChannel
  cases hr : regChannel r with
  | none => simp
  | some m =>
    by_cases hm : m = n
    · subst hm
      by_cases ha : chanActive s m = true <;> simp [ha, chanEnv_noteChan, hn]
    · have hother : (some m == some n) = false := beq_eq_false_iff_ne.2 fun h => hm (Option.some.inj h)
      rw [hother, Bool.false_and, Bool.or_false]
      dsimp only
      split_ifs
      · rw [chanEnv_noteChan, if_neg fun h => hm h.1]
      · rfl

/-- What becomes known of a channel: the instruction noted (R302), and that its reads are any value (U3). -/
theorem chanEnv_agentWrites (r : DmacReg) (v : Word) (s : State) {n : Nat} (hn : n < 8) :
    let w := (agentWrites r v s).dmac.dbgInst0
    chanEnv (agentWrites r v s) n =
      { last := (chanEnv s n).last
        goSeen := (chanEnv s n).goSeen || startsGo s r v w n
        killSeen := (chanEnv s n).killSeen || startsKill s r v w n
        ran := (chanEnv s n).ran && !startsGo s r v w n
        lifted := (chanEnv s n).lifted || (regChannel r == some n && chanActive s n) } := by
  intro w
  have hw : (storeReg r v s).dmac.dbgInst0 = w := by
    show _ = (agentWrites r v s).dmac.dbgInst0
    rw [agentWrites_dmac]
  have hlift : chanEnv (agentWrites r v s) n = chanEnv (liftChannel r s (agentStores r v s)) n := rfl
  rw [hlift, chanEnv_liftChannel r s _ hn, chanEnv_agentStores r v s hn, hw]
  by_cases hs : mayStart s r v = true <;> simp [hs, startsGo, startsKill, wordNoted]

/-- A channel of the DMAC with an open transfer, or not known to have come to rest, may be active (log 32). -/
theorem chanActive_of {s : State} {n : Nat} (hn : n < s.cfg.numChannels)
    (h : (∃ i ∈ s.issues, i.isOpen = true ∧ i.chan = n) ∨ (chanEnv s n).last ≠ some .stopped) :
    chanActive s n = true := by
  have hwhy : (!channelIdle (chanEnv s n) || s.issues.any fun i => i.chan == n && i.isOpen) = true := by
    rcases h with ⟨i, hi, hopen, hchan⟩ | hlast
    · have hany : (s.issues.any fun i => i.chan == n && i.isOpen) = true :=
        List.any_eq_true.2 ⟨i, hi, by simp [hopen, hchan]⟩
      rw [hany, Bool.or_true]
    · simp [channelIdle, hlast]
  rw [chanActive, hwhy, Bool.and_true, decide_eq_true hn]

theorem lt_of_chanActive {s : State} {n : Nat} (h : chanActive s n = true) : n < 8 := by
  simp only [chanActive, Bool.and_eq_true, decide_eq_true_eq] at h
  exact h.1.trans_le (numChannels_le_eight s.cfg)

theorem chanProtocol_of_lifted {s : State} {n : Nat} (h : (chanEnv s n).lifted = true) : chanProtocol s n = false := by
  simp [chanProtocol, h]

/-! ### The transfers -/

/-- The transfers disturbed are those of a channel that may be active, where the register is the channel's (U3) or the
instruction may kill it (U2). -/
theorem agentDisturbs_eq (r : DmacReg) (v : Word) (s : State) (i : Issue) :
    agentDisturbs r v s i
      = (chanActive s i.chan
        && (regChannel r == some i.chan || startsKill s r v (agentWrites r v s).dmac.dbgInst0 i.chan)) := by
  have hkill : ∀ w : Word, (killChannel w == some i.chan) = wordKill w i.chan := fun w => by
    rw [Bool.eq_iff_iff, beq_iff_eq, killChannel_iff]
  rw [agentDisturbs, mayInject_eq_mayStart, hkill, agentWrites_dmac, startsKill]

theorem onlyDisturbs_agentWrites (r : DmacReg) (v : Word) (s : State) :
    onlyDisturbs s (agentWrites r v s) (agentDisturbs r v s) := by
  have henv : EnvOnly s (liftChannel r s (agentStores r v s)) :=
    (envOnly_storeReg r v s).trans (chansOnly_agentLifts r v s).envOnly
  refine ⟨fun a => ?_, congrArg (List.map _) henv.issues⟩
  refine (byteAt_forgetTransfers (agentDisturbs r v s) wholeLength _ a).trans ?_
  rw [henv.issues, henv.byteAt a]

/-- Of a disturbed transfer's destination no byte is known (U1 to U3). -/
theorem byteAt_of_onlyDisturbs {s t : State} {p : Issue → Bool} (h : onlyDisturbs s t p) {i : Issue} (hi : i ∈ s.issues)
    (hp : p i = true) {b : Word} (hb : inRange i.data.dst i.data.size b = true) : byteAt t b = none := by
  obtain ⟨hforgets, -⟩ := h
  rw [hforgets b, if_pos (List.any_eq_true.2 ⟨i, hi, by rw [hp, mayWrite_whole_of_dst hb, Bool.true_and]⟩)]

/-- A register of a channel that may be active: the channel's reads are any value, and so is what its transfers may write
(U3). -/
theorem agentWrites_ownChannel {r : DmacReg} (v : Word) {s : State} {n : Nat} (hr : regChannel r = some n)
    (ha : chanActive s n = true) :
    chanProtocol (agentWrites r v s) n = false
    ∧ ∀ i ∈ s.issues, i.chan = n → ∀ b, inRange i.data.dst i.data.size b = true →
        byteAt (agentWrites r v s) b = none := by
  refine ⟨chanProtocol_of_lifted ?_, fun i hi hchan b hb => ?_⟩
  · rw [chanEnv_agentWrites r v s (lt_of_chanActive ha)]
    simp [hr, ha]
  · have hpicked : agentDisturbs r v s i = true := by simp [agentDisturbs_eq, hchan, hr, ha]
    exact byteAt_of_onlyDisturbs (onlyDisturbs_agentWrites r v s) hi hpicked hb

/-- Settles O59: the write's step is `agentWrites` on the state without the event. -/
theorem agentWritesDisturbOnlyTheirChannel : Obligations.AgentWritesDisturbOnlyTheirChannel := by
  intro s rest r v ha he hi
  let u : State := { s with inbox := rest }
  refine ⟨agentWrites r v u, step_event ha he hi nofun, afterEvent_bus (.agentWrite r v) u, fun q hq hmay => ?_,
    fun hb hmay => ?_, regsFree_agentWrites r v u, fun n hn _ => chanActive_of hn,
    fun n hr hactive => agentWrites_ownChannel (s := u) v hr hactive, fun n hn => chanEnv_agentWrites r v u hn,
    agentWrites_dbgEnv r v u, ?_, ?_⟩
  · exact (getReg_agentWrites (s := u) v hmay).trans (getReg_putReg_of_ne v s.dmac hq)
  · exact (getReg_agentWrites (s := u) v hmay).trans (getReg_putReg_self v s.dmac hb)
  · have hdisturbs := onlyDisturbs_agentWrites r v u
    rw [funext (agentDisturbs_eq r v u)] at hdisturbs
    exact hdisturbs
  · exact congrArg (fun x : State => { x with inbox := s.inbox }) (agentWrites_frame r v u)

/-! ### A reset of the DMAC, and nothing to do -/

/-- Settles O60: the reset's step is `dmacResets` on the state without the event, and an empty inbox leaves the state. -/
theorem dmacResetAndIdlingKeepTheBlock : Obligations.DmacResetAndIdlingKeepTheBlock := by
  refine ⟨fun s rest ha he hi => step_event ha he hi nofun, fun s ha he hi => ?_⟩
  have hidle : fetchEvent s = .done s := by simp [fetchEvent, hi]
  exact step_done ((fetch_event ha he).trans hidle)

end Sys2Proof.Machine
end
